-- ==== Sys2Proof/Word.lean ====
section
/-! DEFINITION. The 16-bit word, the 8-bit character code, the eight register names and the
register file as plain data (00_scope.md rules R6, R9; 10_state.md rules R20, R22). -/

namespace Sys2Proof

/-- A register, a memory cell, an address or an instruction word: 16 bits, arithmetic modulo 2^16
(00_scope.md rule R9). -/
abbrev Word := BitVec 16

/-- A character code, and a byte of the output sequence (70_reset_and_hazards.md rules R190 to R193). -/
abbrev Byte := BitVec 8

/-- The names of the general registers (10_state.md rules R20, R22: an index is always in 0..7). -/
inductive Reg where
  | r0 | r1 | r2 | r3 | r4 | r5 | r6 | r7
deriving DecidableEq, Repr

/-- The general register file, `x[0]` to `x[7]` (10_state.md rule R20). -/
structure RegFile where
  r0 : Word
  r1 : Word
  r2 : Word
  r3 : Word
  r4 : Word
  r5 : Word
  r6 : Word
  r7 : Word
deriving DecidableEq, Repr

end Sys2Proof
end

