-- ==== Sys2Proof/Syntax.lean ====
section
/-! DEFINITION. The decoded instruction: one constructor for each row of spec/opcode_table.json
(30_encoding.md rule R71). Immediates and offsets are already sign-extended to 16 bits, as R71 gives
them. The bits a word leaves unused are dropped (rule R68), except in the five forms whose failure
reports the whole instruction word (60_exceptions.md rules R161, R162): RES, RTI, TRAP, GETC and IN
keep theirs, so that the word can be reported. The six recognised vectors of TRAP and JMP R7 (RET)
have rows, and so constructors, of their own (log entry 3). -/

namespace Sys2Proof

/-- The instruction forms, in the order of spec/opcode_table.json. -/
inductive Instr where
  /-- BR: the condition bits n, z, p and the sign-extended PCoffset9 (41_control.md rule R100). -/
  | br (n z p : Bool) (off : Word)
  /-- ADD, register mode (40_operate.md rule R90). -/
  | addReg (dr sr1 sr2 : Reg)
  /-- ADD, immediate mode (40_operate.md rule R91). -/
  | addImm (dr sr1 : Reg) (imm : Word)
  /-- LD (42_load_store.md rule R110). -/
  | ld (dr : Reg) (off : Word)
  /-- ST (42_load_store.md rule R114). -/
  | st (sr : Reg) (off : Word)
  /-- JSR (41_control.md rule R102). -/
  | jsr (off : Word)
  /-- JSRR (41_control.md rule R103). -/
  | jsrr (base : Reg)
  /-- AND, register mode (40_operate.md rule R92). -/
  | andReg (dr sr1 sr2 : Reg)
  /-- AND, immediate mode (40_operate.md rule R93). -/
  | andImm (dr sr1 : Reg) (imm : Word)
  /-- LDR (42_load_store.md rule R112). -/
  | ldr (dr base : Reg) (off : Word)
  /-- STR (42_load_store.md rule R116). -/
  | str (sr base : Reg) (off : Word)
  /-- RTI, with its ignored bits 11..0 (44_reserved.md rule R151). -/
  | rti (ign : BitVec 12)
  /-- NOT (40_operate.md rule R94). -/
  | not (dr sr : Reg)
  /-- LDI (42_load_store.md rule R111). -/
  | ldi (dr : Reg) (off : Word)
  /-- STI (42_load_store.md rule R115). -/
  | sti (sr : Reg) (off : Word)
  /-- JMP, base register other than R7 (41_control.md rule R101). -/
  | jmp (base : Reg)
  /-- RES, with its ignored bits 11..0 (44_reserved.md rule R150). -/
  | res (ign : BitVec 12)
  /-- LEA (42_load_store.md rule R113). -/
  | lea (dr : Reg) (off : Word)
  /-- TRAP, with its ignored bits 11..8; an unrecognised vector when well formed
  (43_trap.md rules R125, R128). -/
  | trap (ign : BitVec 4) (vect : BitVec 8)
  /-- TRAP x20, with its ignored bits 11..8 (43_trap.md rule R130). -/
  | getc (ign : BitVec 4)
  /-- TRAP x21 (43_trap.md rule R131). -/
  | out
  /-- TRAP x22 (43_trap.md rule R132). -/
  | puts
  /-- TRAP x23, IN, with its ignored bits 11..8 (43_trap.md rule R133). -/
  | inp (ign : BitVec 4)
  /-- TRAP x24 (43_trap.md rule R134). -/
  | putsp
  /-- TRAP x25 (43_trap.md rule R135). -/
  | halt
  /-- RET, which is JMP R7 (41_control.md rule R101). -/
  | ret
deriving DecidableEq, Repr

end Sys2Proof
end

