-- ==== Sys2Proof/WellFormed.lean ====
section
/-! DEFINITION. Which instruction terms stand for an instruction word: an immediate or offset fits its
field (30_encoding.md rule R64), a TRAP term names no vector that has a constructor of its own, and a
JMP term does not name R7, whose words are RET's (log entry 3). -/

namespace Sys2Proof

/-- `v` is the sign extension of an `n`-bit field (30_encoding.md rule R64). -/
def fitsSigned (n : Nat) (v : Word) : Bool :=
  (v.setWidth n).signExtend 16 == v

/-- The vectors of 43_trap.md rule R127. -/
def isNamedVector (v : BitVec 8) : Bool :=
  v == 0x20 || v == 0x21 || v == 0x22 || v == 0x23 || v == 0x24 || v == 0x25

/-- The instruction term is the reading of some instruction word. -/
def Instr.wellFormed : Instr → Bool
  | .br _ _ _ off => fitsSigned 9 off
  | .addReg _ _ _ => true
  | .addImm _ _ imm => fitsSigned 5 imm
  | .ld _ off => fitsSigned 9 off
  | .st _ off => fitsSigned 9 off
  | .jsr off => fitsSigned 11 off
  | .jsrr _ => true
  | .andReg _ _ _ => true
  | .andImm _ _ imm => fitsSigned 5 imm
  | .ldr _ _ off => fitsSigned 6 off
  | .str _ _ off => fitsSigned 6 off
  | .rti _ => true
  | .not _ _ => true
  | .ldi _ off => fitsSigned 9 off
  | .sti _ off => fitsSigned 9 off
  | .jmp base => base != .r7
  | .res _ => true
  | .lea _ off => fitsSigned 9 off
  | .trap _ vect => !isNamedVector vect
  | .getc _ => true
  | .out => true
  | .puts => true
  | .inp _ => true
  | .putsp => true
  | .halt => true
  | .ret => true

end Sys2Proof
end

