-- ==== Sys2Proof/Decode.lean ====
section
/-! DEFINITION. The decoder of 30_encoding.md (rules R60 to R71) and, after it, the encoder. Every
16-bit word decodes to exactly one instruction (rule R70), so `decode` rejects nothing; the only
thing `decodeNext` can reject is a stream with no whole word in it. The opcode numbers and the field
positions are the spec's decisions D1 and D2 (log entry 2). -/

namespace Sys2Proof

/-- `sext16` of a field (00_scope.md rule R10). -/
def sext16 {n : Nat} (f : BitVec n) : Word := f.signExtend 16

/-- `zext16` of a value (00_scope.md rule R10). -/
def zext16 {n : Nat} (f : BitVec n) : Word := f.setWidth 16

/-- The register a 3-bit field names (10_state.md rule R22). -/
def Reg.ofBits (b : BitVec 3) : Reg :=
  if b = 0 then .r0 else if b = 1 then .r1 else if b = 2 then .r2 else if b = 3 then .r3
  else if b = 4 then .r4 else if b = 5 then .r5 else if b = 6 then .r6 else .r7

/-- The 3-bit field that names a register. -/
def Reg.toBits : Reg → BitVec 3
  | .r0 => 0 | .r1 => 1 | .r2 => 2 | .r3 => 3 | .r4 => 4 | .r5 => 5 | .r6 => 6 | .r7 => 7

/-- The sixteen values of the opcode field (30_encoding.md rules R61, R65). -/
inductive Opcode where
  | br | add | ld | st | jsr | and | ldr | str | rti | not | ldi | sti | jmp | res | lea | trap
deriving DecidableEq, Repr

/-- The opcode map (30_encoding.md rule R65). -/
def Opcode.ofBits (b : BitVec 4) : Opcode :=
  if b = 0x0 then .br else if b = 0x1 then .add else if b = 0x2 then .ld else if b = 0x3 then .st
  else if b = 0x4 then .jsr else if b = 0x5 then .and else if b = 0x6 then .ldr
  else if b = 0x7 then .str else if b = 0x8 then .rti else if b = 0x9 then .not
  else if b = 0xA then .ldi else if b = 0xB then .sti else if b = 0xC then .jmp
  else if b = 0xD then .res else if b = 0xE then .lea else .trap

/-- The opcode number (30_encoding.md rule R65). -/
def Opcode.toBits : Opcode → BitVec 4
  | .br => 0x0 | .add => 0x1 | .ld => 0x2 | .st => 0x3 | .jsr => 0x4 | .and => 0x5 | .ldr => 0x6
  | .str => 0x7 | .rti => 0x8 | .not => 0x9 | .ldi => 0xA | .sti => 0xB | .jmp => 0xC | .res => 0xD
  | .lea => 0xE | .trap => 0xF

/-- Bits [15:12] (30_encoding.md rule R61). -/
def fieldOp (w : Word) : BitVec 4 := w.extractLsb' 12 4
/-- DR, and the SR of a store: bits [11:9] (30_encoding.md rule R62). -/
def fieldDR (w : Word) : Reg := .ofBits (w.extractLsb' 9 3)
/-- SR1, the SR of NOT, and BaseR: bits [8:6] (30_encoding.md rule R62). -/
def fieldSR1 (w : Word) : Reg := .ofBits (w.extractLsb' 6 3)
/-- SR2: bits [2:0] (30_encoding.md rule R62). -/
def fieldSR2 (w : Word) : Reg := .ofBits (w.extractLsb' 0 3)
/-- imm5, sign-extended (30_encoding.md rule R64). -/
def fieldImm5 (w : Word) : Word := sext16 (w.extractLsb' 0 5)
/-- offset6, sign-extended (30_encoding.md rule R64). -/
def fieldOff6 (w : Word) : Word := sext16 (w.extractLsb' 0 6)
/-- PCoffset9, sign-extended (30_encoding.md rule R64). -/
def fieldOff9 (w : Word) : Word := sext16 (w.extractLsb' 0 9)
/-- PCoffset11, sign-extended (30_encoding.md rule R64). -/
def fieldOff11 (w : Word) : Word := sext16 (w.extractLsb' 0 11)
/-- trapvect8, not extended (30_encoding.md rule R64; 90_conflicts.md C4). -/
def fieldVect (w : Word) : BitVec 8 := w.extractLsb' 0 8

/-- The six recognised vectors have constructors of their own (43_trap.md rule R127); `ign` is bits
[11:8], which no routine but a failure's report depends on. -/
def decodeTrap (ign : BitVec 4) (v : BitVec 8) : Instr :=
  if v = 0x20 then .getc ign
  else if v = 0x21 then .out
  else if v = 0x22 then .puts
  else if v = 0x23 then .inp ign
  else if v = 0x24 then .putsp
  else if v = 0x25 then .halt
  else .trap ign v

/-- JMP R7 is RET (30_encoding.md rule R73). -/
def decodeJmp (base : Reg) : Instr :=
  if base = .r7 then .ret else .jmp base

/-- The decoder (30_encoding.md rule R71): total, with no wildcard arm. -/
def decode (w : Word) : Instr :=
  match Opcode.ofBits (fieldOp w) with
  | .br => .br (w.getLsbD 11) (w.getLsbD 10) (w.getLsbD 9) (fieldOff9 w)
  | .add => if w.getLsbD 5 then .addImm (fieldDR w) (fieldSR1 w) (fieldImm5 w)
            else .addReg (fieldDR w) (fieldSR1 w) (fieldSR2 w)
  | .ld => .ld (fieldDR w) (fieldOff9 w)
  | .st => .st (fieldDR w) (fieldOff9 w)
  | .jsr => if w.getLsbD 11 then .jsr (fieldOff11 w) else .jsrr (fieldSR1 w)
  | .and => if w.getLsbD 5 then .andImm (fieldDR w) (fieldSR1 w) (fieldImm5 w)
            else .andReg (fieldDR w) (fieldSR1 w) (fieldSR2 w)
  | .ldr => .ldr (fieldDR w) (fieldSR1 w) (fieldOff6 w)
  | .str => .str (fieldDR w) (fieldSR1 w) (fieldOff6 w)
  | .rti => .rti (w.extractLsb' 0 12)
  | .not => .not (fieldDR w) (fieldSR1 w)
  | .ldi => .ldi (fieldDR w) (fieldOff9 w)
  | .sti => .sti (fieldDR w) (fieldOff9 w)
  | .jmp => decodeJmp (fieldSR1 w)
  | .res => .res (w.extractLsb' 0 12)
  | .lea => .lea (fieldDR w) (fieldOff9 w)
  | .trap => decodeTrap (w.extractLsb' 8 4) (fieldVect w)

/-- Why a stream of words yields no instruction. Safe: no rule of the machine decodes from a stream;
the core fetches one whole cell (30_encoding.md rule R60). -/
inductive DecodeReject where
  /-- The stream holds no word. -/
  | noWord
deriving DecidableEq, Repr

/-- The next instruction of a stream of words: exactly one word each (30_encoding.md rule R60). -/
def decodeNext : List Word → Except DecodeReject (Instr × List Word)
  | [] => .error .noWord
  | w :: rest => .ok (decode w, rest)

/-- The host's reading of a word of spec/opcode_table.json: the low `nbits` bits of `w` are the
instruction, any higher bit is 0, and the instruction is one cell. -/
def decodeTableWord (nbits w : Nat) : Option Instr :=
  some (decode (BitVec.ofNat 16 (w % 2 ^ nbits)))

/-! The encoder, from the same tables (30_encoding.md rules R62, R63). Ignored bits are written as
0, and as 1 in NOT's bits [5:0], as R63 says the assembler writes them. -/

/-- A TRAP word (30_encoding.md rule R63, format TRAP). -/
def trapWord (ign : BitVec 4) (v : BitVec 8) : Word := Opcode.trap.toBits ++ ign ++ v

/-- Format PCREL (30_encoding.md rule R63). -/
def pcrelWord (op : Opcode) (r : Reg) (off : Word) : Word := op.toBits ++ r.toBits ++ off.setWidth 9

/-- Format BASE (30_encoding.md rule R63). -/
def baseWord (op : Opcode) (r base : Reg) (off : Word) : Word :=
  op.toBits ++ r.toBits ++ base.toBits ++ off.setWidth 6

/-- Format OPR (30_encoding.md rule R63). -/
def oprWord (op : Opcode) (dr sr1 sr2 : Reg) : Word :=
  op.toBits ++ dr.toBits ++ sr1.toBits ++ (0 : BitVec 3) ++ sr2.toBits

/-- Format OPI (30_encoding.md rule R63). -/
def opiWord (op : Opcode) (dr sr1 : Reg) (imm : Word) : Word :=
  op.toBits ++ dr.toBits ++ sr1.toBits ++ (1 : BitVec 1) ++ imm.setWidth 5

/-- Formats JMP and JSRR, which leave all but BaseR unused below the fixed bits
(30_encoding.md rule R63). -/
def jumpWord (op : Opcode) (base : Reg) : Word :=
  op.toBits ++ (0 : BitVec 3) ++ base.toBits ++ (0 : BitVec 6)

/-- The word of an instruction (30_encoding.md rules R63, R65, R67; 43_trap.md rule R127). -/
def encode : Instr → Word
  | .br n z p off =>
      Opcode.br.toBits ++ BitVec.ofBool n ++ BitVec.ofBool z ++ BitVec.ofBool p ++ off.setWidth 9
  | .addReg dr sr1 sr2 => oprWord .add dr sr1 sr2
  | .addImm dr sr1 imm => opiWord .add dr sr1 imm
  | .ld dr off => pcrelWord .ld dr off
  | .st sr off => pcrelWord .st sr off
  | .jsr off => Opcode.jsr.toBits ++ (1 : BitVec 1) ++ off.setWidth 11
  | .jsrr base => jumpWord .jsr base
  | .andReg dr sr1 sr2 => oprWord .and dr sr1 sr2
  | .andImm dr sr1 imm => opiWord .and dr sr1 imm
  | .ldr dr base off => baseWord .ldr dr base off
  | .str sr base off => baseWord .str sr base off
  | .rti ign => Opcode.rti.toBits ++ ign
  | .not dr sr => Opcode.not.toBits ++ dr.toBits ++ sr.toBits ++ (0x3F : BitVec 6)
  | .ldi dr off => pcrelWord .ldi dr off
  | .sti sr off => pcrelWord .sti sr off
  | .jmp base => jumpWord .jmp base
  | .res ign => Opcode.res.toBits ++ ign
  | .lea dr off => pcrelWord .lea dr off
  | .trap ign vect => trapWord ign vect
  | .getc ign => trapWord ign 0x20
  | .out => trapWord 0 0x21
  | .puts => trapWord 0 0x22
  | .inp ign => trapWord ign 0x23
  | .putsp => trapWord 0 0x24
  | .halt => trapWord 0 0x25
  | .ret => jumpWord .jmp .r7

/-- The bits of a word that its instruction depends on (30_encoding.md rule R68 lists the others).
The failing forms RES, RTI, TRAP, GETC and IN report the whole word, so all of theirs count. -/
def usedBits (w : Word) : Word :=
  match Opcode.ofBits (fieldOp w) with
  | .add | .and => if w.getLsbD 5 then 0xFFFF else 0xFFE7
  | .not => 0xFFC0
  | .jmp => 0xF1C0
  | .jsr => if w.getLsbD 11 then 0xFFFF else 0xF9C0
  | .trap =>
      if fieldVect w = 0x21 ∨ fieldVect w = 0x22 ∨ fieldVect w = 0x24 ∨ fieldVect w = 0x25
      then 0xF0FF else 0xFFFF
  | .br | .ld | .st | .ldr | .str | .rti | .ldi | .sti | .res | .lea => 0xFFFF

end Sys2Proof
end

