-- ==== Sys2Proof/Config.lean ====
section
/-! DEFINITION. The named parameters of 00_scope.md rule R7, with this spec's values, and the one
free value of the machine, the host's draw at a keyboard poll (70_reset_and_hazards.md rule R190).

R7 says that a model takes its parameters as arguments. Here they are data: `State` carries a
`Params` that no step changes, and `State.resetWith` takes a `ResetParams`. A statement about every
state is therefore a statement about every value of every parameter. -/

namespace Sys2Proof.Config

/-- The parameters that an instruction's effect depends on (00_scope.md rule R7). -/
structure Params where
  /-- `KBSR_ADDR`, the keyboard-status cell (20_memory.md rule R42; decision D5). -/
  kbsrAddr : Word
  /-- `KBDR_ADDR`, the keyboard-data cell (20_memory.md rule R42; decision D5). The two differ. -/
  kbdrAddr : Word
  /-- `TRAP_INPUT_SETS_FLAGS` (10_state.md rule R26; decision D9). -/
  trapInputSetsFlags : Bool
  /-- `TRAP_LINKS_R7` (43_trap.md rule R126; decision D10). -/
  trapLinksR7 : Bool
  /-- `IN_PROMPT` (43_trap.md rule R133; decision D17). -/
  inPrompt : List Byte
deriving DecidableEq, Repr

/-- The parameters that only reset reads (00_scope.md rule R7; 10_state.md rule R32). -/
structure ResetParams where
  /-- `PC_START` (70_reset_and_hazards.md rule R182; decision D6). -/
  pcStart : Word
  /-- `INIT_GPR` (decision D7). -/
  initGpr : RegFile
  /-- `INIT_FILL`, as the list of its nonzero cells in rising order of address (decision D8). -/
  initFill : List (Nat × Word)
deriving DecidableEq, Repr

/-- `FAIL_EXIT_CODE`: an open integer that differs from 0 (00_scope.md rule R7;
70_reset_and_hazards.md rule R194; decision D28). -/
abbrev FailExitCode := { code : Int // code ≠ 0 }

/-- The 19 ASCII bytes of "Enter a character: " (00_scope.md rule R7, `IN_PROMPT`). -/
def promptBytes : List Byte :=
  [0x45, 0x6E, 0x74, 0x65, 0x72, 0x20, 0x61, 0x20, 0x63, 0x68, 0x61, 0x72, 0x61, 0x63, 0x74, 0x65,
   0x72, 0x3A, 0x20]

/-- This spec's values of the parameters (00_scope.md rule R7). -/
def specParams : Params where
  kbsrAddr := 0xFE00
  kbdrAddr := 0xFE02
  trapInputSetsFlags := false
  trapLinksR7 := true
  inPrompt := promptBytes

/-- This spec's values of the reset parameters (00_scope.md rule R7; 10_state.md rule R32). -/
def specResetParams : ResetParams where
  pcStart := 0x3000
  initGpr := { r0 := 0, r1 := 0, r2 := 0, r3 := 0, r4 := 0, r5 := 0, r6 := 0, r7 := 0 }
  initFill := []

/-- FREE VALUE: whether the k-th keyboard poll finds the next character of the stream, where the
state's own list of draws does not say (70_reset_and_hazards.md rule R190: "A model takes this as a
draw"). It has no body, so no proof can know it. Log entry 5. -/
opaque pollDraw : Nat → Bool

end Sys2Proof.Config
end

