-- ==== Sys2Proof/Machine/State.lean ====
section
/-! DEFINITION. The machine state as plain data (10_state.md rules R20 to R32), what can stop a step,
and the state after reset (10_state.md rule R32; 70_reset_and_hazards.md rule R180). -/

namespace Sys2Proof.Machine

open Sys2Proof.Config

/-- The condition flag: exactly one of the three, by type (10_state.md rule R24). -/
inductive Cond where
  | n | z | p
deriving DecidableEq, Repr

/-- The two failure kinds the core raises (60_exceptions.md rule R160). -/
inductive FailKind where
  /-- A reserved opcode or an unrecognised trap vector (60_exceptions.md rule R161). -/
  | illegalInstruction
  /-- End-of-stream at a blocking read (60_exceptions.md rule R162). -/
  | inputUnavailable
deriving DecidableEq, Repr

/-- The run state (10_state.md rule R28). A failure records the instruction word and its address
(decision D22). -/
inductive RunState where
  | running
  | halted
  | failed (kind : FailKind) (word addr : Word)
deriving DecidableEq, Repr

/-- How far a TRAP routine has come when a step ends inside it (30_encoding.md rule R81). This is the
model's own field: the spec has a routine complete before the next fetch, and a step of this model can
end inside one only where the routine waits in `block_read()` (70_reset_and_hazards.md rule R191) or a
scan has gone once round all of memory (log entries 6 and 7). A waiting routine keeps its TRAP word for
the report of InputUnavailable. -/
inductive Pending where
  /-- No routine is in progress: the next step fetches. -/
  | idle
  /-- GETC waits for a character (43_trap.md rule R130). -/
  | waitGetc (word : Word)
  /-- IN has written its prompt and waits for a character (43_trap.md rule R133). -/
  | waitIn (word : Word)
  /-- PUTS goes on at this address (43_trap.md rule R132). -/
  | scanPuts (addr : Word)
  /-- PUTSP goes on at this address (43_trap.md rule R134). -/
  | scanPutsp (addr : Word)
deriving DecidableEq, Repr

/-- Memory: the cells whose content is not the default, in rising order of address. One address names
one 16-bit cell, and there is no byte address (20_memory.md rules R40, R47; log entry 4). -/
abbrev Memory := List (Nat × Word)

/-- What an unlisted address reads as: `INIT_FILL`'s value in this spec (10_state.md rule R32;
decision D8; log entry 10). -/
def Memory.fill : Word := 0

/-- The state. `params` is constant: no step writes it. `input`, `inputEnded`, `draws`, `polls` and
`output` are the host environment of 70_reset_and_hazards.md rule R193, held here so that a step is a
function of the state. -/
structure State where
  /-- `x[0]` to `x[7]` (10_state.md rule R20). -/
  regs : RegFile
  /-- The program counter (10_state.md rule R23). -/
  pc : Word
  /-- The condition flag (10_state.md rule R24). -/
  cond : Cond
  /-- The 65536 cells (20_memory.md rule R40). -/
  mem : Memory
  /-- The run state (10_state.md rule R28). -/
  run : RunState
  /-- The parameters of 00_scope.md rule R7. -/
  params : Params
  /-- The routine in progress (the model's own field). -/
  pending : Pending
  /-- The characters the host has supplied and the core has not consumed, the next one first
  (70_reset_and_hazards.md rule R193). -/
  input : List Byte
  /-- The host has signalled end-of-stream after `input` (70_reset_and_hazards.md rule R191). -/
  inputEnded : Bool
  /-- The host's coming draws at keyboard polls, as far as they are fixed, the next one first
  (70_reset_and_hazards.md rule R190; the model's own field). -/
  draws : List Bool
  /-- How many keyboard polls have been made: the argument of the free value `Config.pollDraw`
  (the model's own field). -/
  polls : Nat
  /-- The OutputSink's bytes, the oldest first (43_trap.md rule R136). -/
  output : List Byte
deriving DecidableEq, Repr

/-- Why the machine makes no step. -/
inductive Fault where
  /-- Raised by `step` where RUN is Halted: the loop has exited (30_encoding.md rule R84). Safe: it is
  the spec's own end of a run. -/
  | halted
  /-- Raised by `step` where RUN is Failed: the run has ended in a failure (30_encoding.md rule R84).
  Safe: it is the spec's own end of a run. -/
  | failed
  /-- Raised by `step` where GETC or IN is waiting in `block_read()` and the host has supplied neither
  a character nor end-of-stream: the wait is the absence of a step (70_reset_and_hazards.md rule R191;
  decision D30). Safe: the state is not lost, and the host may supply input and step again. -/
  | awaitingInput
deriving DecidableEq, Repr

/-- Instructions the model gives no meaning. None is left: no arm of `exec` answers so. -/
inductive Refusal where
  /-- Raised by an arm of `exec` whose instruction has no meaning yet. Safe: nothing is claimed about
  it. -/
  | notModelled (mnemonic : String)
deriving DecidableEq, Repr

/-- The reset sequence for given parameters (70_reset_and_hazards.md rule R180; 10_state.md rule
R32). The host has supplied nothing yet: no character, no end-of-stream, no draw, no output. -/
def State.resetWith (p : Params) (r : ResetParams) : State where
  regs := r.initGpr
  pc := r.pcStart
  cond := .z
  mem := r.initFill
  run := .running
  params := p
  pending := .idle
  input := []
  inputEnded := false
  draws := []
  polls := 0
  output := []

/-- The machine right after reset, with this spec's values of the parameters and no image loaded
(10_state.md rule R32). -/
def State.reset : State := .resetWith specParams specResetParams

end Sys2Proof.Machine
end

