-- ==== Sys2Proof/Machine/Ops.lean ====
section
/-! DEFINITION. The named operations over registers, memory, the host's devices and the run state:
register access (00_scope.md rule R11), the memory bus (20_memory.md rules R43 to R45), the device
operations (70_reset_and_hazards.md rules R190 to R192), the fetch (30_encoding.md rule R82), taking a
failure (60_exceptions.md rules R161, R162, R164), and TRAP entry and return (60_exceptions.md rules
R167, R168). -/

namespace Sys2Proof.Machine

open Sys2Proof.Config

/-! Registers. -/

/-- `x[r]` of a register file. -/
def regGet (f : RegFile) : Reg → Word
  | .r0 => f.r0 | .r1 => f.r1 | .r2 => f.r2 | .r3 => f.r3
  | .r4 => f.r4 | .r5 => f.r5 | .r6 => f.r6 | .r7 => f.r7

/-- The register file after `x[r] <- v`. No register is hardwired (10_state.md rule R20). -/
def regSet (f : RegFile) (r : Reg) (v : Word) : RegFile :=
  match r with
  | .r0 => { f with r0 := v } | .r1 => { f with r1 := v }
  | .r2 => { f with r2 := v } | .r3 => { f with r3 := v }
  | .r4 => { f with r4 := v } | .r5 => { f with r5 := v }
  | .r6 => { f with r6 := v } | .r7 => { f with r7 := v }

/-- `x[r]` (00_scope.md rule R11). -/
def State.reg (s : State) (r : Reg) : Word := regGet s.regs r

/-- `x[r] <- v` (00_scope.md rule R11). -/
def State.setReg (s : State) (r : Reg) (v : Word) : State := { s with regs := regSet s.regs r v }

/-- `pc <- target` (00_scope.md rule R11). -/
def State.setPc (s : State) (v : Word) : State := { s with pc := v }

/-! Memory as a list in canonical form: addresses strictly rising and below 65536, and no entry equal
to `Memory.fill`. -/

/-- The canonical form of the entries from address `lo` on. -/
def Memory.wfFrom (lo : Nat) : Memory → Bool
  | [] => true
  | (a, v) :: m => decide (lo ≤ a) && decide (a < 65536) && (v != Memory.fill) && Memory.wfFrom (a + 1) m

/-- The canonical form. -/
def Memory.wf (m : Memory) : Bool := Memory.wfFrom 0 m

/-- The content of the cell at `a`. -/
def Memory.read (m : Memory) (a : Nat) : Word :=
  match m with
  | [] => Memory.fill
  | (k, v) :: rest => if k = a then v else Memory.read rest a

/-- An entry put before a list, left out where it says what an unlisted address reads as. -/
def Memory.cons (a : Nat) (v : Word) (m : Memory) : Memory :=
  if v = Memory.fill then m else (a, v) :: m

/-- The memory after the cell at `a` is set to `v`. -/
def Memory.write (m : Memory) (a : Nat) (v : Word) : Memory :=
  match m with
  | [] => Memory.cons a v []
  | (k, u) :: rest =>
    if a < k then Memory.cons a v ((k, u) :: rest)
    else if a = k then Memory.cons a v rest
    else (k, u) :: Memory.write rest a v

/-- `M[a]`: the stored content, with no side effect (00_scope.md rule R11). -/
def State.cell (s : State) (a : Word) : Word := Memory.read s.mem a.toNat

/-- `M[a] <- v`, with no side effect (00_scope.md rule R11). -/
def State.setCell (s : State) (a v : Word) : State := { s with mem := Memory.write s.mem a.toNat v }

/-! The devices. -/

/-- Whether the next poll may find the next character: the host's next draw, or the free value where
the state fixes none (70_reset_and_hazards.md rule R190). -/
def State.nextDraw (s : State) : Bool :=
  match s.draws with
  | d :: _ => d
  | [] => pollDraw s.polls

/-- `poll()` (70_reset_and_hazards.md rule R190): the next character of the stream, consumed, if there
is one and the draw finds it; else none. Each poll takes one draw. -/
def State.poll (s : State) : Option Byte × State :=
  let s1 : State := { s with draws := s.draws.tail, polls := s.polls + 1 }
  match s.input with
  | [] => (none, s1)
  | c :: rest => if s.nextDraw then (some c, { s1 with input := rest }) else (none, s1)

/-- The poll's effect on the keyboard cells (20_memory.md rule R44; decisions D12, D19, D20). -/
def State.keyboardPoll (s : State) : State :=
  match s.poll with
  | (some ch, s1) =>
      (s1.setCell s1.params.kbsrAddr (s1.cell s1.params.kbsrAddr ||| 0x8000)).setCell
        s1.params.kbdrAddr (zext16 ch)
  | (none, s1) => s1.setCell s1.params.kbsrAddr (s1.cell s1.params.kbsrAddr &&& 0x7FFF)

/-- `MemRead(a)` (20_memory.md rule R43): a read of the keyboard-status cell polls first. -/
def State.memRead (s : State) (a : Word) : Word × State :=
  if a = s.params.kbsrAddr then (s.keyboardPoll.cell a, s.keyboardPoll) else (s.cell a, s)

/-- `MemWrite(a, v)` (20_memory.md rule R45): no side effect, at any address. -/
def State.memWrite (s : State) (a v : Word) : State := s.setCell a v

/-- What `block_read()` answers (70_reset_and_hazards.md rule R191). -/
inductive BlockRead where
  /-- The next character of the stream. -/
  | char (c : Byte)
  /-- End-of-stream. -/
  | endOfStream
  /-- Neither has been supplied: the core waits. -/
  | wait
deriving DecidableEq, Repr

/-- `block_read()` (70_reset_and_hazards.md rule R191), with the state after it. -/
def State.blockRead (s : State) : BlockRead × State :=
  match s.input with
  | c :: rest => (.char c, { s with input := rest })
  | [] => (if s.inputEnded then .endOfStream else .wait, s)

/-- `write(b)` (70_reset_and_hazards.md rule R192): one byte at the end of the OutputSink. -/
def State.writeByte (s : State) (b : Byte) : State := { s with output := s.output ++ [b] }

/-- `write` of each byte in turn (43_trap.md rule R133). -/
def State.writeBytes (s : State) (bs : List Byte) : State := { s with output := s.output ++ bs }

/-- Bits 7..0 of a cell or register (20_memory.md rule R47). -/
def lowByte (v : Word) : Byte := v.extractLsb' 0 8

/-- Bits 15..8 of a cell (20_memory.md rule R47). -/
def highByte (v : Word) : Byte := v.extractLsb' 8 8

/-! Fetch, failure, halt, TRAP entry and return. -/

/-- `fetch()` (30_encoding.md rule R82): the word at the PC, read over the bus, and the PC advanced. -/
def State.fetch (s : State) : Word × State :=
  ((s.memRead s.pc).1, { (s.memRead s.pc).2 with pc := s.pc + 1 })

/-- Taking a failure, `raise kind(word, addr)` (00_scope.md rule R13; 60_exceptions.md rules R161,
R162, R164): the run ends in Failed with the instruction word and its own address, which is the
incremented PC less 1. Nothing else changes: no handler, no saved register (60_exceptions.md rule
R167). -/
def State.raise (s : State) (kind : FailKind) (word : Word) : State :=
  { s with run := .failed kind word (s.pc - 1) }

/-- `halt` (00_scope.md rule R13; 43_trap.md rule R135). -/
def State.halt (s : State) : State := { s with run := .halted }

/-- TRAP entry: the link (43_trap.md rule R126; 60_exceptions.md rule R167). No mode, mask or stack
changes, and no vector table is read. -/
def State.trapEntry (s : State) : State :=
  if s.params.trapLinksR7 then s.setReg .r7 s.pc else s

/-- TRAP return: a routine returns by completing, and the loop fetches at the incremented PC
(60_exceptions.md rule R168). There is no return instruction. -/
def State.trapReturn (s : State) : State := { s with pending := .idle }

/-- A routine stops inside, at a point it goes on from (the model's own field). -/
def State.suspend (s : State) (p : Pending) : State := { s with pending := p }

end Sys2Proof.Machine
end

