-- ==== Sys2Proof/Machine/Flags.lean ====
section
/-! DEFINITION. The condition flag: how a value sets it (10_state.md rules R25, R26) and how BR reads
it (30_encoding.md rule R66). -/

namespace Sys2Proof.Machine

/-- The flag a value sets (10_state.md rule R25). -/
def condOf (v : Word) : Cond :=
  if v = 0 then .z else if v.getLsbD 15 then .n else .p

/-- `setcc(v)` (10_state.md rule R25). -/
def State.setcc (s : State) (v : Word) : State := { s with cond := condOf v }

/-- `x[dr] <- v`, then `setcc(x[dr])`: what a flag-setting instruction does with its result
(10_state.md rule R26). -/
def State.writeResult (s : State) (dr : Reg) (v : Word) : State :=
  (s.setReg dr v).setcc ((s.setReg dr v).reg dr)

/-- The flag update of GETC and IN, made only under `TRAP_INPUT_SETS_FLAGS` (10_state.md rule R26;
decision D9). -/
def State.inputFlags (s : State) : State :=
  if s.params.trapInputSetsFlags then s.setcc (s.reg .r0) else s

/-- `taken` of BR (30_encoding.md rule R66; 41_control.md rule R100). -/
def branchTaken (n z p : Bool) (c : Cond) : Bool :=
  (n && c == .n) || (z && c == .z) || (p && c == .p)

end Sys2Proof.Machine
end

