-- ==== Sys2Proof/Machine/Operands.lean ====
section
/-! DEFINITION. Operand values and effective addresses (30_encoding.md rule R64; 42_load_store.md rule
R117). The PC is the incremented PC throughout (30_encoding.md rule R82), and every address is
computed modulo 2^16. -/

namespace Sys2Proof.Machine

/-- The second operand of ADD and AND (30_encoding.md rule R67). -/
inductive Operand where
  /-- Register mode. -/
  | reg (r : Reg)
  /-- Immediate mode: the sign-extended imm5. -/
  | imm (v : Word)
deriving DecidableEq, Repr

/-- The value of a second operand (30_encoding.md rule R67). -/
def State.operand (s : State) : Operand → Word
  | .reg r => s.reg r
  | .imm v => v

/-- PC-relative: `PC + off` (42_load_store.md rule R117; 41_control.md rule R104). -/
def State.pcRel (s : State) (off : Word) : Word := s.pc + off

/-- Base plus offset: `x[base] + off` (42_load_store.md rule R117). -/
def State.baseOff (s : State) (base : Reg) (off : Word) : Word := s.reg base + off

/-- Indirect: the content of the PC-relative cell, read over the bus, and the state after that read
(42_load_store.md rule R117). -/
def State.indirect (s : State) (off : Word) : Word × State := s.memRead (s.pcRel off)

end Sys2Proof.Machine
end

