-- ==== Sys2Proof/Machine/Control.lean ====
section
/-! DEFINITION. BR, JMP, RET, JSR and JSRR (41_control.md). None writes the condition flag. -/

namespace Sys2Proof.Machine

/-- `x[7] <- PC`, the incremented PC (41_control.md rules R102, R103). -/
def State.link (s : State) : State := s.setReg .r7 s.pc

/-- `pc <- x[base]` (41_control.md rules R101, R103). -/
def State.jumpReg (s : State) (base : Reg) : State := s.setPc (s.reg base)

/-- BR (41_control.md rule R100). -/
def execBr (n z p : Bool) (off : Word) (s : State) : Host.Outcome State Fault Refusal :=
  .next (if branchTaken n z p s.cond then s.setPc (s.pcRel off) else s)

/-- JMP (41_control.md rule R101). -/
def execJmp (base : Reg) (s : State) : Host.Outcome State Fault Refusal :=
  .next (s.jumpReg base)

/-- RET, which is JMP R7 (41_control.md rule R101). -/
def execRet (s : State) : Host.Outcome State Fault Refusal :=
  .next (s.jumpReg .r7)

/-- JSR (41_control.md rule R102): the target is taken from the incremented PC, which the link does
not change. -/
def execJsr (off : Word) (s : State) : Host.Outcome State Fault Refusal :=
  .next (s.link.setPc (s.link.pcRel off))

/-- JSRR (41_control.md rule R103; 90_conflicts.md C5): the base register is read AFTER the link, so
JSRR R7 falls through. -/
def execJsrr (base : Reg) (s : State) : Host.Outcome State Fault Refusal :=
  .next (s.link.jumpReg base)

end Sys2Proof.Machine
end

