-- ==== Sys2Proof/Machine/LoadStore.lean ====
section
/-! DEFINITION. LD, LDI, LDR, LEA, ST, STI and STR (42_load_store.md). Every read is a bus read, so a
read of the keyboard-status cell polls. No access can fault (20_memory.md rule R41). -/

namespace Sys2Proof.Machine

/-- `x[dr] <- MemRead(ea)`, then `setcc(x[dr])` (42_load_store.md rules R110, R111, R112). -/
def State.load (s : State) (dr : Reg) (ea : Word) : State :=
  (s.memRead ea).2.writeResult dr (s.memRead ea).1

/-- LD (42_load_store.md rule R110). -/
def execLd (dr : Reg) (off : Word) (s : State) : Host.Outcome State Fault Refusal :=
  .next (s.load dr (s.pcRel off))

/-- LDI (42_load_store.md rule R111): the pointer is read first, then the data. -/
def execLdi (dr : Reg) (off : Word) (s : State) : Host.Outcome State Fault Refusal :=
  .next ((s.indirect off).2.load dr (s.indirect off).1)

/-- LDR (42_load_store.md rule R112): the address is computed from the old base (R118). -/
def execLdr (dr base : Reg) (off : Word) (s : State) : Host.Outcome State Fault Refusal :=
  .next (s.load dr (s.baseOff base off))

/-- LEA (42_load_store.md rule R113; 90_conflicts.md C6): no memory access, and it sets the flag. -/
def execLea (dr : Reg) (off : Word) (s : State) : Host.Outcome State Fault Refusal :=
  .next (s.writeResult dr (s.pcRel off))

/-- ST (42_load_store.md rule R114). -/
def execSt (sr : Reg) (off : Word) (s : State) : Host.Outcome State Fault Refusal :=
  .next (s.memWrite (s.pcRel off) (s.reg sr))

/-- STI (42_load_store.md rule R115): the pointer read comes first and may poll. -/
def execSti (sr : Reg) (off : Word) (s : State) : Host.Outcome State Fault Refusal :=
  .next ((s.indirect off).2.memWrite (s.indirect off).1 ((s.indirect off).2.reg sr))

/-- STR (42_load_store.md rule R116). -/
def execStr (sr base : Reg) (off : Word) (s : State) : Host.Outcome State Fault Refusal :=
  .next (s.memWrite (s.baseOff base off) (s.reg sr))

end Sys2Proof.Machine
end

