-- ==== Sys2Proof/Machine/Operate.lean ====
section
/-! DEFINITION. ADD, AND and NOT (40_operate.md). -/

namespace Sys2Proof.Machine

/-- ADD (40_operate.md rules R90, R91, R95): the sum modulo 2^16; all reads before the write (R96). -/
def State.add (s : State) (dr sr1 : Reg) (o : Operand) : State :=
  s.writeResult dr (s.reg sr1 + s.operand o)

/-- AND (40_operate.md rules R92, R93). -/
def State.and (s : State) (dr sr1 : Reg) (o : Operand) : State :=
  s.writeResult dr (s.reg sr1 &&& s.operand o)

/-- ADD, register mode (40_operate.md rule R90). -/
def execAddReg (dr sr1 sr2 : Reg) (s : State) : Host.Outcome State Fault Refusal :=
  .next (s.add dr sr1 (.reg sr2))

/-- ADD, immediate mode (40_operate.md rule R91). -/
def execAddImm (dr sr1 : Reg) (imm : Word) (s : State) : Host.Outcome State Fault Refusal :=
  .next (s.add dr sr1 (.imm imm))

/-- AND, register mode (40_operate.md rule R92). -/
def execAndReg (dr sr1 sr2 : Reg) (s : State) : Host.Outcome State Fault Refusal :=
  .next (s.and dr sr1 (.reg sr2))

/-- AND, immediate mode (40_operate.md rule R93). -/
def execAndImm (dr sr1 : Reg) (imm : Word) (s : State) : Host.Outcome State Fault Refusal :=
  .next (s.and dr sr1 (.imm imm))

/-- NOT (40_operate.md rule R94). -/
def execNot (dr sr : Reg) (s : State) : Host.Outcome State Fault Refusal :=
  .next (s.writeResult dr (~~~ s.reg sr))

end Sys2Proof.Machine
end

