-- ==== Sys2Proof/Machine/Reserved.lean ====
section
/-! DEFINITION. The reserved opcodes RES and RTI (44_reserved.md): each takes the IllegalInstruction
failure, with the whole instruction word in its report. -/

namespace Sys2Proof.Machine

/-- RES (44_reserved.md rule R150). -/
def execRes (ign : BitVec 12) (s : State) : Host.Outcome State Fault Refusal :=
  .next (s.raise .illegalInstruction (Opcode.res.toBits ++ ign))

/-- RTI (44_reserved.md rule R151). -/
def execRti (ign : BitVec 12) (s : State) : Host.Outcome State Fault Refusal :=
  .next (s.raise .illegalInstruction (Opcode.rti.toBits ++ ign))

end Sys2Proof.Machine
end

