-- ==== Sys2Proof/Machine/Trap.lean ====
section
/-! DEFINITION. TRAP and the six routines built into the core (43_trap.md). A routine is a function on
the state after the link. A step of the model runs a routine to its end wherever it can; it ends inside
one only where the routine waits for input, or where a scan has read all 65536 cells and met no
terminator. `resumeRoutine` then goes on from there (log entries 6 and 7). -/

namespace Sys2Proof.Machine

/-! GETC and IN. -/

/-- The end of GETC once `block_read` has answered (43_trap.md rule R130). -/
def State.getcFinish (s : State) (word : Word) : BlockRead → State
  | .char c => ((s.setReg .r0 (zext16 c)).inputFlags).trapReturn
  | .endOfStream => (s.raise .inputUnavailable word).trapReturn
  | .wait => s.suspend (.waitGetc word)

/-- GETC from its blocking read on (43_trap.md rule R130). -/
def State.getcRead (s : State) (word : Word) : State :=
  s.blockRead.2.getcFinish word s.blockRead.1

/-- The end of IN once `block_read` has answered: the echo comes before the register write
(43_trap.md rule R133). -/
def State.inFinish (s : State) (word : Word) : BlockRead → State
  | .char c => (((s.writeByte c).setReg .r0 (zext16 c)).inputFlags).trapReturn
  | .endOfStream => (s.raise .inputUnavailable word).trapReturn
  | .wait => s.suspend (.waitIn word)

/-- IN from its blocking read on (43_trap.md rule R133). -/
def State.inRead (s : State) (word : Word) : State :=
  s.blockRead.2.inFinish word s.blockRead.1

/-! PUTS and PUTSP: the scans of 43_trap.md rules R132 and R134, one bus read per round. -/

/-- How many cells a step of the model scans before it ends inside the routine: one round of all of
memory (log entry 7). -/
def scanRound : Nat := 65536

/-- PUTS from the cell at `a` on, at most `fuel` cells of it (43_trap.md rule R132). -/
def State.putsScan (fuel : Nat) (a : Word) (s : State) : State :=
  match fuel with
  | 0 => s.suspend (.scanPuts a)
  | fuel + 1 =>
    if (s.memRead a).1 = 0 then (s.memRead a).2.trapReturn
    else State.putsScan fuel (a + 1) ((s.memRead a).2.writeByte (lowByte (s.memRead a).1))

/-- PUTSP from the cell at `a` on, at most `fuel` cells of it: it stops at the first zero byte, low or
high (43_trap.md rule R134; 90_conflicts.md C9). -/
def State.putspScan (fuel : Nat) (a : Word) (s : State) : State :=
  match fuel with
  | 0 => s.suspend (.scanPutsp a)
  | fuel + 1 =>
    if lowByte (s.memRead a).1 = 0 then (s.memRead a).2.trapReturn
    else if highByte (s.memRead a).1 = 0 then
      ((s.memRead a).2.writeByte (lowByte (s.memRead a).1)).trapReturn
    else
      State.putspScan fuel (a + 1)
        (((s.memRead a).2.writeByte (lowByte (s.memRead a).1)).writeByte (highByte (s.memRead a).1))

/-! The routines, each on the state after the link. -/

/-- GETC (43_trap.md rule R130). -/
def State.getcRoutine (s : State) (word : Word) : State := s.getcRead word

/-- OUT (43_trap.md rule R131). -/
def State.outRoutine (s : State) : State := (s.writeByte (lowByte (s.reg .r0))).trapReturn

/-- PUTS (43_trap.md rule R132). -/
def State.putsRoutine (s : State) : State := s.putsScan scanRound (s.reg .r0)

/-- IN (43_trap.md rule R133): the prompt is written before the read. -/
def State.inRoutine (s : State) (word : Word) : State := (s.writeBytes s.params.inPrompt).inRead word

/-- PUTSP (43_trap.md rule R134). -/
def State.putspRoutine (s : State) : State := s.putspScan scanRound (s.reg .r0)

/-- HALT (43_trap.md rule R135): no output. -/
def State.haltRoutine (s : State) : State := s.halt.trapReturn

/-- The six routines. -/
inductive Routine where
  | getc | out | puts | inp | putsp | halt
deriving DecidableEq, Repr

/-- The vector table (43_trap.md rule R127). -/
def vectorRoutine (v : BitVec 8) : Option Routine :=
  if v = 0x20 then some .getc else if v = 0x21 then some .out else if v = 0x22 then some .puts
  else if v = 0x23 then some .inp else if v = 0x24 then some .putsp
  else if v = 0x25 then some .halt else none

/-- The routine's effect on the state after the link. -/
def State.runRoutine (s : State) (word : Word) : Routine → State
  | .getc => s.getcRoutine word
  | .out => s.outRoutine
  | .puts => s.putsRoutine
  | .inp => s.inRoutine word
  | .putsp => s.putspRoutine
  | .halt => s.haltRoutine

/-- TRAP as 43_trap.md rule R125 gives it, for every vector: the vector is checked first, and an
unrecognised one changes nothing but the run state (rule R128); then the link (rule R126); then the
routine. -/
def State.trap (s : State) (ign : BitVec 4) (vect : BitVec 8) : State :=
  match vectorRoutine vect with
  | none => s.raise .illegalInstruction (trapWord ign vect)
  | some r => s.trapEntry.runRoutine (trapWord ign vect) r

/-- TRAP (43_trap.md rule R125). -/
def execTrap (ign : BitVec 4) (vect : BitVec 8) (s : State) : Host.Outcome State Fault Refusal :=
  .next (s.trap ign vect)

/-- TRAP x20 (43_trap.md rules R125, R130). -/
def execGetc (ign : BitVec 4) (s : State) : Host.Outcome State Fault Refusal :=
  .next (s.trapEntry.getcRoutine (trapWord ign 0x20))

/-- TRAP x21 (43_trap.md rules R125, R131). -/
def execOut (s : State) : Host.Outcome State Fault Refusal :=
  .next s.trapEntry.outRoutine

/-- TRAP x22 (43_trap.md rules R125, R132). -/
def execPuts (s : State) : Host.Outcome State Fault Refusal :=
  .next s.trapEntry.putsRoutine

/-- TRAP x23 (43_trap.md rules R125, R133). -/
def execIn (ign : BitVec 4) (s : State) : Host.Outcome State Fault Refusal :=
  .next (s.trapEntry.inRoutine (trapWord ign 0x23))

/-- TRAP x24 (43_trap.md rules R125, R134). -/
def execPutsp (s : State) : Host.Outcome State Fault Refusal :=
  .next s.trapEntry.putspRoutine

/-- TRAP x25 (43_trap.md rules R125, R135). -/
def execHalt (s : State) : Host.Outcome State Fault Refusal :=
  .next s.trapEntry.haltRoutine

/-- A waiting routine's state, or the absence of a step where the host has still supplied neither a
character nor end-of-stream (70_reset_and_hazards.md rule R191; decision D30). -/
def unlessWaiting (s t : State) : Host.Outcome State Fault Refusal :=
  if s.blockRead.1 = .wait then .fault .awaitingInput else .next t

/-- The step of a machine whose routine is in progress; none for a machine that is to fetch. -/
def resumeRoutine (s : State) : Option (Host.Outcome State Fault Refusal) :=
  match s.pending with
  | .idle => none
  | .waitGetc word => some (unlessWaiting s (s.getcRead word))
  | .waitIn word => some (unlessWaiting s (s.inRead word))
  | .scanPuts a => some (.next (s.putsScan scanRound a))
  | .scanPutsp a => some (.next (s.putspScan scanRound a))

end Sys2Proof.Machine
end

