-- ==== Sys2Proof/Machine/Step.lean ====
section
/-! DEFINITION. One step of the execution loop (30_encoding.md rules R80 to R84), and the placing of an
instruction word where the next step fetches. -/

namespace Sys2Proof.Machine

/-- One step (30_encoding.md rule R80): where RUN is Running, fetch, decode and execute one
instruction, or go on with the routine in progress. In Halted or Failed there is no step (rule R84). -/
def step (s : State) : Host.Outcome State Fault Refusal :=
  match s.run with
  | .halted => .fault .halted
  | .failed _ _ _ => .fault .failed
  | .running =>
    match resumeRoutine s with
    | some o => o
    | none => exec (decode s.fetch.1) s.fetch.2

/-- What makes a fetch from the keyboard-status cell read the word `w`: such a fetch polls and sets bit
15 from what it finds (20_memory.md rule R54), so the next draw is bit 15 of `w`, with a character to
find where that bit is 1. -/
def State.readyPoll (s : State) (w : Word) : State :=
  { s with
    draws := w.getLsbD 15 :: s.draws
    input := if w.getLsbD 15 && s.input.isEmpty then [0] else s.input }

/-- The state with the instruction word `w` in the cell that the next step fetches, and the machine
about to fetch. Nothing else changes, but where that cell is the keyboard-status cell
(`State.readyPoll`). The word is the low `nbits` bits of `w`; the instruction has no more bits than one
cell (30_encoding.md rule R60). -/
def State.withFetchWord (s : State) (nbits w : Nat) : State :=
  let word : Word := BitVec.ofNat 16 (w % 2 ^ nbits)
  let placed : State := { s.setCell s.pc word with run := .running, pending := .idle }
  if s.pc = s.params.kbsrAddr then placed.readyPoll word else placed

end Sys2Proof.Machine
end

