-- ==== Sys2Proof/Machine/Assemble.lean ====
section
/-! DEFINITION. What the spec says of the assembler's work on words (30_encoding.md rules R72, R73): the
offset that stands for a label, the words a directive emits, and the spellings that are only another name.
No assembler is part of the core (rule R72), and `exec` and `step` use nothing of this file. The reading of
the text itself is left out (log entry 25). -/

namespace Sys2Proof.Machine

/-- The offset of a label operand for an `n`-bit field, from the instruction's own address; none where
the label is out of range (30_encoding.md rule R72). -/
def labelOffset (n : Nat) (addr label : Word) : Option Word :=
  if fitsSigned n (label - (addr + 1)) then some (label - (addr + 1)) else none

/-- The directives (30_encoding.md rule R73). -/
inductive Directive where
  /-- `.ORIG`: the image's origin word. -/
  | orig (addr : Word)
  /-- `.FILL`. -/
  | fill (v : Word)
  /-- `.BLKW`. -/
  | blkw (n : Nat)
  /-- `.STRINGZ`. -/
  | stringz (chars : List Byte)
  /-- `.END`. -/
  | fin
deriving DecidableEq, Repr

/-- The words a directive emits into the image (30_encoding.md rule R73). -/
def Directive.words : Directive → List Word
  | .orig addr => [addr]
  | .fill v => [v]
  | .blkw n => List.replicate n 0
  | .stringz chars => chars.map (fun c => zext16 c) ++ [0]
  | .fin => []

/-- `TRAP v` as the assembler writes it, with bits [11:8] zero; the six aliases are the six recognised
vectors (30_encoding.md rule R73). -/
def asmTrap (v : BitVec 8) : Instr := decodeTrap 0 v

/-- `JMP base` as the assembler writes it; `RET` is `JMP R7` (30_encoding.md rule R73). -/
def asmJmp (base : Reg) : Instr := decodeJmp base

/-- `BR` with no condition letters is `BRnzp` (30_encoding.md rule R73). -/
def asmBr (off : Word) : Instr := .br true true true off

end Sys2Proof.Machine
end

