-- ==== Sys2Proof/Machine/HostMoves.lean ====
section
/-! DEFINITION. What the host may do between two steps (70_reset_and_hazards.md rules R190, R191,
R193): supply the next character, signal end-of-stream, fix a coming draw. It never touches the core's
registers or memory (20_memory.md rule R49). These moves are no part of `step`. -/

namespace Sys2Proof.Machine

/-- The host supplies the next character of the stream; after end-of-stream it supplies none. -/
def State.supplyChar (s : State) (c : Byte) : State :=
  if s.inputEnded then s else { s with input := s.input ++ [c] }

/-- The host signals end-of-stream after the characters it has supplied. -/
def State.signalEnd (s : State) : State := { s with inputEnded := true }

/-- The host fixes one more draw of the polls to come. -/
def State.fixDraw (s : State) (found : Bool) : State := { s with draws := s.draws ++ [found] }

end Sys2Proof.Machine
end

