-- ==== Sys2Proof/Machine/Loader.lean ====
section
/-! DEFINITION. The image loader, as the function that fills memory before reset
(70_reset_and_hazards.md rules R180 to R183), and the exit codes at the command line (rule R194). Both
belong to external collaborators of the core (00_scope.md rule R5); the spec gives their effect, so it
stands here. `exec` and `step` use nothing of this file. -/

namespace Sys2Proof.Machine

open Sys2Proof.Config

/-- The big-endian words of an image (70_reset_and_hazards.md rule R181); none for an odd length. -/
def imageWords : List Byte → Option (List Word)
  | [] => some []
  | [_] => none
  | hi :: lo :: rest => (imageWords rest).map (fun ws => (hi ++ lo : Word) :: ws)

/-- Words stored in consecutive cells from `a` on, wrapping modulo 65536, with no bus side effect
(70_reset_and_hazards.md rule R181). -/
def storeWords (a : Word) (ws : List Word) (m : Memory) : Memory :=
  match ws with
  | [] => m
  | w :: rest => storeWords (a + 1) rest (Memory.write m a.toNat w)

/-- One image loaded over a memory (70_reset_and_hazards.md rule R181): the first word is the origin.
None is LoadFailure: the image is empty or truncated (decision D27). -/
def loadImage (bytes : List Byte) (m : Memory) : Option Memory :=
  match imageWords bytes with
  | some (origin :: ws) => some (storeWords origin ws m)
  | _ => none

/-- An image file as the loader meets it (70_reset_and_hazards.md rule R181). -/
inductive ImageFile where
  /-- The file cannot be read, so it gives no byte stream. -/
  | unreadable
  /-- The file's bytes. -/
  | readable (bytes : List Byte)
deriving DecidableEq, Repr

/-- One image file loaded over a memory (70_reset_and_hazards.md rule R181; 60_exceptions.md rule R160).
None is LoadFailure: the file is unreadable, or its bytes are empty or truncated. -/
def loadFile (file : ImageFile) (m : Memory) : Option Memory :=
  match file with
  | .unreadable => none
  | .readable bytes => loadImage bytes m

/-- The image files loaded in command-line order (70_reset_and_hazards.md rule R183): a later one wins
where two overlap, and any failure fails the whole. -/
def loadImages (files : List ImageFile) (m : Memory) : Option Memory :=
  match files with
  | [] => some m
  | file :: rest => (loadFile file m).bind (loadImages rest)

/-- What starting the machine with a command line's images comes to. -/
inductive Boot where
  /-- No image was named: a usage error (70_reset_and_hazards.md rules R183, R194). -/
  | usageError
  /-- An image failed to load: no core state is created (60_exceptions.md rule R163). -/
  | loadFailure
  /-- The machine before its first fetch. -/
  | started (s : State)
deriving DecidableEq, Repr

/-- The images loaded over `INIT_FILL`, then the register file reset (70_reset_and_hazards.md rule
R180). -/
def boot (p : Params) (r : ResetParams) (files : List ImageFile) : Boot :=
  match files with
  | [] => .usageError
  | _ =>
    match loadImages files r.initFill with
    | none => .loadFailure
    | some m => .started (State.resetWith p { r with initFill := m })

/-- The exit code of a run that has ended (70_reset_and_hazards.md rule R194). The code of a failed run
is the open parameter `FAIL_EXIT_CODE`, which is not 0 (decision D28), so 0 is a clean halt's alone. A run
that has not ended has none. -/
def runExitCode (failExitCode : FailExitCode) : RunState → Option Int
  | .running => none
  | .halted => some 0
  | .failed _ _ _ => some failExitCode.val

/-- The exit code of a start that created no core state (70_reset_and_hazards.md rule R194). -/
def bootExitCode : Boot → Option Int
  | .usageError => some 2
  | .loadFailure => some 1
  | .started _ => none

end Sys2Proof.Machine
end

