-- ==== Sys2Proof/Safety.lean ====
section
/-! DEFINITION. The terms the statements are made in: the invariant of the machine, what an instruction
leaves as it was, which registers and flags the spec lets an instruction write, and the scans of PUTS
and PUTSP as relations. Nothing here is used by `step`. -/

namespace Sys2Proof.Machine

/-! The invariant. -/

/-- What every step keeps: memory has its canonical form, the two keyboard cells differ
(20_memory.md rule R42), and a routine is in progress only while the machine runs
(30_encoding.md rule R85). -/
def Inv (s : State) : Prop :=
  Memory.wf s.mem = true ∧ s.params.kbsrAddr ≠ s.params.kbdrAddr ∧
    (s.pending ≠ .idle → s.run = .running)

/-- The machine is about to fetch: RUN is Running and no routine is in progress. -/
def ReadyToFetch (s : State) : Prop := s.run = .running ∧ s.pending = .idle

/-! What stays as it was, from `s` to `t`. -/

/-- Every general register. -/
def RegsKept (s t : State) : Prop := ∀ q, t.reg q = s.reg q

/-- Every general register but `r`. -/
def RegsKeptBut (r : Reg) (s t : State) : Prop := ∀ q, q ≠ r → t.reg q = s.reg q

/-- Every cell of memory. -/
def CellsKept (s t : State) : Prop := ∀ a, t.cell a = s.cell a

/-- Every cell of memory but the one at `a`. -/
def CellsKeptBut (a : Word) (s t : State) : Prop := ∀ b, b ≠ a → t.cell b = s.cell b

/-- The keyboard's side of the host: the stream and the draws. -/
def KeyboardKept (s t : State) : Prop :=
  t.input = s.input ∧ t.inputEnded = s.inputEnded ∧ t.draws = s.draws ∧ t.polls = s.polls

/-- The run state, the routine in progress and the parameters. -/
def RunKept (s t : State) : Prop :=
  t.run = s.run ∧ t.pending = s.pending ∧ t.params = s.params

/-- Everything but the registers, the condition flag and the PC. -/
def RestKept (s t : State) : Prop :=
  CellsKept s t ∧ KeyboardKept s t ∧ t.output = s.output ∧ RunKept s t

/-- Everything but the registers, the flag and the PC, for an instruction that may read memory: the
cells and the keyboard are as the state `m` after its bus reads has them, the rest as in `s`. -/
def RestKeptAfterRead (s m t : State) : Prop :=
  CellsKept m t ∧ KeyboardKept m t ∧ t.output = s.output ∧ RunKept s t

/-- The flag of `t` is the sign of the value `v` read as signed 16-bit (10_state.md rule R25). -/
def FlagShows (v : Word) (t : State) : Prop :=
  (t.cond = .z ↔ v = 0) ∧ (t.cond = .n ↔ v.toInt < 0) ∧ (t.cond = .p ↔ 0 < v.toInt)

/-- R7 after a TRAP with a recognised vector (43_trap.md rule R126). -/
def linkedR7 (s : State) : Word := if s.params.trapLinksR7 then s.pc else s.reg .r7

/-- What a load of `x[dr]` from the cell at `ea` does (42_load_store.md rules R110, R112): the value the
bus read gives, the flag from it, and nothing else but the read's own effect, which only a read of the
keyboard-status cell has (20_memory.md rules R43, R44). -/
def LoadEffect (s : State) (dr : Reg) (ea : Word) (t : State) : Prop :=
  t.reg dr = (s.memRead ea).1 ∧ FlagShows (s.memRead ea).1 t ∧ RegsKeptBut dr s t ∧ t.pc = s.pc ∧
    RestKeptAfterRead s (s.memRead ea).2 t ∧
    (ea ≠ s.params.kbsrAddr → t.reg dr = s.cell ea ∧ CellsKept s t ∧ KeyboardKept s t)

/-- What a store of `v` to the cell at `ea` does (42_load_store.md rules R114, R116; 20_memory.md rule
R45): that cell and nothing else. A memory in canonical form then reads `v` there. -/
def StoreEffect (s : State) (ea v : Word) (t : State) : Prop :=
  (Memory.wf s.mem = true → t.cell ea = v) ∧ CellsKeptBut ea s t ∧ RegsKept s t ∧ t.cond = s.cond ∧
    t.pc = s.pc ∧ KeyboardKept s t ∧ t.output = s.output ∧ RunKept s t

/-! Which instructions write what (10_state.md rules R20, R21, R23, R26). -/

/-- The general registers an instruction may write, under the machine's parameters
(10_state.md rules R20, R21; 43_trap.md rule R126). -/
def writesReg (links : Bool) : Instr → Reg → Bool
  | .addReg dr _ _, q => q == dr
  | .addImm dr _ _, q => q == dr
  | .andReg dr _ _, q => q == dr
  | .andImm dr _ _, q => q == dr
  | .not dr _, q => q == dr
  | .ld dr _, q => q == dr
  | .ldi dr _, q => q == dr
  | .ldr dr _ _, q => q == dr
  | .lea dr _, q => q == dr
  | .jsr _, q => q == .r7
  | .jsrr _, q => q == .r7
  | .trap _ v, q =>
      (links && isNamedVector v && q == .r7) || ((v == 0x20 || v == 0x23) && q == .r0)
  | .getc _, q => (links && q == .r7) || q == .r0
  | .inp _, q => (links && q == .r7) || q == .r0
  | .out, q => links && q == .r7
  | .puts, q => links && q == .r7
  | .putsp, q => links && q == .r7
  | .halt, q => links && q == .r7
  | .br _ _ _ _, _ => false
  | .st _ _, _ => false
  | .sti _ _, _ => false
  | .str _ _ _, _ => false
  | .jmp _, _ => false
  | .ret, _ => false
  | .rti _, _ => false
  | .res _, _ => false

/-- The instructions that may write the PC after the fetch (10_state.md rule R23). -/
def mayWritePc : Instr → Bool
  | .br _ _ _ _ | .jmp _ | .ret | .jsr _ | .jsrr _ => true
  | .addReg _ _ _ | .addImm _ _ _ | .andReg _ _ _ | .andImm _ _ _ | .not _ _ | .ld _ _ | .ldi _ _
  | .ldr _ _ _ | .lea _ _ | .st _ _ | .sti _ _ | .str _ _ _ | .trap _ _ | .getc _ | .inp _ | .out
  | .puts | .putsp | .halt | .rti _ | .res _ => false

/-- The destination of a flag-setting instruction (10_state.md rule R26; 00_scope.md rule R15). -/
def flagSettingDest : Instr → Option Reg
  | .addReg dr _ _ | .addImm dr _ _ | .andReg dr _ _ | .andImm dr _ _ | .not dr _ | .ld dr _
  | .ldi dr _ | .ldr dr _ _ | .lea dr _ => some dr
  | .br _ _ _ _ | .jmp _ | .ret | .jsr _ | .jsrr _ | .st _ _ | .sti _ _ | .str _ _ _ | .trap _ _
  | .getc _ | .inp _ | .out | .puts | .putsp | .halt | .rti _ | .res _ => none

/-- The instruction reads a character with `block_read` (43_trap.md rules R130, R133). -/
def readsCharacter : Instr → Bool
  | .getc _ | .inp _ => true
  | .trap _ v => v == 0x20 || v == 0x23
  | .br _ _ _ _ | .jmp _ | .ret | .jsr _ | .jsrr _ | .st _ _ | .sti _ _ | .str _ _ _
  | .addReg _ _ _ | .addImm _ _ _ | .andReg _ _ _ | .andImm _ _ _ | .not _ _ | .ld _ _ | .ldi _ _
  | .ldr _ _ _ | .lea _ _ | .out | .puts | .putsp | .halt | .rti _ | .res _ => false

/-- The cell an instruction stores to, on the state after its fetch (20_memory.md rule R46). -/
def storeAddress (s : State) : Instr → Option Word
  | .st _ off => some (s.pcRel off)
  | .sti _ off => some (s.indirect off).1
  | .str _ base off => some (s.baseOff base off)
  | .br _ _ _ _ | .jmp _ | .ret | .jsr _ | .jsrr _ | .addReg _ _ _ | .addImm _ _ _ | .andReg _ _ _
  | .andImm _ _ _ | .not _ _ | .ld _ _ | .ldi _ _ | .ldr _ _ _ | .lea _ _ | .trap _ _ | .getc _
  | .inp _ | .out | .puts | .putsp | .halt | .rti _ | .res _ => none

/-- The words that raise IllegalInstruction (60_exceptions.md rule R161): opcodes 1000 and 1101, and
opcode 1111 with a vector outside 0x20..0x25. -/
def illegalWord (w : Word) : Prop :=
  w.extractLsb' 12 4 = 0x8#4 ∨ w.extractLsb' 12 4 = 0xD#4 ∨
    (w.extractLsb' 12 4 = 0xF#4 ∧
      ¬ (0x20 ≤ (w.extractLsb' 0 8).toNat ∧ (w.extractLsb' 0 8).toNat ≤ 0x25))

/-! The scans as the spec writes them, with no bound on their length. -/

/-- `PUTS` from the cell at `a` in state `s` ends in state `t` after `n` reads
(43_trap.md rule R132). -/
inductive PutsRun : Nat → Word → State → State → Prop where
  /-- The cell read is 0x0000. -/
  | stop (a : Word) (s : State) (hz : (s.memRead a).1 = 0) : PutsRun 1 a s (s.memRead a).2
  /-- The cell read is not 0x0000: its low byte is written and the scan goes on at the next address. -/
  | more (n : Nat) (a : Word) (s t : State) (hz : (s.memRead a).1 ≠ 0)
      (rest : PutsRun n (a + 1) ((s.memRead a).2.writeByte ((s.memRead a).1.extractLsb' 0 8)) t) :
      PutsRun (n + 1) a s t

/-- `PUTSP` from the cell at `a` in state `s` ends in state `t` after `n` reads
(43_trap.md rule R134). -/
inductive PutspRun : Nat → Word → State → State → Prop where
  /-- The low byte is zero: nothing is written. -/
  | stopLow (a : Word) (s : State) (hl : (s.memRead a).1.extractLsb' 0 8 = 0) :
      PutspRun 1 a s (s.memRead a).2
  /-- The low byte is written and the high byte is zero. -/
  | stopHigh (a : Word) (s : State) (hl : (s.memRead a).1.extractLsb' 0 8 ≠ 0)
      (hh : (s.memRead a).1.extractLsb' 8 8 = 0) :
      PutspRun 1 a s ((s.memRead a).2.writeByte ((s.memRead a).1.extractLsb' 0 8))
  /-- Both bytes are written, the low one first, and the scan goes on. -/
  | more (n : Nat) (a : Word) (s t : State) (hl : (s.memRead a).1.extractLsb' 0 8 ≠ 0)
      (hh : (s.memRead a).1.extractLsb' 8 8 ≠ 0)
      (rest : PutspRun n (a + 1)
        (((s.memRead a).2.writeByte ((s.memRead a).1.extractLsb' 0 8)).writeByte
          ((s.memRead a).1.extractLsb' 8 8)) t) :
      PutspRun (n + 1) a s t

end Sys2Proof.Machine
end

