-- ==== Sys2Proof/Certificates/Slice0/Obligations.lean ====
section
/-! DEFINITION. The statements for the provers. Each says which rule of spec/ it formalises; where a
clause rests on a decision of the spec or of the model, the docstring names it. -/

section

open Sys2Proof Sys2Proof.Machine Sys2Proof.Config

/-- sext16 copies the field's sign bit upwards, and zext16 clears the bits above (R10). -/
def Obligations.SignAndZeroExtensionOfFields : Prop :=
  (∀ n, n = 5 ∨ n = 6 ∨ n = 9 ∨ n = 11 → ∀ f : BitVec n,
    (∀ i, i < 16 → (sext16 f).getLsbD i = if i < n then f.getLsbD i else f.getLsbD (n - 1)) ∧
    (sext16 f).toNat = if f.getLsbD (n - 1) then f.toNat + 2 ^ 16 - 2 ^ n else f.toNat) ∧
  (∀ n, n ≤ 16 → ∀ c : BitVec n, ∀ i, i < 16 →
    (zext16 c).getLsbD i = if i < n then c.getLsbD i else false)

/-- setcc sets exactly the flag of the value's sign, and changes nothing else (R25). -/
def Obligations.FlagFollowsTheSign : Prop :=
  ∀ (s : State) (v : Word), FlagShows v (s.setcc v) ∧ s.setcc v = { s with cond := (s.setcc v).cond }

/-- MemRead of the keyboard-status cell polls and returns the cell after the poll; of any other cell it changes nothing (R43). -/
def Obligations.BusReadPollsOnlyAtKeyboardStatus : Prop :=
  ∀ (s : State) (a : Word),
    (a = s.params.kbsrAddr → (s.memRead a).2 = s.keyboardPoll ∧ (s.memRead a).1 = s.keyboardPoll.cell a) ∧
    (a ≠ s.params.kbsrAddr → (s.memRead a).2 = s ∧ (s.memRead a).1 = s.cell a)

/-- A keyboard poll that finds a character sets KBSR bit 15 only, puts the character in KBDR and consumes it (20_memory.md R44 (D12, D19, D20), 70_reset_and_hazards.md R190 (D20)). The bits that a poll leaves alone and the consumption of the character are the spec's own decisions D19 and D20 (92_eei_decisions.md); the draw is the free value of log entry 5. -/
def Obligations.KeyboardPollFindsCharacter : Prop :=
  ∀ (s : State) (c : Byte) (rest : List Byte), Memory.wf s.mem = true →
    s.params.kbsrAddr ≠ s.params.kbdrAddr → s.input = c :: rest → s.nextDraw = true →
    (∀ i, i < 16 → (s.keyboardPoll.cell s.params.kbsrAddr).getLsbD i =
      if i = 15 then true else (s.cell s.params.kbsrAddr).getLsbD i) ∧
    (s.keyboardPoll.cell s.params.kbdrAddr).toNat = c.toNat ∧
    (∀ a, a ≠ s.params.kbsrAddr → a ≠ s.params.kbdrAddr → s.keyboardPoll.cell a = s.cell a) ∧
    s.keyboardPoll.input = rest ∧ s.keyboardPoll.inputEnded = s.inputEnded ∧
    s.keyboardPoll.draws = s.draws.tail ∧ s.keyboardPoll.polls = s.polls + 1 ∧
    RegsKept s s.keyboardPoll ∧ s.keyboardPoll.cond = s.cond ∧ s.keyboardPoll.pc = s.pc ∧
    s.keyboardPoll.output = s.output ∧ RunKept s s.keyboardPoll

/-- A keyboard poll that finds no character clears KBSR bit 15 only, and consumes nothing (20_memory.md R44 (D19), 70_reset_and_hazards.md R190 (D20)). The bits that a poll leaves alone and the draw are the spec's own decisions D19 and D20 (92_eei_decisions.md). -/
def Obligations.KeyboardPollFindsNothing : Prop :=
  ∀ s : State, Memory.wf s.mem = true → (s.input = [] ∨ s.nextDraw = false) →
    (∀ i, i < 16 → (s.keyboardPoll.cell s.params.kbsrAddr).getLsbD i =
      if i = 15 then false else (s.cell s.params.kbsrAddr).getLsbD i) ∧
    CellsKeptBut s.params.kbsrAddr s s.keyboardPoll ∧
    s.keyboardPoll.input = s.input ∧ s.keyboardPoll.inputEnded = s.inputEnded ∧
    s.keyboardPoll.draws = s.draws.tail ∧ s.keyboardPoll.polls = s.polls + 1 ∧
    RegsKept s s.keyboardPoll ∧ s.keyboardPoll.cond = s.cond ∧ s.keyboardPoll.pc = s.pc ∧
    s.keyboardPoll.output = s.output ∧ RunKept s s.keyboardPoll

/-- MemWrite stores the cell and does nothing else, at the keyboard cells too; the next read of KBSR polls over its bit 15 (20_memory.md R43, R44, R45). R45's last clause, on the next read of KBSR, is the spec's own inference from R43 and R44 (its mark: derived). -/
def Obligations.BusWriteHasNoSideEffect : Prop :=
  ∀ (s : State) (a v : Word), Memory.wf s.mem = true →
    ((s.memWrite a v).cell a = v ∧ CellsKeptBut a s (s.memWrite a v) ∧ RegsKept s (s.memWrite a v) ∧
      (s.memWrite a v).cond = s.cond ∧ (s.memWrite a v).pc = s.pc ∧ KeyboardKept s (s.memWrite a v) ∧
      (s.memWrite a v).output = s.output ∧ RunKept s (s.memWrite a v)) ∧
    (s.params.kbsrAddr ≠ s.params.kbdrAddr →
      ((s.memWrite s.params.kbsrAddr v).memRead s.params.kbsrAddr).1.getLsbD 15 =
        (s.memWrite s.params.kbsrAddr v).poll.1.isSome)

/-- Decoding the word of a well-formed instruction gives the instruction back, for every operand (30_encoding.md R62, R63, R65, R71 (D1, D2), 43_trap.md R127 (D4)). The numbers are the spec's decisions D1, D2 and D4 (log entry 2); the constructors are the model's choice (log entry 3). -/
def Obligations.DecodeOfEncodeIsTheInstruction : Prop :=
  ∀ i : Instr, i.wellFormed = true → decode (encode i) = i

/-- Every word decodes to a well-formed instruction whose word agrees with it on every used bit (30_encoding.md R68, R69, R70, R71 (D1, D2, D21)). The field positions and the ignored bits are the spec's decisions D2 and D21 (log entry 2). -/
def Obligations.EveryWordDecodesAndReencodes : Prop :=
  ∀ w : Word, (decode w).wellFormed = true ∧ encode (decode w) &&& usedBits w = w &&& usedBits w

/-- Two words that agree on the used bits decode to the same instruction (30_encoding.md R68 (D21)). That ignored bits are not checked is the spec's decision D21. -/
def Obligations.IgnoredBitsDoNotChangeTheInstruction : Prop :=
  ∀ w w' : Word, w &&& usedBits w = w' &&& usedBits w → decode w = decode w'

/-- The ignored bits of RES, RTI, TRAP, GETC and IN show only in the reported word (30_encoding.md R68 (D21), 60_exceptions.md R161, R162, R164 (D22)). That ignored bits are not checked is the spec's decision D21, and the report's form D22. -/
def Obligations.IgnoredBitsShowOnlyInTheReport : Prop :=
  ∀ (s : State) (a b : BitVec 12) (c d : BitVec 4) (v : BitVec 8),
    ∀ p ∈ [(Instr.res a, Instr.res b), (Instr.rti a, Instr.rti b), (Instr.trap c v, Instr.trap d v),
      (Instr.getc c, Instr.getc d), (Instr.inp c, Instr.inp d)],
    ∃ t u, exec p.1 s = .next t ∧ exec p.2 s = .next u ∧
      u = { t with run := u.run, pending := u.pending } ∧
      (t.run = u.run ∨ ∃ k x y z, t.run = .failed k x z ∧ u.run = .failed k y z) ∧
      (t.pending = u.pending ∨
        (∃ x y, t.pending = .waitGetc x ∧ u.pending = .waitGetc y) ∨
        (∃ x y, t.pending = .waitIn x ∧ u.pending = .waitIn y))

/-- Words that the spec spells out decode to the instructions it gives for them (95_test_vectors.md L2.1 to L2.5, L2.7 (D1, D2, D4), 41_control.md R100 (D3), 43_trap.md R125). -/
def Obligations.SomeWordsDecodeAsTheSpecSpells : Prop :=
  decode 0x1283 = .addReg .r1 .r2 .r3 ∧ decode 0x127F = .addImm .r1 .r1 0xFFFF ∧
    decode 0x54C4 = .andReg .r2 .r3 .r4 ∧ decode 0x92BF = .not .r1 .r2 ∧
    decode 0x0402 = .br false true false 2 ∧ decode 0x4810 = .jsr 16 ∧ decode 0x41C0 = .jsrr .r7 ∧
    decode 0xC1C0 = .ret ∧ decode 0x25FF = .ld .r2 0xFFFF ∧ decode 0x633F = .ldr .r1 .r4 0xFFFF ∧
    decode 0xB400 = .sti .r2 0 ∧ decode 0xE100 = .lea .r0 0xFF00 ∧ decode 0xFF25 = .halt ∧
    decode 0xF026 = .trap 0 0x26 ∧ decode 0xD000 = .res 0

/-- ADD, register mode: every such word decodes to it, and it completes with the sum modulo 2^16 and the flag (R90). The encoding clause's opcode number and field positions are the spec's decisions D1 and D2, as the rule itself gives them. -/
def Obligations.AddRegisterAddsTheTwoRegisters : Prop :=
  (∀ w : Word, w.extractLsb' 12 4 = 0x1#4 → w.getLsbD 5 = false →
    decode w = .addReg (Reg.ofBits (w.extractLsb' 9 3)) (Reg.ofBits (w.extractLsb' 6 3))
      (Reg.ofBits (w.extractLsb' 0 3))) ∧
  (∀ (dr sr1 sr2 : Reg) (s : State), ∃ t, exec (.addReg dr sr1 sr2) s = .next t ∧
    (t.reg dr).toNat = ((s.reg sr1).toNat + (s.reg sr2).toNat) % 65536 ∧
    FlagShows (t.reg dr) t ∧ RegsKeptBut dr s t ∧ t.pc = s.pc ∧ RestKept s t)

/-- ADD, immediate mode: every such word decodes to it, and it completes with the sum modulo 2^16 and the flag (R91). The encoding clause's opcode number and field positions are the spec's decisions D1 and D2, as the rule itself gives them. -/
def Obligations.AddImmediateAddsTheExtendedField : Prop :=
  (∀ w : Word, w.extractLsb' 12 4 = 0x1#4 → w.getLsbD 5 = true →
    decode w = .addImm (Reg.ofBits (w.extractLsb' 9 3)) (Reg.ofBits (w.extractLsb' 6 3))
      ((w.extractLsb' 0 5).signExtend 16)) ∧
  (∀ (dr sr1 : Reg) (imm : Word) (s : State), ∃ t, exec (.addImm dr sr1 imm) s = .next t ∧
    (t.reg dr).toNat = ((s.reg sr1).toNat + imm.toNat) % 65536 ∧
    FlagShows (t.reg dr) t ∧ RegsKeptBut dr s t ∧ t.pc = s.pc ∧ RestKept s t)

/-- AND, register mode: every such word decodes to it, and it completes with the bitwise AND and the flag (R92). The encoding clause's opcode number and field positions are the spec's decisions D1 and D2, as the rule itself gives them. -/
def Obligations.AndRegisterMeetsTheTwoRegisters : Prop :=
  (∀ w : Word, w.extractLsb' 12 4 = 0x5#4 → w.getLsbD 5 = false →
    decode w = .andReg (Reg.ofBits (w.extractLsb' 9 3)) (Reg.ofBits (w.extractLsb' 6 3))
      (Reg.ofBits (w.extractLsb' 0 3))) ∧
  (∀ (dr sr1 sr2 : Reg) (s : State), ∃ t, exec (.andReg dr sr1 sr2) s = .next t ∧
    (∀ i, (t.reg dr).getLsbD i = ((s.reg sr1).getLsbD i && (s.reg sr2).getLsbD i)) ∧
    FlagShows (t.reg dr) t ∧ RegsKeptBut dr s t ∧ t.pc = s.pc ∧ RestKept s t)

/-- AND, immediate mode: every such word decodes to it, and it completes with the bitwise AND and the flag (R93). The encoding clause's opcode number and field positions are the spec's decisions D1 and D2, as the rule itself gives them. -/
def Obligations.AndImmediateMeetsTheExtendedField : Prop :=
  (∀ w : Word, w.extractLsb' 12 4 = 0x5#4 → w.getLsbD 5 = true →
    decode w = .andImm (Reg.ofBits (w.extractLsb' 9 3)) (Reg.ofBits (w.extractLsb' 6 3))
      ((w.extractLsb' 0 5).signExtend 16)) ∧
  (∀ (dr sr1 : Reg) (imm : Word) (s : State), ∃ t, exec (.andImm dr sr1 imm) s = .next t ∧
    (∀ i, (t.reg dr).getLsbD i = ((s.reg sr1).getLsbD i && imm.getLsbD i)) ∧
    FlagShows (t.reg dr) t ∧ RegsKeptBut dr s t ∧ t.pc = s.pc ∧ RestKept s t)

/-- NOT: every such word decodes to it, and it completes with the 16-bit complement and the flag (R94). The encoding clause's opcode number and field positions are the spec's decisions D1 and D2, as the rule itself gives them. -/
def Obligations.NotComplementsTheSource : Prop :=
  (∀ w : Word, w.extractLsb' 12 4 = 0x9#4 →
    decode w = .not (Reg.ofBits (w.extractLsb' 9 3)) (Reg.ofBits (w.extractLsb' 6 3))) ∧
  (∀ (dr sr : Reg) (s : State), ∃ t, exec (.not dr sr) s = .next t ∧
    (t.reg dr).toNat = 65535 - (s.reg sr).toNat ∧
    FlagShows (t.reg dr) t ∧ RegsKeptBut dr s t ∧ t.pc = s.pc ∧ RestKept s t)

/-- BR: every such word decodes to it, and it completes at PC + offset when its bits meet the flag, else at the PC (41_control.md R100 (D3), 30_encoding.md R66, R69 (D3)). The condition bits' positions are the spec's decision D3. -/
def Obligations.BranchGoesWhereTheFlagSelects : Prop :=
  (∀ w : Word, w.extractLsb' 12 4 = 0x0#4 → decode w =
    .br (w.getLsbD 11) (w.getLsbD 10) (w.getLsbD 9) ((w.extractLsb' 0 9).signExtend 16)) ∧
  (∀ (n z p : Bool) (off : Word) (s : State), ∃ t, exec (.br n z p off) s = .next t ∧
    t.pc.toNat =
      (if (n = true ∧ s.cond = .n) ∨ (z = true ∧ s.cond = .z) ∨ (p = true ∧ s.cond = .p)
       then (s.pc.toNat + off.toNat) % 65536 else s.pc.toNat) ∧
    RegsKept s t ∧ t.cond = s.cond ∧ RestKept s t) ∧
  (∀ (off : Word) (s : State), exec (.br false false false off) s = .next s)

/-- JMP and RET: every word of opcode 1100 is one of them, and they complete with PC = x[BaseR] (R101). The encoding clause's opcode number and field positions are the spec's decisions D1 and D2, as the rule itself gives them. -/
def Obligations.JumpTakesTheBaseRegister : Prop :=
  (∀ w : Word, w.extractLsb' 12 4 = 0xC#4 → decode w =
    if w.extractLsb' 6 3 = 7#3 then .ret else .jmp (Reg.ofBits (w.extractLsb' 6 3))) ∧
  (∀ (base : Reg) (s : State), ∃ t, exec (.jmp base) s = .next t ∧
    t.pc = s.reg base ∧ RegsKept s t ∧ t.cond = s.cond ∧ RestKept s t) ∧
  (∀ s : State, ∃ t, exec .ret s = .next t ∧
    t.pc = s.reg .r7 ∧ RegsKept s t ∧ t.cond = s.cond ∧ RestKept s t)

/-- JSR: every such word decodes to it, and it completes with R7 = PC and PC = PC + offset (R102). The encoding clause's opcode number and field positions are the spec's decisions D1 and D2, as the rule itself gives them. -/
def Obligations.CallLinksAndJumpsRelative : Prop :=
  (∀ w : Word, w.extractLsb' 11 5 = 0x09#5 → decode w = .jsr ((w.extractLsb' 0 11).signExtend 16)) ∧
  (∀ (off : Word) (s : State), ∃ t, exec (.jsr off) s = .next t ∧
    t.reg .r7 = s.pc ∧ t.pc.toNat = (s.pc.toNat + off.toNat) % 65536 ∧ RegsKeptBut .r7 s t ∧
    t.cond = s.cond ∧ RestKept s t)

/-- JSRR: every such word decodes to it, and it completes with R7 = PC and PC = x[BaseR] read after the link (41_control.md R103 (D29), 90_conflicts.md C5). The order of the two writes is the spec's decision D29 (90_conflicts.md C5). -/
def Obligations.CallThroughRegisterReadsAfterLink : Prop :=
  (∀ w : Word, w.extractLsb' 11 5 = 0x08#5 → decode w = .jsrr (Reg.ofBits (w.extractLsb' 6 3))) ∧
  (∀ (base : Reg) (s : State), ∃ t, exec (.jsrr base) s = .next t ∧
    t.reg .r7 = s.pc ∧ t.pc = (if base = .r7 then s.pc else s.reg base) ∧ RegsKeptBut .r7 s t ∧
    t.cond = s.cond ∧ RestKept s t)

/-- LD: every such word decodes to it, and it completes with the cell at PC + offset and the flag (R110). The encoding clause's opcode number and field positions are the spec's decisions D1 and D2, as the rule itself gives them. -/
def Obligations.LoadReadsThePcRelativeCell : Prop :=
  (∀ w : Word, w.extractLsb' 12 4 = 0x2#4 →
    decode w = .ld (Reg.ofBits (w.extractLsb' 9 3)) ((w.extractLsb' 0 9).signExtend 16)) ∧
  (∀ (dr : Reg) (off : Word) (s : State), ∃ t, exec (.ld dr off) s = .next t ∧
    LoadEffect s dr (s.pc + off) t)

/-- LDI: every such word decodes to it, and it completes with the cell that the PC-relative cell points to (R111). The encoding clause's opcode number and field positions are the spec's decisions D1 and D2, as the rule itself gives them. -/
def Obligations.LoadIndirectReadsTwice : Prop :=
  (∀ w : Word, w.extractLsb' 12 4 = 0xA#4 →
    decode w = .ldi (Reg.ofBits (w.extractLsb' 9 3)) ((w.extractLsb' 0 9).signExtend 16)) ∧
  (∀ (dr : Reg) (off : Word) (s : State), ∃ t, exec (.ldi dr off) s = .next t ∧
    t.reg dr = ((s.memRead (s.pc + off)).2.memRead (s.memRead (s.pc + off)).1).1 ∧
    FlagShows (t.reg dr) t ∧ RegsKeptBut dr s t ∧ t.pc = s.pc ∧
    RestKeptAfterRead s ((s.memRead (s.pc + off)).2.memRead (s.memRead (s.pc + off)).1).2 t ∧
    (s.pc + off ≠ s.params.kbsrAddr → s.cell (s.pc + off) ≠ s.params.kbsrAddr →
      t.reg dr = s.cell (s.cell (s.pc + off)) ∧ CellsKept s t ∧ KeyboardKept s t))

/-- LDR: every such word decodes to it, and it completes with the cell at old x[BaseR] + offset and the flag (R112). The encoding clause's opcode number and field positions are the spec's decisions D1 and D2, as the rule itself gives them. -/
def Obligations.LoadBaseReadsBasePlusOffset : Prop :=
  (∀ w : Word, w.extractLsb' 12 4 = 0x6#4 → decode w =
    .ldr (Reg.ofBits (w.extractLsb' 9 3)) (Reg.ofBits (w.extractLsb' 6 3)) ((w.extractLsb' 0 6).signExtend 16)) ∧
  (∀ (dr base : Reg) (off : Word) (s : State), ∃ t, exec (.ldr dr base off) s = .next t ∧
    LoadEffect s dr (s.reg base + off) t)

/-- LEA: every such word decodes to it, and it completes with the address PC + offset and the flag, with no memory access (R113). The encoding clause's opcode number and field positions are the spec's decisions D1 and D2, as the rule itself gives them. -/
def Obligations.LoadAddressReadsNoMemory : Prop :=
  (∀ w : Word, w.extractLsb' 12 4 = 0xE#4 →
    decode w = .lea (Reg.ofBits (w.extractLsb' 9 3)) ((w.extractLsb' 0 9).signExtend 16)) ∧
  (∀ (dr : Reg) (off : Word) (s : State), ∃ t, exec (.lea dr off) s = .next t ∧
    (t.reg dr).toNat = (s.pc.toNat + off.toNat) % 65536 ∧
    FlagShows (t.reg dr) t ∧ RegsKeptBut dr s t ∧ t.pc = s.pc ∧ RestKept s t)

/-- ST: every such word decodes to it, and it completes with x[SR] in the cell at PC + offset (R114). The encoding clause's opcode number and field positions are the spec's decisions D1 and D2, as the rule itself gives them. -/
def Obligations.StoreWritesThePcRelativeCell : Prop :=
  (∀ w : Word, w.extractLsb' 12 4 = 0x3#4 →
    decode w = .st (Reg.ofBits (w.extractLsb' 9 3)) ((w.extractLsb' 0 9).signExtend 16)) ∧
  (∀ (sr : Reg) (off : Word) (s : State), ∃ t, exec (.st sr off) s = .next t ∧
    StoreEffect s (s.pc + off) (s.reg sr) t)

/-- STI: every such word decodes to it, and it completes with x[SR] in the cell the PC-relative cell points to (R115). The encoding clause's opcode number and field positions are the spec's decisions D1 and D2, as the rule itself gives them. -/
def Obligations.StoreIndirectWritesThroughThePointer : Prop :=
  (∀ w : Word, w.extractLsb' 12 4 = 0xB#4 →
    decode w = .sti (Reg.ofBits (w.extractLsb' 9 3)) ((w.extractLsb' 0 9).signExtend 16)) ∧
  (∀ (sr : Reg) (off : Word) (s : State), ∃ t, exec (.sti sr off) s = .next t ∧
    (Memory.wf s.mem = true → t.cell (s.memRead (s.pc + off)).1 = s.reg sr) ∧
    CellsKeptBut (s.memRead (s.pc + off)).1 (s.memRead (s.pc + off)).2 t ∧
    KeyboardKept (s.memRead (s.pc + off)).2 t ∧ RegsKept s t ∧ t.cond = s.cond ∧ t.pc = s.pc ∧
    t.output = s.output ∧ RunKept s t ∧
    (s.pc + off ≠ s.params.kbsrAddr → StoreEffect s (s.cell (s.pc + off)) (s.reg sr) t))

/-- STR: every such word decodes to it, and it completes with x[SR] in the cell at x[BaseR] + offset (R116). The encoding clause's opcode number and field positions are the spec's decisions D1 and D2, as the rule itself gives them. -/
def Obligations.StoreBaseWritesBasePlusOffset : Prop :=
  (∀ w : Word, w.extractLsb' 12 4 = 0x7#4 → decode w =
    .str (Reg.ofBits (w.extractLsb' 9 3)) (Reg.ofBits (w.extractLsb' 6 3)) ((w.extractLsb' 0 6).signExtend 16)) ∧
  (∀ (sr base : Reg) (off : Word) (s : State), ∃ t, exec (.str sr base off) s = .next t ∧
    StoreEffect s (s.reg base + off) (s.reg sr) t)

/-- RES: every such word raises IllegalInstruction with the word and its address, and changes nothing else (44_reserved.md R150 (D1), 60_exceptions.md R161, R164 (D22)). The encoding clause's opcode number and field positions are the spec's decisions D1 and D2, as the rule itself gives them. That the report is the instruction word and its own address is the spec's decision D22 (log entry 13). -/
def Obligations.ReservedOpcodeRaisesIllegal : Prop :=
  (∀ (w : Word) (s : State), w.extractLsb' 12 4 = 0xD#4 → ∃ t, exec (decode w) s = .next t ∧
    t.run = .failed .illegalInstruction w (s.pc - 1) ∧ t = { s with run := t.run }) ∧
  (∀ (ign : BitVec 12) (s : State), ∃ t, exec (.res ign) s = .next t ∧
    t.run = .failed .illegalInstruction (0xD#4 ++ ign) (s.pc - 1) ∧ t = { s with run := t.run })

/-- RTI: every such word raises IllegalInstruction with the word and its address, and changes nothing else (44_reserved.md R151 (D25)). That there is no privilege mode to return to is the spec's decision D25, and the report's form D22. -/
def Obligations.RtiRaisesIllegal : Prop :=
  (∀ (w : Word) (s : State), w.extractLsb' 12 4 = 0x8#4 → ∃ t, exec (decode w) s = .next t ∧
    t.run = .failed .illegalInstruction w (s.pc - 1) ∧ t = { s with run := t.run }) ∧
  (∀ (ign : BitVec 12) (s : State), ∃ t, exec (.rti ign) s = .next t ∧
    t.run = .failed .illegalInstruction (0x8#4 ++ ign) (s.pc - 1) ∧ t = { s with run := t.run })

/-- TRAP with a vector outside x20..x25 raises IllegalInstruction and changes nothing else, R7 not even (43_trap.md R125, R128 (D4, D11), 60_exceptions.md R161 (D22)). The order of the check and the link is the spec's decision D11, the vectors D4. -/
def Obligations.UnrecognisedVectorRaisesIllegal : Prop :=
  (∀ w : Word, w.extractLsb' 12 4 = 0xF#4 →
    ¬ (0x20 ≤ (w.extractLsb' 0 8).toNat ∧ (w.extractLsb' 0 8).toNat ≤ 0x25) →
    decode w = .trap (w.extractLsb' 8 4) (w.extractLsb' 0 8) ∧
    0xF#4 ++ w.extractLsb' 8 4 ++ w.extractLsb' 0 8 = w) ∧
  (∀ (ign : BitVec 4) (v : BitVec 8) (s : State), ¬ (0x20 ≤ v.toNat ∧ v.toNat ≤ 0x25) →
    ∃ t, exec (.trap ign v) s = .next t ∧
      t.run = .failed .illegalInstruction (0xF#4 ++ ign ++ v) (s.pc - 1) ∧ t = { s with run := t.run })

/-- The six recognised words decode to the six routines, and TRAP of a recognised vector is that routine (43_trap.md R125, R127 (D4)). The vector numbers other than x25 are the spec's decision D4 (log entry 2). -/
def Obligations.TrapVectorsSelectTheRoutines : Prop :=
  (∀ w : Word, w.extractLsb' 12 4 = 0xF#4 →
    (w.extractLsb' 0 8 = 0x20#8 → decode w = .getc (w.extractLsb' 8 4)) ∧
    (w.extractLsb' 0 8 = 0x21#8 → decode w = .out) ∧ (w.extractLsb' 0 8 = 0x22#8 → decode w = .puts) ∧
    (w.extractLsb' 0 8 = 0x23#8 → decode w = .inp (w.extractLsb' 8 4)) ∧
    (w.extractLsb' 0 8 = 0x24#8 → decode w = .putsp) ∧
    (w.extractLsb' 0 8 = 0x25#8 → decode w = .halt)) ∧
  (∀ (ign : BitVec 4) (s : State),
    exec (.trap ign 0x20) s = exec (.getc ign) s ∧ exec (.trap ign 0x21) s = exec .out s ∧
    exec (.trap ign 0x22) s = exec .puts s ∧ exec (.trap ign 0x23) s = exec (.inp ign) s ∧
    exec (.trap ign 0x24) s = exec .putsp s ∧ exec (.trap ign 0x25) s = exec .halt s)

/-- GETC with a character in the stream completes: R0 is the character, R7 the link, the flag as the parameter says (43_trap.md R125, R126, R129, R130 (D9, D10, D12, D35)). The parameters are the spec's decisions D9 and D10, the width D12, the untouched keyboard cells D35. -/
def Obligations.GetcPutsTheCharacterInR0 : Prop :=
  ∀ (ign : BitVec 4) (s : State) (c : Byte) (rest : List Byte), s.input = c :: rest →
    ∃ t, exec (.getc ign) s = .next t ∧
      (t.reg .r0).toNat = c.toNat ∧ t.reg .r7 = linkedR7 s ∧
      (∀ q, q ≠ .r0 → q ≠ .r7 → t.reg q = s.reg q) ∧
      (s.params.trapInputSetsFlags = true → FlagShows (t.reg .r0) t) ∧
      (s.params.trapInputSetsFlags = false → t.cond = s.cond) ∧
      t.pc = s.pc ∧ CellsKept s t ∧ t.input = rest ∧ t.inputEnded = s.inputEnded ∧
      t.draws = s.draws ∧ t.polls = s.polls ∧ t.output = s.output ∧ t.run = s.run ∧
      t.params = s.params ∧ t.pending = .idle

/-- IN with a character in the stream completes: prompt and echo written, R0 the character, R7 the link (43_trap.md R125, R126, R129, R133 (D9, D10, D17, D35)). The parameters are the spec's decisions D9, D10 and D17. -/
def Obligations.InPromptsEchoesAndPutsInR0 : Prop :=
  ∀ (ign : BitVec 4) (s : State) (c : Byte) (rest : List Byte), s.input = c :: rest →
    ∃ t, exec (.inp ign) s = .next t ∧
      t.output = s.output ++ s.params.inPrompt ++ [c] ∧
      (t.reg .r0).toNat = c.toNat ∧ t.reg .r7 = linkedR7 s ∧
      (∀ q, q ≠ .r0 → q ≠ .r7 → t.reg q = s.reg q) ∧
      (s.params.trapInputSetsFlags = true → FlagShows (t.reg .r0) t) ∧
      (s.params.trapInputSetsFlags = false → t.cond = s.cond) ∧
      t.pc = s.pc ∧ CellsKept s t ∧ t.input = rest ∧ t.inputEnded = s.inputEnded ∧
      t.draws = s.draws ∧ t.polls = s.polls ∧ t.run = s.run ∧ t.params = s.params ∧ t.pending = .idle

/-- GETC and IN at end-of-stream fail with InputUnavailable after the link and, for IN, the prompt (60_exceptions.md R162, R164 (D22, D23), 43_trap.md R130, R133). The state at the failure is the spec's decision D23, the report's form D22. -/
def Obligations.EndOfStreamFailsTheBlockingRead : Prop :=
  ∀ (ign : BitVec 4) (s : State), s.input = [] → s.inputEnded = true →
    (∃ t, exec (.getc ign) s = .next t ∧
      t.run = .failed .inputUnavailable (0xF#4 ++ ign ++ 0x20#8) (s.pc - 1) ∧ t.output = s.output ∧
      t.reg .r7 = linkedR7 s ∧ RegsKeptBut .r7 s t ∧ t.cond = s.cond ∧ t.pc = s.pc ∧ CellsKept s t ∧
      KeyboardKept s t ∧ t.params = s.params ∧ t.pending = .idle) ∧
    (∃ t, exec (.inp ign) s = .next t ∧
      t.run = .failed .inputUnavailable (0xF#4 ++ ign ++ 0x23#8) (s.pc - 1) ∧
      t.output = s.output ++ s.params.inPrompt ∧
      t.reg .r7 = linkedR7 s ∧ RegsKeptBut .r7 s t ∧ t.cond = s.cond ∧ t.pc = s.pc ∧ CellsKept s t ∧
      KeyboardKept s t ∧ t.params = s.params ∧ t.pending = .idle)

/-- GETC and IN with no input wait: no step until the host supplies input, and then the same result (70_reset_and_hazards.md R188, R191 (D30), 30_encoding.md R81). The wait as the absence of a step is the spec's decision D30; that the part before the wait is a step of its own is the model's choice (log entry 6). -/
def Obligations.BlockedReadWaitsForTheHost : Prop :=
  ∀ (ign : BitVec 4) (s : State), s.run = .running → s.input = [] → s.inputEnded = false →
    ∀ i ∈ [Instr.getc ign, Instr.inp ign],
      ∃ t, exec i s = .next t ∧ t.run = .running ∧ step t = .fault .awaitingInput ∧
        (∀ c, ∃ u, step (t.supplyChar c) = .next u ∧ exec i (s.supplyChar c) = .next u) ∧
        (∃ u, step t.signalEnd = .next u ∧ exec i s.signalEnd = .next u)

/-- OUT completes: it appends R0's low byte to the output, and changes only that and the link (43_trap.md R125, R126, R129, R131 (D10)). The link is TRAP's, under the parameter of the spec's decision D10 (log entry 9). -/
def Obligations.OutWritesTheLowByteOfR0 : Prop :=
  ∀ s : State, ∃ t, exec .out s = .next t ∧
    t.output = s.output ++ [BitVec.ofNat 8 ((s.reg .r0).toNat % 256)] ∧
    t.reg .r7 = linkedR7 s ∧ RegsKeptBut .r7 s t ∧ t.cond = s.cond ∧ t.pc = s.pc ∧ CellsKept s t ∧
    KeyboardKept s t ∧ t.run = s.run ∧ t.params = s.params ∧ t.pending = .idle

/-- HALT completes: RUN is Halted, R7 is linked, and nothing else changes (43_trap.md R125, R126, R135 (D10, D18)). No output from HALT is the spec's decision D18, the link D10. -/
def Obligations.HaltEndsTheRun : Prop :=
  ∀ s : State, ∃ t, exec .halt s = .next t ∧ t.run = .halted ∧
    t.reg .r7 = linkedR7 s ∧ RegsKeptBut .r7 s t ∧ t.cond = s.cond ∧ t.pc = s.pc ∧ CellsKept s t ∧
    KeyboardKept s t ∧ t.output = s.output ∧ t.params = s.params ∧ t.pending = .idle

/-- PUTS of a string of n nonzero cells and a zero cell completes and writes their n low bytes in order (43_trap.md R125, R126, R129, R132 (D10, D13, D14, D15)). Which byte of a cell is written, and that the scan reads over the bus, are the spec's decisions D13 and D14. PutsScanCompletes covers strings through KBSR_ADDR. -/
def Obligations.PutsWritesTheString : Prop :=
  ∀ (s : State) (n : Nat), n < 65535 →
    (∀ i, i ≤ n → s.reg .r0 + BitVec.ofNat 16 i ≠ s.params.kbsrAddr) →
    (∀ i, i < n → s.cell (s.reg .r0 + BitVec.ofNat 16 i) ≠ 0) →
    s.cell (s.reg .r0 + BitVec.ofNat 16 n) = 0 →
    ∃ t, exec .puts s = .next t ∧
      t.output = s.output ++
        (List.range n).map (fun i => (s.cell (s.reg .r0 + BitVec.ofNat 16 i)).extractLsb' 0 8) ∧
      t.reg .r7 = linkedR7 s ∧ RegsKeptBut .r7 s t ∧ t.cond = s.cond ∧ t.pc = s.pc ∧ CellsKept s t ∧
      KeyboardKept s t ∧ t.run = s.run ∧ t.params = s.params ∧ t.pending = .idle

/-- PUTSP of n full cells and a cell with a zero byte completes and writes their bytes, low byte first (43_trap.md R125, R126, R129, R134 (D10, D14, D15, D16)). The stop at the first zero byte is the spec's decision D16 (90_conflicts.md C9). PutspScanCompletes covers strings through KBSR_ADDR. -/
def Obligations.PutspWritesThePackedString : Prop :=
  ∀ (s : State) (n : Nat), n < 65535 →
    (∀ i, i ≤ n → s.reg .r0 + BitVec.ofNat 16 i ≠ s.params.kbsrAddr) →
    (∀ i, i < n → (s.cell (s.reg .r0 + BitVec.ofNat 16 i)).extractLsb' 0 8 ≠ 0 ∧
      (s.cell (s.reg .r0 + BitVec.ofNat 16 i)).extractLsb' 8 8 ≠ 0) →
    ((s.cell (s.reg .r0 + BitVec.ofNat 16 n)).extractLsb' 0 8 = 0 ∨
      (s.cell (s.reg .r0 + BitVec.ofNat 16 n)).extractLsb' 8 8 = 0) →
    ∃ t, exec .putsp s = .next t ∧
      t.output = s.output ++
        (List.range n).flatMap (fun i =>
          [(s.cell (s.reg .r0 + BitVec.ofNat 16 i)).extractLsb' 0 8,
           (s.cell (s.reg .r0 + BitVec.ofNat 16 i)).extractLsb' 8 8]) ++
        (if (s.cell (s.reg .r0 + BitVec.ofNat 16 n)).extractLsb' 0 8 = 0 then []
         else [(s.cell (s.reg .r0 + BitVec.ofNat 16 n)).extractLsb' 0 8]) ∧
      t.reg .r7 = linkedR7 s ∧ RegsKeptBut .r7 s t ∧ t.cond = s.cond ∧ t.pc = s.pc ∧ CellsKept s t ∧
      KeyboardKept s t ∧ t.run = s.run ∧ t.params = s.params ∧ t.pending = .idle

/-- PUTS: a scan that the spec ends after n reads is reached by the instruction's step and n / 65536 more (43_trap.md R132 (D13, D14, D15), 70_reset_and_hazards.md R187, 30_encoding.md R81). How many reads a step makes is the model's choice (log entry 7); the scan's rules are the spec's decisions D13, D14, D15. -/
def Obligations.PutsScanCompletes : Prop :=
  (∀ (s t : State) (n : Nat), n ≤ 65536 → PutsRun n (s.trapEntry.reg .r0) s.trapEntry t →
    exec .puts s = .next t.trapReturn) ∧
  (∀ (s t : State) (n : Nat), s.run = .running → PutsRun n (s.trapEntry.reg .r0) s.trapEntry t →
    ∃ u k, exec .puts s = .next u ∧ k ≤ n / 65536 ∧ Sys2Proof.core.run k u = .next t.trapReturn)

/-- PUTSP: a scan that the spec ends after n reads is reached by the instruction's step and n / 65536 more (43_trap.md R134 (D14, D15, D16), 70_reset_and_hazards.md R187, 30_encoding.md R81). How many reads a step makes is the model's choice (log entry 7); the scan's rules are the spec's decisions D14, D15, D16. -/
def Obligations.PutspScanCompletes : Prop :=
  (∀ (s t : State) (n : Nat), n ≤ 65536 → PutspRun n (s.trapEntry.reg .r0) s.trapEntry t →
    exec .putsp s = .next t.trapReturn) ∧
  (∀ (s t : State) (n : Nat), s.run = .running → PutspRun n (s.trapEntry.reg .r0) s.trapEntry t →
    ∃ u k, exec .putsp s = .next u ∧ k ≤ n / 65536 ∧ Sys2Proof.core.run k u = .next t.trapReturn)

/-- No instruction writes a general register but its DR and the implicit uses of R7 and R0 (10_state.md R20, R21, R26, 43_trap.md R126, R129 (D10)). -/
def Obligations.OnlyNamedRegistersAreWritten : Prop :=
  ∀ (i : Instr) (s t : State), exec i s = .next t →
    ∀ q, writesReg s.params.trapLinksR7 i q = false → t.reg q = s.reg q

/-- After the fetch, only BR, JMP, RET, JSR and JSRR change the PC (10_state.md R23). -/
def Obligations.OnlyControlTransfersWriteThePc : Prop :=
  ∀ (i : Instr) (s t : State), mayWritePc i = false → exec i s = .next t → t.pc = s.pc

/-- The flag-setting instructions set the flag from their result, and no other instruction changes it (10_state.md R26 (D9), 00_scope.md R15). The flag rule of GETC and IN is the spec's decision D9. -/
def Obligations.FlagIsWrittenExactlyByFlagSetters : Prop :=
  ∀ (i : Instr) (s t : State), exec i s = .next t →
    (∀ dr, flagSettingDest i = some dr → FlagShows (t.reg dr) t) ∧
    (flagSettingDest i = none → (readsCharacter i && s.params.trapInputSetsFlags) = false →
      t.cond = s.cond)

/-- Besides the keyboard cells, no cell changes but the one a store instruction addresses (20_memory.md R46, 90_conflicts.md C3). -/
def Obligations.MemoryChangesOnlyByStoresAndPolls : Prop :=
  ∀ (i : Instr) (s t : State), exec i s = .next t →
    ∀ a, a ≠ s.params.kbsrAddr → a ≠ s.params.kbdrAddr → storeAddress s i ≠ some a →
      t.cell a = s.cell a

/-- A recognised TRAP changes no register but R7 and R0, no PC, and no cell but the keyboard cells under PUTS and PUTSP (43_trap.md R126, R129 (D10, D35)). The link is the spec's decision D10, the untouched keyboard cells D35. -/
def Obligations.TrapRoutinesChangeOnlyWhatTheyName : Prop :=
  ∀ (ign : BitVec 4) (s t : State),
    ∀ i ∈ [Instr.getc ign, Instr.out, Instr.puts, Instr.inp ign, Instr.putsp, Instr.halt],
    exec i s = .next t →
      t.pc = s.pc ∧ t.reg .r7 = linkedR7 s ∧ (∀ q, q ≠ .r0 → q ≠ .r7 → t.reg q = s.reg q) ∧
      (readsCharacter i = false → t.reg .r0 = s.reg .r0) ∧
      (i ≠ .puts → i ≠ .putsp → CellsKept s t) ∧
      (∀ a, a ≠ s.params.kbsrAddr → a ≠ s.params.kbdrAddr → t.cell a = s.cell a) ∧
      (∃ bytes, t.output = s.output ++ bytes) ∧ t.params = s.params

/-- A step fetches the word at the PC over the bus, advances the PC by one and runs what the word decodes to (R82). -/
def Obligations.StepRunsTheDecodedInstruction : Prop :=
  ∀ s : State, ReadyToFetch s →
    step s = exec (decode (s.memRead s.pc).1) { (s.memRead s.pc).2 with pc := s.pc + 1 } ∧
    (s.pc + 1 - 1 = s.pc ∧ (s.pc + 1).toNat = (s.pc.toNat + 1) % 65536) ∧
    (s.pc ≠ s.params.kbsrAddr → ∀ i, decode (s.cell s.pc) = i →
      step s = exec i { s with pc := s.pc + 1 }) ∧
    (s.pc = s.params.kbsrAddr →
      step s = exec (decode (s.keyboardPoll.cell s.pc)) { s.keyboardPoll with pc := s.pc + 1 })

/-- In Halted or Failed there is no step (R84). -/
def Obligations.TerminalStatesTakeNoStep : Prop :=
  ∀ s : State, (s.run = .halted → step s = .fault .halted) ∧
    (∀ k w a, s.run = .failed k w a → step s = .fault .failed)

/-- A running machine always has a next state, but where GETC or IN waits for input that is not there (70_reset_and_hazards.md R188, R191 (D30), 30_encoding.md R85). The wait as the absence of a step is the spec's decision D30. -/
def Obligations.OnlyBlockedReadsHoldARunningMachine : Prop :=
  ∀ s : State, s.run = .running →
    (∃ t, step s = .next t) ∨
    (step s = .fault .awaitingInput ∧ (∃ w, s.pending = .waitGetc w ∨ s.pending = .waitIn w) ∧
      s.input = [] ∧ s.inputEnded = false)

/-- A step enters Halted exactly when it fetches and runs TRAP x25 (43_trap.md R135, 30_encoding.md R80). -/
def Obligations.OnlyHaltEntersHalted : Prop :=
  ∀ s t : State, step s = .next t →
    (t.run = .halted ↔
      ReadyToFetch s ∧ (s.memRead s.pc).1.extractLsb' 12 4 = 0xF#4 ∧
        (s.memRead s.pc).1.extractLsb' 0 8 = 0x25#8)

/-- A step fails with IllegalInstruction exactly when the fetched word is illegal, and reports that word and its address (60_exceptions.md R161, R164 (D22), 30_encoding.md R69). What a failure reports is the spec's decision D22. -/
def Obligations.IllegalInstructionExactlyOnIllegalWords : Prop :=
  ∀ s t : State, step s = .next t → ∀ w a,
    (t.run = .failed .illegalInstruction w a ↔
      ReadyToFetch s ∧ w = (s.memRead s.pc).1 ∧ a = s.pc ∧ illegalWord w)

/-- A step fails with InputUnavailable exactly when GETC or IN reads at end-of-stream, and reports the TRAP word and its address (60_exceptions.md R162 (D22, D23)). What a failure reports is the spec's decision D22; the waiting routine is the model's field (log entry 6). -/
def Obligations.InputUnavailableExactlyAtEndOfStream : Prop :=
  ∀ s t : State, step s = .next t → ∀ w a,
    (t.run = .failed .inputUnavailable w a ↔
      (ReadyToFetch s ∧ w = (s.memRead s.pc).1 ∧ a = s.pc ∧ w.extractLsb' 12 4 = 0xF#4 ∧
        (w.extractLsb' 0 8 = 0x20#8 ∨ w.extractLsb' 0 8 = 0x23#8) ∧
        (s.memRead s.pc).2.input = [] ∧ s.inputEnded = true) ∨
      ((s.pending = .waitGetc w ∨ s.pending = .waitIn w) ∧ a = s.pc - 1 ∧ s.input = [] ∧
        s.inputEnded = true))

/-- Every step keeps memory canonical, the keyboard cells different, and a routine in progress only while running (20_memory.md R42, R52, 30_encoding.md R81, R85). The canonical form and the routine in progress are the model's own (log entries 4 and 6). -/
def Obligations.StepKeepsTheInvariant : Prop :=
  ∀ s t : State, Inv s → step s = .next t → Inv t

/-- The reset state meets the invariant, and so does reset with any parameters that keep the keyboard cells apart (10_state.md R32, 20_memory.md R42). The canonical form is the model's own (log entry 4). -/
def Obligations.ResetMeetsTheInvariant : Prop :=
  Inv State.reset ∧
    ∀ (p : Params) (r : ResetParams), p.kbsrAddr ≠ p.kbdrAddr → Memory.wf r.initFill = true →
      Inv (State.resetWith p r)

/-- Reset: PC at PC_START, COND = Z, RUN = Running, registers INIT_GPR, cells INIT_FILL; with the spec's values 0x3000 and zeros (10_state.md R32 (D6, D7, D8), 70_reset_and_hazards.md R180, 00_scope.md R7). The values 0x3000, the zeros, the addresses and the two flags are the spec's decisions D5 to D10 (log entries 1, 8, 9, 10). That the stream is empty, the host having supplied nothing yet, is the model's choice (log entry 12), and so is the field for a routine in progress (log entry 6). -/
def Obligations.ResetValues : Prop :=
  (∀ (p : Params) (r : ResetParams),
    (State.resetWith p r).pc = r.pcStart ∧ (State.resetWith p r).cond = .z ∧
    (State.resetWith p r).run = .running ∧
    (∀ q, (State.resetWith p r).reg q = regGet r.initGpr q) ∧
    (∀ a, (State.resetWith p r).cell a = Memory.read r.initFill a.toNat) ∧
    (State.resetWith p r).params = p ∧ (State.resetWith p r).pending = .idle ∧
    (State.resetWith p r).input = [] ∧ (State.resetWith p r).output = []) ∧
  State.reset.pc = 0x3000 ∧ State.reset.cond = .z ∧ State.reset.run = .running ∧
  (∀ q, State.reset.reg q = 0) ∧ (∀ a, State.reset.cell a = 0) ∧
  State.reset.params.kbsrAddr = 0xFE00 ∧ State.reset.params.kbdrAddr = 0xFE02 ∧
  State.reset.params.trapLinksR7 = true ∧ State.reset.params.trapInputSetsFlags = false

/-- Every step appends to the output, consumes the input from its front, and changes no parameter (70_reset_and_hazards.md R193 (D33), 43_trap.md R136, 00_scope.md R7). One input stream for both reads is the spec's decision D33. -/
def Obligations.StepOrdersTheHostStreams : Prop :=
  ∀ s t : State, step s = .next t →
    (∃ bytes, t.output = s.output ++ bytes) ∧ (∃ used, s.input = used ++ t.input) ∧
    t.inputEnded = s.inputEnded ∧ s.polls ≤ t.polls ∧ t.params = s.params

/-- A store over the next instruction's word is what the next step runs (20_memory.md R54, 70_reset_and_hazards.md R185). -/
def Obligations.StoreIsSeenByTheNextFetch : Prop :=
  ∀ (s : State) (sr : Reg), ReadyToFetch s → Memory.wf s.mem = true → s.pc ≠ s.params.kbsrAddr →
    s.pc + 1 ≠ s.params.kbsrAddr → decode (s.cell s.pc) = .st sr 0 →
    ∃ t, step s = .next t ∧ step t = exec (decode (s.reg sr)) { t with pc := s.pc + 1 + 1 }

/-- Loading an image of at most 65536 data words puts them from the origin on, wrapping, and changes no other cell (70_reset_and_hazards.md R181 (D27)). The empty image body is the spec's decision D27. -/
def Obligations.LoadedImageStandsInMemory : Prop :=
  ∀ (origin : Word) (ws : List Word) (m : Memory), ws.length ≤ 65536 → Memory.wf m = true →
    ∃ m', loadImage
        ((origin :: ws).flatMap (fun w => [w.extractLsb' 8 8, w.extractLsb' 0 8])) m = some m' ∧
      (∀ k (hk : k < ws.length), Memory.read m' (origin + BitVec.ofNat 16 k).toNat = ws[k]) ∧
      (∀ a : Word, (∀ k, k < ws.length → a ≠ origin + BitVec.ofNat 16 k) →
        Memory.read m' a.toNat = Memory.read m a.toNat) ∧
      Memory.wf m' = true

/-- An image fails to load exactly when it has fewer than two bytes or an odd number of them (70_reset_and_hazards.md R181 (D27)). Which streams are truncated is the spec's decision D27. -/
def Obligations.ImageLoadFailsExactlyWhenTruncated : Prop :=
  ∀ (bytes : List Byte) (m : Memory),
    loadImage bytes m = none ↔ bytes.length < 2 ∨ bytes.length % 2 = 1

/-- The offset of a label is rejected exactly out of range, and BR, LEA and JSR with it reach the label (30_encoding.md R72, R73 (D34), 41_control.md R104). The assembler's rules are the spec's decision D34 (log entry 25). -/
def Obligations.LabelOffsetsReachTheirLabels : Prop :=
  ∀ (addr label : Word) (s : State), s.pc = addr + 1 →
    (labelOffset 9 addr label = none ↔
      ¬ (-256 ≤ (label - (addr + 1)).toInt ∧ (label - (addr + 1)).toInt ≤ 255)) ∧
    (labelOffset 11 addr label = none ↔
      ¬ (-1024 ≤ (label - (addr + 1)).toInt ∧ (label - (addr + 1)).toInt ≤ 1023)) ∧
    (∀ off, labelOffset 9 addr label = some off →
      (∃ t, exec (asmBr off) s = .next t ∧ t.pc = label) ∧
      (∃ t, exec (.lea .r0 off) s = .next t ∧ t.reg .r0 = label)) ∧
    (∀ off, labelOffset 11 addr label = some off → ∃ t, exec (.jsr off) s = .next t ∧ t.pc = label)

end
end

