-- ==== Sys2Proof/Laws/Loader.lean ====
section
/-! SUPPORT. What a start and the end of a run come to at the command line (70_reset_and_hazards.md
rules R180, R181, R183, R194). -/

namespace Sys2Proof.Machine

open Sys2Proof.Config

/-- An unreadable file is a LoadFailure. -/
@[simp] theorem loadFile_unreadable (m : Memory) : loadFile .unreadable m = none := rfl

@[simp] theorem loadFile_readable (bytes : List Byte) (m : Memory) :
    loadFile (.readable bytes) m = loadImage bytes m := rfl

/-- One unreadable file fails the whole load, wherever it stands in the command line. -/
theorem loadImages_unreadable {files : List ImageFile} (h : ImageFile.unreadable ∈ files) :
    ∀ m, loadImages files m = none := by
  induction files with
  | nil => cases h
  | cons file rest ih =>
    intro m
    cases h with
    | head => rfl
    | tail _ hr => cases hf : loadFile file m <;> simp [loadImages, hf, ih hr]

/-- A command line with an unreadable file starts no machine. -/
theorem boot_unreadable (p : Params) (r : ResetParams) {files : List ImageFile}
    (h : ImageFile.unreadable ∈ files) : boot p r files = .loadFailure := by
  cases files with
  | nil => cases h
  | cons file rest => simp [boot, loadImages_unreadable h]

/-- The exit code is 0 exactly after a clean halt: a failed run's code is another. -/
theorem runExitCode_zero_iff (c : FailExitCode) (run : RunState) :
    runExitCode c run = some 0 ↔ run = .halted := by
  cases run <;> simp [runExitCode, c.property]

/-- A start that created no core state never has exit code 0. -/
theorem bootExitCode_ne_zero (b : Boot) : bootExitCode b ≠ some 0 := by
  cases b <;> simp [bootExitCode]

end Sys2Proof.Machine
end

