-- ==== Sys2Proof/Laws/Memory.lean ====
section
/-! SUPPORT. The laws of memory: a write is seen at its own address and nowhere else, and keeps the
canonical form. -/

namespace Sys2Proof.Machine

theorem Memory.wfFrom_cons {lo a : Nat} {v : Word} {m : Memory} :
    Memory.wfFrom lo ((a, v) :: m) = true ↔
      lo ≤ a ∧ a < 65536 ∧ v ≠ Memory.fill ∧ Memory.wfFrom (a + 1) m = true := by
  simp [Memory.wfFrom, and_assoc]

theorem Memory.wfFrom_mono {lo lo' : Nat} {m : Memory} (hle : lo' ≤ lo)
    (h : Memory.wfFrom lo m = true) : Memory.wfFrom lo' m = true := by
  cases m with
  | nil => rfl
  | cons e m =>
    obtain ⟨h1, h2⟩ := Memory.wfFrom_cons.mp h
    exact Memory.wfFrom_cons.mpr ⟨by omega, h2⟩

/-- Below its first address a canonical list reads as the default. -/
theorem Memory.read_of_lt {lo a : Nat} {m : Memory} (h : Memory.wfFrom lo m = true) (ha : a < lo) :
    Memory.read m a = Memory.fill := by
  induction m generalizing lo with
  | nil => rfl
  | cons e m ih =>
    obtain ⟨h1, -, -, h4⟩ := Memory.wfFrom_cons.mp h
    have hne : e.1 ≠ a := by omega
    simp [Memory.read, hne, ih h4 (by omega)]

theorem Memory.read_cons_other {m : Memory} {a b : Nat} {v : Word} (hne : b ≠ a) :
    Memory.read (Memory.cons a v m) b = Memory.read m b := by
  unfold Memory.cons
  split
  · rfl
  · simp [Memory.read, Ne.symm hne]

theorem Memory.read_cons_same {m : Memory} {a : Nat} {v : Word}
    (h : Memory.wfFrom (a + 1) m = true) : Memory.read (Memory.cons a v m) a = v := by
  unfold Memory.cons
  split
  · next hv => rw [Memory.read_of_lt h (by omega), hv]
  · simp [Memory.read]

theorem Memory.wfFrom_cons_entry {lo a : Nat} {v : Word} {m : Memory} (hlo : lo ≤ a) (ha : a < 65536)
    (h : Memory.wfFrom (a + 1) m = true) : Memory.wfFrom lo (Memory.cons a v m) = true := by
  unfold Memory.cons
  split
  · exact Memory.wfFrom_mono (by omega) h
  · next hv => exact Memory.wfFrom_cons.mpr ⟨hlo, ha, hv, h⟩

/-- A write leaves every other cell alone. -/
theorem Memory.read_write_other (m : Memory) {a b : Nat} (v : Word) (hne : b ≠ a) :
    Memory.read (Memory.write m a v) b = Memory.read m b := by
  induction m with
  | nil => exact Memory.read_cons_other hne
  | cons e m ih =>
    unfold Memory.write
    split
    · exact Memory.read_cons_other hne
    · split
      · next h => rw [Memory.read_cons_other hne]; simp [Memory.read, ← h, Ne.symm hne]
      · simp [Memory.read, ih]

/-- A read after a write to the same cell gives the value written. -/
theorem Memory.read_write_same {lo a : Nat} {m : Memory} (v : Word)
    (h : Memory.wfFrom lo m = true) : Memory.read (Memory.write m a v) a = v := by
  induction m generalizing lo with
  | nil => exact Memory.read_cons_same rfl
  | cons e m ih =>
    obtain ⟨h1, h2, h3, h4⟩ := Memory.wfFrom_cons.mp h
    unfold Memory.write
    split
    · next hlt => exact Memory.read_cons_same (Memory.wfFrom_cons.mpr ⟨by omega, h2, h3, h4⟩)
    · split
      · next heq => exact Memory.read_cons_same (heq ▸ h4)
      · next hne => simp [Memory.read, Ne.symm hne, ih h4]

theorem Memory.wfFrom_write {lo a : Nat} {m : Memory} (v : Word) (hlo : lo ≤ a) (ha : a < 65536)
    (h : Memory.wfFrom lo m = true) : Memory.wfFrom lo (Memory.write m a v) = true := by
  induction m generalizing lo with
  | nil => exact Memory.wfFrom_cons_entry hlo ha rfl
  | cons e m ih =>
    obtain ⟨h1, h2, h3, h4⟩ := Memory.wfFrom_cons.mp h
    unfold Memory.write
    split
    · exact Memory.wfFrom_cons_entry hlo ha (Memory.wfFrom_cons.mpr ⟨by omega, h2, h3, h4⟩)
    · split
      · next heq => exact Memory.wfFrom_cons_entry hlo ha (heq ▸ h4)
      · exact Memory.wfFrom_cons.mpr ⟨h1, h2, h3, ih (by omega) h4⟩

/-- Every write keeps the canonical form. -/
theorem Memory.wf_write {m : Memory} (a v : Word) (h : Memory.wf m = true) :
    Memory.wf (Memory.write m a.toNat v) = true :=
  Memory.wfFrom_write v (Nat.zero_le _) a.isLt h

/-- The loader's stores keep the canonical form (70_reset_and_hazards.md rule R181). -/
theorem Memory.wf_storeWords (ws : List Word) : ∀ (a : Word) {m : Memory}, Memory.wf m = true →
    Memory.wf (storeWords a ws m) = true := by
  induction ws with
  | nil => exact fun _ _ h => h
  | cons w rest ih => exact fun a _ h => ih (a + 1) (Memory.wf_write a w h)

/-- Loading an image keeps the canonical form (70_reset_and_hazards.md rule R181). -/
theorem Memory.wf_loadImage {bytes : List Byte} {m m' : Memory} (h : Memory.wf m = true)
    (e : loadImage bytes m = some m') : Memory.wf m' = true := by
  unfold loadImage at e
  split at e
  · cases e; exact Memory.wf_storeWords _ _ h
  · cases e

/-- Loading a file keeps the canonical form (70_reset_and_hazards.md rule R181). -/
theorem Memory.wf_loadFile {file : ImageFile} {m m' : Memory} (h : Memory.wf m = true)
    (e : loadFile file m = some m') : Memory.wf m' = true := by
  cases file with
  | unreadable => cases e
  | readable bytes => exact Memory.wf_loadImage h e

/-- Loading files in order keeps the canonical form (70_reset_and_hazards.md rule R183). -/
theorem Memory.wf_loadImages (files : List ImageFile) : ∀ {m m' : Memory}, Memory.wf m = true →
    loadImages files m = some m' → Memory.wf m' = true := by
  induction files with
  | nil => intro m m' h e; cases e; exact h
  | cons file rest ih =>
    intro m m' h e
    simp only [loadImages, Option.bind_eq_some_iff] at e
    obtain ⟨m1, e1, e2⟩ := e
    exact ih (Memory.wf_loadFile h e1) e2

/-- Reset's memory has the canonical form. -/
theorem Memory.wf_reset : Memory.wf State.reset.mem = true := rfl

end Sys2Proof.Machine
end

