-- ==== Sys2Proof/Laws/State.lean ====
section
/-! SUPPORT. One lemma per field per update of the state, true by rfl, so that no later proof unfolds a
record update; the same for the reads `reg` and `cell`. -/

namespace Sys2Proof.Machine

variable (s : State)

/-! `setReg`. -/

@[simp] theorem State.setReg_regs (r : Reg) (v : Word) : (s.setReg r v).regs = regSet s.regs r v := rfl
@[simp] theorem State.setReg_pc (r : Reg) (v : Word) : (s.setReg r v).pc = s.pc := rfl
@[simp] theorem State.setReg_cond (r : Reg) (v : Word) : (s.setReg r v).cond = s.cond := rfl
@[simp] theorem State.setReg_mem (r : Reg) (v : Word) : (s.setReg r v).mem = s.mem := rfl
@[simp] theorem State.setReg_run (r : Reg) (v : Word) : (s.setReg r v).run = s.run := rfl
@[simp] theorem State.setReg_params (r : Reg) (v : Word) : (s.setReg r v).params = s.params := rfl
@[simp] theorem State.setReg_pending (r : Reg) (v : Word) : (s.setReg r v).pending = s.pending := rfl
@[simp] theorem State.setReg_input (r : Reg) (v : Word) : (s.setReg r v).input = s.input := rfl
@[simp] theorem State.setReg_inputEnded (r : Reg) (v : Word) : (s.setReg r v).inputEnded = s.inputEnded := rfl
@[simp] theorem State.setReg_draws (r : Reg) (v : Word) : (s.setReg r v).draws = s.draws := rfl
@[simp] theorem State.setReg_polls (r : Reg) (v : Word) : (s.setReg r v).polls = s.polls := rfl
@[simp] theorem State.setReg_output (r : Reg) (v : Word) : (s.setReg r v).output = s.output := rfl
@[simp] theorem State.setReg_cell (r : Reg) (v : Word) (c : Word) : (s.setReg r v).cell c = s.cell c := rfl

/-! `setPc`. -/

@[simp] theorem State.setPc_regs (v : Word) : (s.setPc v).regs = s.regs := rfl
@[simp] theorem State.setPc_pc (v : Word) : (s.setPc v).pc = v := rfl
@[simp] theorem State.setPc_cond (v : Word) : (s.setPc v).cond = s.cond := rfl
@[simp] theorem State.setPc_mem (v : Word) : (s.setPc v).mem = s.mem := rfl
@[simp] theorem State.setPc_run (v : Word) : (s.setPc v).run = s.run := rfl
@[simp] theorem State.setPc_params (v : Word) : (s.setPc v).params = s.params := rfl
@[simp] theorem State.setPc_pending (v : Word) : (s.setPc v).pending = s.pending := rfl
@[simp] theorem State.setPc_input (v : Word) : (s.setPc v).input = s.input := rfl
@[simp] theorem State.setPc_inputEnded (v : Word) : (s.setPc v).inputEnded = s.inputEnded := rfl
@[simp] theorem State.setPc_draws (v : Word) : (s.setPc v).draws = s.draws := rfl
@[simp] theorem State.setPc_polls (v : Word) : (s.setPc v).polls = s.polls := rfl
@[simp] theorem State.setPc_output (v : Word) : (s.setPc v).output = s.output := rfl
@[simp] theorem State.setPc_reg (v : Word) (q : Reg) : (s.setPc v).reg q = s.reg q := rfl
@[simp] theorem State.setPc_cell (v : Word) (c : Word) : (s.setPc v).cell c = s.cell c := rfl

/-! `setcc`. -/

@[simp] theorem State.setcc_regs (v : Word) : (s.setcc v).regs = s.regs := rfl
@[simp] theorem State.setcc_pc (v : Word) : (s.setcc v).pc = s.pc := rfl
@[simp] theorem State.setcc_cond (v : Word) : (s.setcc v).cond = condOf v := rfl
@[simp] theorem State.setcc_mem (v : Word) : (s.setcc v).mem = s.mem := rfl
@[simp] theorem State.setcc_run (v : Word) : (s.setcc v).run = s.run := rfl
@[simp] theorem State.setcc_params (v : Word) : (s.setcc v).params = s.params := rfl
@[simp] theorem State.setcc_pending (v : Word) : (s.setcc v).pending = s.pending := rfl
@[simp] theorem State.setcc_input (v : Word) : (s.setcc v).input = s.input := rfl
@[simp] theorem State.setcc_inputEnded (v : Word) : (s.setcc v).inputEnded = s.inputEnded := rfl
@[simp] theorem State.setcc_draws (v : Word) : (s.setcc v).draws = s.draws := rfl
@[simp] theorem State.setcc_polls (v : Word) : (s.setcc v).polls = s.polls := rfl
@[simp] theorem State.setcc_output (v : Word) : (s.setcc v).output = s.output := rfl
@[simp] theorem State.setcc_reg (v : Word) (q : Reg) : (s.setcc v).reg q = s.reg q := rfl
@[simp] theorem State.setcc_cell (v : Word) (c : Word) : (s.setcc v).cell c = s.cell c := rfl

/-! `setCell`. -/

@[simp] theorem State.setCell_regs (a v : Word) : (s.setCell a v).regs = s.regs := rfl
@[simp] theorem State.setCell_pc (a v : Word) : (s.setCell a v).pc = s.pc := rfl
@[simp] theorem State.setCell_cond (a v : Word) : (s.setCell a v).cond = s.cond := rfl
@[simp] theorem State.setCell_mem (a v : Word) : (s.setCell a v).mem = Memory.write s.mem a.toNat v := rfl
@[simp] theorem State.setCell_run (a v : Word) : (s.setCell a v).run = s.run := rfl
@[simp] theorem State.setCell_params (a v : Word) : (s.setCell a v).params = s.params := rfl
@[simp] theorem State.setCell_pending (a v : Word) : (s.setCell a v).pending = s.pending := rfl
@[simp] theorem State.setCell_input (a v : Word) : (s.setCell a v).input = s.input := rfl
@[simp] theorem State.setCell_inputEnded (a v : Word) : (s.setCell a v).inputEnded = s.inputEnded := rfl
@[simp] theorem State.setCell_draws (a v : Word) : (s.setCell a v).draws = s.draws := rfl
@[simp] theorem State.setCell_polls (a v : Word) : (s.setCell a v).polls = s.polls := rfl
@[simp] theorem State.setCell_output (a v : Word) : (s.setCell a v).output = s.output := rfl
@[simp] theorem State.setCell_reg (a v : Word) (q : Reg) : (s.setCell a v).reg q = s.reg q := rfl

/-! `writeByte`. -/

@[simp] theorem State.writeByte_regs (b : Byte) : (s.writeByte b).regs = s.regs := rfl
@[simp] theorem State.writeByte_pc (b : Byte) : (s.writeByte b).pc = s.pc := rfl
@[simp] theorem State.writeByte_cond (b : Byte) : (s.writeByte b).cond = s.cond := rfl
@[simp] theorem State.writeByte_mem (b : Byte) : (s.writeByte b).mem = s.mem := rfl
@[simp] theorem State.writeByte_run (b : Byte) : (s.writeByte b).run = s.run := rfl
@[simp] theorem State.writeByte_params (b : Byte) : (s.writeByte b).params = s.params := rfl
@[simp] theorem State.writeByte_pending (b : Byte) : (s.writeByte b).pending = s.pending := rfl
@[simp] theorem State.writeByte_input (b : Byte) : (s.writeByte b).input = s.input := rfl
@[simp] theorem State.writeByte_inputEnded (b : Byte) : (s.writeByte b).inputEnded = s.inputEnded := rfl
@[simp] theorem State.writeByte_draws (b : Byte) : (s.writeByte b).draws = s.draws := rfl
@[simp] theorem State.writeByte_polls (b : Byte) : (s.writeByte b).polls = s.polls := rfl
@[simp] theorem State.writeByte_output (b : Byte) : (s.writeByte b).output = s.output ++ [b] := rfl
@[simp] theorem State.writeByte_reg (b : Byte) (q : Reg) : (s.writeByte b).reg q = s.reg q := rfl
@[simp] theorem State.writeByte_cell (b : Byte) (c : Word) : (s.writeByte b).cell c = s.cell c := rfl

/-! `writeBytes`. -/

@[simp] theorem State.writeBytes_regs (bs : List Byte) : (s.writeBytes bs).regs = s.regs := rfl
@[simp] theorem State.writeBytes_pc (bs : List Byte) : (s.writeBytes bs).pc = s.pc := rfl
@[simp] theorem State.writeBytes_cond (bs : List Byte) : (s.writeBytes bs).cond = s.cond := rfl
@[simp] theorem State.writeBytes_mem (bs : List Byte) : (s.writeBytes bs).mem = s.mem := rfl
@[simp] theorem State.writeBytes_run (bs : List Byte) : (s.writeBytes bs).run = s.run := rfl
@[simp] theorem State.writeBytes_params (bs : List Byte) : (s.writeBytes bs).params = s.params := rfl
@[simp] theorem State.writeBytes_pending (bs : List Byte) : (s.writeBytes bs).pending = s.pending := rfl
@[simp] theorem State.writeBytes_input (bs : List Byte) : (s.writeBytes bs).input = s.input := rfl
@[simp] theorem State.writeBytes_inputEnded (bs : List Byte) : (s.writeBytes bs).inputEnded = s.inputEnded := rfl
@[simp] theorem State.writeBytes_draws (bs : List Byte) : (s.writeBytes bs).draws = s.draws := rfl
@[simp] theorem State.writeBytes_polls (bs : List Byte) : (s.writeBytes bs).polls = s.polls := rfl
@[simp] theorem State.writeBytes_output (bs : List Byte) : (s.writeBytes bs).output = s.output ++ bs := rfl
@[simp] theorem State.writeBytes_reg (bs : List Byte) (q : Reg) : (s.writeBytes bs).reg q = s.reg q := rfl
@[simp] theorem State.writeBytes_cell (bs : List Byte) (c : Word) : (s.writeBytes bs).cell c = s.cell c := rfl

/-! `raise`. -/

@[simp] theorem State.raise_regs (k : FailKind) (w : Word) : (s.raise k w).regs = s.regs := rfl
@[simp] theorem State.raise_pc (k : FailKind) (w : Word) : (s.raise k w).pc = s.pc := rfl
@[simp] theorem State.raise_cond (k : FailKind) (w : Word) : (s.raise k w).cond = s.cond := rfl
@[simp] theorem State.raise_mem (k : FailKind) (w : Word) : (s.raise k w).mem = s.mem := rfl
@[simp] theorem State.raise_run (k : FailKind) (w : Word) : (s.raise k w).run = .failed k w (s.pc - 1) := rfl
@[simp] theorem State.raise_params (k : FailKind) (w : Word) : (s.raise k w).params = s.params := rfl
@[simp] theorem State.raise_pending (k : FailKind) (w : Word) : (s.raise k w).pending = s.pending := rfl
@[simp] theorem State.raise_input (k : FailKind) (w : Word) : (s.raise k w).input = s.input := rfl
@[simp] theorem State.raise_inputEnded (k : FailKind) (w : Word) : (s.raise k w).inputEnded = s.inputEnded := rfl
@[simp] theorem State.raise_draws (k : FailKind) (w : Word) : (s.raise k w).draws = s.draws := rfl
@[simp] theorem State.raise_polls (k : FailKind) (w : Word) : (s.raise k w).polls = s.polls := rfl
@[simp] theorem State.raise_output (k : FailKind) (w : Word) : (s.raise k w).output = s.output := rfl
@[simp] theorem State.raise_reg (k : FailKind) (w : Word) (q : Reg) : (s.raise k w).reg q = s.reg q := rfl
@[simp] theorem State.raise_cell (k : FailKind) (w : Word) (c : Word) : (s.raise k w).cell c = s.cell c := rfl

/-! `halt`. -/

@[simp] theorem State.halt_regs : (s.halt).regs = s.regs := rfl
@[simp] theorem State.halt_pc : (s.halt).pc = s.pc := rfl
@[simp] theorem State.halt_cond : (s.halt).cond = s.cond := rfl
@[simp] theorem State.halt_mem : (s.halt).mem = s.mem := rfl
@[simp] theorem State.halt_run : (s.halt).run = .halted := rfl
@[simp] theorem State.halt_params : (s.halt).params = s.params := rfl
@[simp] theorem State.halt_pending : (s.halt).pending = s.pending := rfl
@[simp] theorem State.halt_input : (s.halt).input = s.input := rfl
@[simp] theorem State.halt_inputEnded : (s.halt).inputEnded = s.inputEnded := rfl
@[simp] theorem State.halt_draws : (s.halt).draws = s.draws := rfl
@[simp] theorem State.halt_polls : (s.halt).polls = s.polls := rfl
@[simp] theorem State.halt_output : (s.halt).output = s.output := rfl
@[simp] theorem State.halt_reg (q : Reg) : (s.halt).reg q = s.reg q := rfl
@[simp] theorem State.halt_cell (c : Word) : (s.halt).cell c = s.cell c := rfl

/-! `trapReturn`. -/

@[simp] theorem State.trapReturn_regs : (s.trapReturn).regs = s.regs := rfl
@[simp] theorem State.trapReturn_pc : (s.trapReturn).pc = s.pc := rfl
@[simp] theorem State.trapReturn_cond : (s.trapReturn).cond = s.cond := rfl
@[simp] theorem State.trapReturn_mem : (s.trapReturn).mem = s.mem := rfl
@[simp] theorem State.trapReturn_run : (s.trapReturn).run = s.run := rfl
@[simp] theorem State.trapReturn_params : (s.trapReturn).params = s.params := rfl
@[simp] theorem State.trapReturn_pending : (s.trapReturn).pending = .idle := rfl
@[simp] theorem State.trapReturn_input : (s.trapReturn).input = s.input := rfl
@[simp] theorem State.trapReturn_inputEnded : (s.trapReturn).inputEnded = s.inputEnded := rfl
@[simp] theorem State.trapReturn_draws : (s.trapReturn).draws = s.draws := rfl
@[simp] theorem State.trapReturn_polls : (s.trapReturn).polls = s.polls := rfl
@[simp] theorem State.trapReturn_output : (s.trapReturn).output = s.output := rfl
@[simp] theorem State.trapReturn_reg (q : Reg) : (s.trapReturn).reg q = s.reg q := rfl
@[simp] theorem State.trapReturn_cell (c : Word) : (s.trapReturn).cell c = s.cell c := rfl

/-! `suspend`. -/

@[simp] theorem State.suspend_regs (p : Pending) : (s.suspend p).regs = s.regs := rfl
@[simp] theorem State.suspend_pc (p : Pending) : (s.suspend p).pc = s.pc := rfl
@[simp] theorem State.suspend_cond (p : Pending) : (s.suspend p).cond = s.cond := rfl
@[simp] theorem State.suspend_mem (p : Pending) : (s.suspend p).mem = s.mem := rfl
@[simp] theorem State.suspend_run (p : Pending) : (s.suspend p).run = s.run := rfl
@[simp] theorem State.suspend_params (p : Pending) : (s.suspend p).params = s.params := rfl
@[simp] theorem State.suspend_pending (p : Pending) : (s.suspend p).pending = p := rfl
@[simp] theorem State.suspend_input (p : Pending) : (s.suspend p).input = s.input := rfl
@[simp] theorem State.suspend_inputEnded (p : Pending) : (s.suspend p).inputEnded = s.inputEnded := rfl
@[simp] theorem State.suspend_draws (p : Pending) : (s.suspend p).draws = s.draws := rfl
@[simp] theorem State.suspend_polls (p : Pending) : (s.suspend p).polls = s.polls := rfl
@[simp] theorem State.suspend_output (p : Pending) : (s.suspend p).output = s.output := rfl
@[simp] theorem State.suspend_reg (p : Pending) (q : Reg) : (s.suspend p).reg q = s.reg q := rfl
@[simp] theorem State.suspend_cell (p : Pending) (c : Word) : (s.suspend p).cell c = s.cell c := rfl

end Sys2Proof.Machine
end

