-- ==== Sys2Proof/Laws/Ops.lean ====
section
/-! SUPPORT. What each shared operation can do, said once: registers, cells, the poll, the bus read, the
blocking read, the link, the flag update and the fetch. -/

namespace Sys2Proof.Machine

/-! Registers. -/

theorem regGet_regSet (f : RegFile) (r q : Reg) (v : Word) :
    regGet (regSet f r v) q = if q = r then v else regGet f q := by
  cases r <;> cases q <;> rfl

@[simp] theorem State.reg_setReg (s : State) (r q : Reg) (v : Word) :
    (s.setReg r v).reg q = if q = r then v else s.reg q :=
  regGet_regSet s.regs r q v

/-- Two states with the same registers read the same. -/
theorem State.reg_eq_of_regs {s t : State} (h : t.regs = s.regs) (q : Reg) : t.reg q = s.reg q := by
  simp [State.reg, h]

/-! Cells. -/

theorem State.cell_setCell_other (s : State) {a b : Word} (v : Word) (hne : b ≠ a) :
    (s.setCell a v).cell b = s.cell b :=
  Memory.read_write_other s.mem v (fun h => hne (BitVec.eq_of_toNat_eq h))

theorem State.cell_setCell_same (s : State) (a v : Word) (h : Memory.wf s.mem = true) :
    (s.setCell a v).cell a = v :=
  Memory.read_write_same v h

/-- Everything a cell write does to the cells of a canonical memory. -/
theorem State.cell_setCell (s : State) (a b v : Word) (h : Memory.wf s.mem = true) :
    (s.setCell a v).cell b = if b = a then v else s.cell b := by
  split
  · next hab => rw [hab, State.cell_setCell_same s a v h]
  · next hne => exact State.cell_setCell_other s v hne

/-- Two states with the same memory read the same cells. -/
theorem State.cell_eq_of_mem {s t : State} (h : t.mem = s.mem) (a : Word) : t.cell a = s.cell a := by
  simp [State.cell, h]

/-! The poll (70_reset_and_hazards.md rule R190). -/

/-- The two outcomes of a poll: the next character, consumed, where the stream has one and the draw
finds it; else none. -/
theorem State.poll_cases (s : State) :
    (∃ c rest, s.input = c :: rest ∧ s.nextDraw = true ∧
      s.poll = (some c, { s with draws := s.draws.tail, polls := s.polls + 1, input := rest })) ∨
    ((s.input = [] ∨ s.nextDraw = false) ∧
      s.poll = (none, { s with draws := s.draws.tail, polls := s.polls + 1 })) := by
  unfold State.poll
  cases hi : s.input with
  | nil => exact .inr ⟨.inl rfl, by simp⟩
  | cons c rest =>
    cases hd : s.nextDraw with
    | true => exact .inl ⟨c, rest, rfl, rfl, by simp⟩
    | false => exact .inr ⟨.inr rfl, by simp⟩

/-- The two outcomes of the keyboard poll (20_memory.md rule R44). -/
theorem State.keyboardPoll_cases (s : State) :
    (∃ c rest, s.input = c :: rest ∧ s.nextDraw = true ∧
      s.keyboardPoll = { s with
        draws := s.draws.tail, polls := s.polls + 1, input := rest
        mem := Memory.write
          (Memory.write s.mem s.params.kbsrAddr.toNat (s.cell s.params.kbsrAddr ||| 0x8000))
          s.params.kbdrAddr.toNat (zext16 c) }) ∨
    ((s.input = [] ∨ s.nextDraw = false) ∧
      s.keyboardPoll = { s with
        draws := s.draws.tail, polls := s.polls + 1
        mem := Memory.write s.mem s.params.kbsrAddr.toNat (s.cell s.params.kbsrAddr &&& 0x7FFF) }) := by
  rcases s.poll_cases with ⟨c, rest, hi, hd, h⟩ | ⟨hi, h⟩
  · exact .inl ⟨c, rest, hi, hd, by simp only [State.keyboardPoll, h]; rfl⟩
  · exact .inr ⟨hi, by simp only [State.keyboardPoll, h]; rfl⟩

@[simp] theorem State.keyboardPoll_regs (s : State) : s.keyboardPoll.regs = s.regs := by
  rcases s.keyboardPoll_cases with ⟨_, _, _, _, h⟩ | ⟨_, h⟩ <;> rw [h]
@[simp] theorem State.keyboardPoll_reg (s : State) (q : Reg) : s.keyboardPoll.reg q = s.reg q :=
  State.reg_eq_of_regs s.keyboardPoll_regs q
@[simp] theorem State.keyboardPoll_pc (s : State) : s.keyboardPoll.pc = s.pc := by
  rcases s.keyboardPoll_cases with ⟨_, _, _, _, h⟩ | ⟨_, h⟩ <;> rw [h]
@[simp] theorem State.keyboardPoll_cond (s : State) : s.keyboardPoll.cond = s.cond := by
  rcases s.keyboardPoll_cases with ⟨_, _, _, _, h⟩ | ⟨_, h⟩ <;> rw [h]
@[simp] theorem State.keyboardPoll_run (s : State) : s.keyboardPoll.run = s.run := by
  rcases s.keyboardPoll_cases with ⟨_, _, _, _, h⟩ | ⟨_, h⟩ <;> rw [h]
@[simp] theorem State.keyboardPoll_params (s : State) : s.keyboardPoll.params = s.params := by
  rcases s.keyboardPoll_cases with ⟨_, _, _, _, h⟩ | ⟨_, h⟩ <;> rw [h]
@[simp] theorem State.keyboardPoll_pending (s : State) : s.keyboardPoll.pending = s.pending := by
  rcases s.keyboardPoll_cases with ⟨_, _, _, _, h⟩ | ⟨_, h⟩ <;> rw [h]
@[simp] theorem State.keyboardPoll_inputEnded (s : State) :
    s.keyboardPoll.inputEnded = s.inputEnded := by
  rcases s.keyboardPoll_cases with ⟨_, _, _, _, h⟩ | ⟨_, h⟩ <;> rw [h]
@[simp] theorem State.keyboardPoll_output (s : State) : s.keyboardPoll.output = s.output := by
  rcases s.keyboardPoll_cases with ⟨_, _, _, _, h⟩ | ⟨_, h⟩ <;> rw [h]
@[simp] theorem State.keyboardPoll_polls (s : State) : s.keyboardPoll.polls = s.polls + 1 := by
  rcases s.keyboardPoll_cases with ⟨_, _, _, _, h⟩ | ⟨_, h⟩ <;> rw [h]
@[simp] theorem State.keyboardPoll_draws (s : State) : s.keyboardPoll.draws = s.draws.tail := by
  rcases s.keyboardPoll_cases with ⟨_, _, _, _, h⟩ | ⟨_, h⟩ <;> rw [h]

/-- A poll consumes at most the next character. -/
theorem State.keyboardPoll_input (s : State) :
    ∃ used, s.input = used ++ s.keyboardPoll.input := by
  rcases s.keyboardPoll_cases with ⟨c, rest, hi, _, h⟩ | ⟨_, h⟩
  · exact ⟨[c], by rw [h, hi]; rfl⟩
  · exact ⟨[], by rw [h]; rfl⟩

/-- A poll changes no cell but the two keyboard cells. -/
theorem State.keyboardPoll_cell (s : State) {a : Word} (h1 : a ≠ s.params.kbsrAddr)
    (h2 : a ≠ s.params.kbdrAddr) : s.keyboardPoll.cell a = s.cell a := by
  have n1 : a.toNat ≠ s.params.kbsrAddr.toNat := fun h => h1 (BitVec.eq_of_toNat_eq h)
  have n2 : a.toNat ≠ s.params.kbdrAddr.toNat := fun h => h2 (BitVec.eq_of_toNat_eq h)
  rcases s.keyboardPoll_cases with ⟨_, _, _, _, h⟩ | ⟨_, h⟩ <;>
    simp [State.cell, h, Memory.read_write_other, n1, n2]

theorem State.keyboardPoll_wf {s : State} (h : Memory.wf s.mem = true) :
    Memory.wf s.keyboardPoll.mem = true := by
  rcases s.keyboardPoll_cases with ⟨_, _, _, _, e⟩ | ⟨_, e⟩ <;> rw [e]
  · exact Memory.wf_write _ _ (Memory.wf_write _ _ h)
  · exact Memory.wf_write _ _ h

/-! The bus read (20_memory.md rule R43). -/

/-- A read of any cell but the keyboard-status cell returns the stored cell and changes nothing. -/
theorem State.memRead_plain {s : State} {a : Word} (h : a ≠ s.params.kbsrAddr) :
    s.memRead a = (s.cell a, s) := by
  simp [State.memRead, h]

/-- A read of the keyboard-status cell polls and returns the cell after the poll. -/
theorem State.memRead_kbsr (s : State) :
    s.memRead s.params.kbsrAddr = (s.keyboardPoll.cell s.params.kbsrAddr, s.keyboardPoll) := by
  simp [State.memRead]

/-- What a bus read leaves the state as: unchanged, or polled. -/
theorem State.memRead_state (s : State) (a : Word) :
    (s.memRead a).2 = s ∨ (s.memRead a).2 = s.keyboardPoll := by
  unfold State.memRead
  split
  · exact .inr rfl
  · exact .inl rfl

/-- The value read is the cell in the state after the read. -/
theorem State.memRead_value (s : State) (a : Word) : (s.memRead a).1 = (s.memRead a).2.cell a := by
  unfold State.memRead
  split <;> rfl

section
variable (s : State) (a : Word)

@[simp] theorem State.memRead_regs : (s.memRead a).2.regs = s.regs := by
  rcases s.memRead_state a with h | h <;> simp [h]
@[simp] theorem State.memRead_reg (q : Reg) : (s.memRead a).2.reg q = s.reg q :=
  State.reg_eq_of_regs (s.memRead_regs a) q
@[simp] theorem State.memRead_pc : (s.memRead a).2.pc = s.pc := by
  rcases s.memRead_state a with h | h <;> simp [h]
@[simp] theorem State.memRead_cond : (s.memRead a).2.cond = s.cond := by
  rcases s.memRead_state a with h | h <;> simp [h]
@[simp] theorem State.memRead_run : (s.memRead a).2.run = s.run := by
  rcases s.memRead_state a with h | h <;> simp [h]
@[simp] theorem State.memRead_params : (s.memRead a).2.params = s.params := by
  rcases s.memRead_state a with h | h <;> simp [h]
@[simp] theorem State.memRead_pending : (s.memRead a).2.pending = s.pending := by
  rcases s.memRead_state a with h | h <;> simp [h]
@[simp] theorem State.memRead_inputEnded : (s.memRead a).2.inputEnded = s.inputEnded := by
  rcases s.memRead_state a with h | h <;> simp [h]
@[simp] theorem State.memRead_output : (s.memRead a).2.output = s.output := by
  rcases s.memRead_state a with h | h <;> simp [h]

theorem State.memRead_input : ∃ used, s.input = used ++ (s.memRead a).2.input := by
  rcases s.memRead_state a with h | h
  · exact ⟨[], by rw [h]; rfl⟩
  · rw [h]; exact s.keyboardPoll_input

theorem State.memRead_cell {b : Word} (h1 : b ≠ s.params.kbsrAddr) (h2 : b ≠ s.params.kbdrAddr) :
    (s.memRead a).2.cell b = s.cell b := by
  rcases s.memRead_state a with h | h
  · rw [h]
  · rw [h]; exact s.keyboardPoll_cell h1 h2

theorem State.memRead_wf (h : Memory.wf s.mem = true) : Memory.wf (s.memRead a).2.mem = true := by
  rcases s.memRead_state a with e | e
  · rwa [e]
  · rw [e]; exact State.keyboardPoll_wf h

end

/-! The bus write (20_memory.md rule R45). -/

theorem State.memWrite_eq (s : State) (a v : Word) : s.memWrite a v = s.setCell a v := rfl

/-! The blocking read (70_reset_and_hazards.md rule R191). -/

/-- The three outcomes of the blocking read. -/
theorem State.blockRead_cases (s : State) :
    (∃ c rest, s.input = c :: rest ∧ s.blockRead = (.char c, { s with input := rest })) ∨
    (s.input = [] ∧ s.inputEnded = true ∧ s.blockRead = (.endOfStream, s)) ∨
    (s.input = [] ∧ s.inputEnded = false ∧ s.blockRead = (.wait, s)) := by
  unfold State.blockRead
  cases hi : s.input with
  | cons c rest => exact .inl ⟨c, rest, rfl, rfl⟩
  | nil =>
    cases he : s.inputEnded with
    | true => exact .inr (.inl ⟨rfl, rfl, rfl⟩)
    | false => exact .inr (.inr ⟨rfl, rfl, rfl⟩)

/-! TRAP entry (43_trap.md rule R126) and the flag update of GETC and IN. -/

/-- The link writes R7 under `TRAP_LINKS_R7`, and nothing else. -/
theorem State.trapEntry_eq (s : State) :
    s.trapEntry = if s.params.trapLinksR7 then s.setReg .r7 s.pc else s := rfl

theorem State.trapEntry_reg (s : State) (q : Reg) :
    s.trapEntry.reg q = if q = .r7 ∧ s.params.trapLinksR7 = true then s.pc else s.reg q := by
  unfold State.trapEntry
  cases s.params.trapLinksR7 <;> simp

section
variable (s : State)

@[simp] theorem State.trapEntry_pc : s.trapEntry.pc = s.pc := by unfold State.trapEntry; split <;> rfl
@[simp] theorem State.trapEntry_cond : s.trapEntry.cond = s.cond := by
  unfold State.trapEntry; split <;> rfl
@[simp] theorem State.trapEntry_mem : s.trapEntry.mem = s.mem := by unfold State.trapEntry; split <;> rfl
@[simp] theorem State.trapEntry_run : s.trapEntry.run = s.run := by unfold State.trapEntry; split <;> rfl
@[simp] theorem State.trapEntry_params : s.trapEntry.params = s.params := by
  unfold State.trapEntry; split <;> rfl
@[simp] theorem State.trapEntry_pending : s.trapEntry.pending = s.pending := by
  unfold State.trapEntry; split <;> rfl
@[simp] theorem State.trapEntry_input : s.trapEntry.input = s.input := by
  unfold State.trapEntry; split <;> rfl
@[simp] theorem State.trapEntry_inputEnded : s.trapEntry.inputEnded = s.inputEnded := by
  unfold State.trapEntry; split <;> rfl
@[simp] theorem State.trapEntry_draws : s.trapEntry.draws = s.draws := by
  unfold State.trapEntry; split <;> rfl
@[simp] theorem State.trapEntry_polls : s.trapEntry.polls = s.polls := by
  unfold State.trapEntry; split <;> rfl
@[simp] theorem State.trapEntry_output : s.trapEntry.output = s.output := by
  unfold State.trapEntry; split <;> rfl
@[simp] theorem State.trapEntry_cell (a : Word) : s.trapEntry.cell a = s.cell a :=
  State.cell_eq_of_mem s.trapEntry_mem a

end

/-- GETC and IN leave every field but the flag as it is, and the flag too unless the parameter says
otherwise. -/
theorem State.inputFlags_eq (s : State) :
    s.inputFlags = { s with
      cond := if s.params.trapInputSetsFlags then condOf (s.reg .r0) else s.cond } := by
  unfold State.inputFlags
  split <;> rfl

/-! A flag-setting write (10_state.md rule R26). -/

/-- Everything a flag-setting write does. -/
theorem State.writeResult_eq (s : State) (dr : Reg) (v : Word) :
    s.writeResult dr v = { s with regs := regSet s.regs dr v, cond := condOf v } := by
  unfold State.writeResult
  rw [State.reg_setReg, if_pos rfl]
  rfl

@[simp] theorem State.writeResult_reg (s : State) (dr q : Reg) (v : Word) :
    (s.writeResult dr v).reg q = if q = dr then v else s.reg q := by
  rw [State.writeResult_eq]; exact regGet_regSet s.regs dr q v
@[simp] theorem State.writeResult_cond (s : State) (dr : Reg) (v : Word) :
    (s.writeResult dr v).cond = condOf v := by rw [State.writeResult_eq]
@[simp] theorem State.writeResult_cell (s : State) (dr : Reg) (v a : Word) :
    (s.writeResult dr v).cell a = s.cell a := by rw [State.writeResult_eq]; rfl

@[simp] theorem State.writeResult_pc (s : State) (dr : Reg) (v : Word) :
    (s.writeResult dr v).pc = s.pc := by rw [State.writeResult_eq]
@[simp] theorem State.writeResult_mem (s : State) (dr : Reg) (v : Word) :
    (s.writeResult dr v).mem = s.mem := by rw [State.writeResult_eq]
@[simp] theorem State.writeResult_run (s : State) (dr : Reg) (v : Word) :
    (s.writeResult dr v).run = s.run := by rw [State.writeResult_eq]
@[simp] theorem State.writeResult_params (s : State) (dr : Reg) (v : Word) :
    (s.writeResult dr v).params = s.params := by rw [State.writeResult_eq]
@[simp] theorem State.writeResult_pending (s : State) (dr : Reg) (v : Word) :
    (s.writeResult dr v).pending = s.pending := by rw [State.writeResult_eq]
@[simp] theorem State.writeResult_input (s : State) (dr : Reg) (v : Word) :
    (s.writeResult dr v).input = s.input := by rw [State.writeResult_eq]
@[simp] theorem State.writeResult_inputEnded (s : State) (dr : Reg) (v : Word) :
    (s.writeResult dr v).inputEnded = s.inputEnded := by rw [State.writeResult_eq]
@[simp] theorem State.writeResult_draws (s : State) (dr : Reg) (v : Word) :
    (s.writeResult dr v).draws = s.draws := by rw [State.writeResult_eq]
@[simp] theorem State.writeResult_polls (s : State) (dr : Reg) (v : Word) :
    (s.writeResult dr v).polls = s.polls := by rw [State.writeResult_eq]
@[simp] theorem State.writeResult_output (s : State) (dr : Reg) (v : Word) :
    (s.writeResult dr v).output = s.output := by rw [State.writeResult_eq]

/-! The flag (10_state.md rule R25). -/

theorem condOf_eq_z {v : Word} : condOf v = .z ↔ v = 0 := by
  unfold condOf; split
  · simp_all
  · split <;> simp_all
theorem condOf_eq_n {v : Word} : condOf v = .n ↔ v.getLsbD 15 = true := by
  unfold condOf; split
  · simp_all
  · split <;> simp_all

/-! The fetch (30_encoding.md rule R82). -/

theorem State.fetch_word (s : State) : s.fetch.1 = (s.memRead s.pc).1 := rfl
theorem State.fetch_state (s : State) : s.fetch.2 = { (s.memRead s.pc).2 with pc := s.pc + 1 } := rfl

/-- A fetch anywhere but at the keyboard-status cell changes nothing but the PC. -/
theorem State.fetch_plain {s : State} (h : s.pc ≠ s.params.kbsrAddr) :
    s.fetch = (s.cell s.pc, { s with pc := s.pc + 1 }) := by
  simp [State.fetch, State.memRead_plain h]

end Sys2Proof.Machine
end

