-- ==== Sys2Proof/Laws/PerInstr.lean ====
section
/-! SUPPORT. A statement about every instruction as syntax, lemma by lemma: the encoder writes the
instruction's own opcode (30_encoding.md rules R61, R65). -/

namespace Sys2Proof.Laws

open Sys2Proof

/-- The opcode of an instruction form (30_encoding.md rule R65). -/
def opcodeOf : Instr → Opcode
  | .br _ _ _ _ => .br
  | .addReg _ _ _ => .add
  | .addImm _ _ _ => .add
  | .ld _ _ => .ld
  | .st _ _ => .st
  | .jsr _ => .jsr
  | .jsrr _ => .jsr
  | .andReg _ _ _ => .and
  | .andImm _ _ _ => .and
  | .ldr _ _ _ => .ldr
  | .str _ _ _ => .str
  | .rti _ => .rti
  | .not _ _ => .not
  | .ldi _ _ => .ldi
  | .sti _ _ => .sti
  | .jmp _ => .jmp
  | .res _ => .res
  | .lea _ _ => .lea
  | .trap _ _ => .trap
  | .getc _ => .trap
  | .out => .trap
  | .puts => .trap
  | .inp _ => .trap
  | .putsp => .trap
  | .halt => .trap
  | .ret => .jmp

/-- A word whose top four bits are those of `op` has `op` in its opcode field. -/
theorem opcode_top {w : Word} {op : BitVec 4}
    (h : ∀ i, i < 4 → w.getLsbD (12 + i) = op.getLsbD i) : fieldOp w = op := by
  apply BitVec.eq_of_getLsbD_eq
  intro i hi
  simp only [fieldOp, BitVec.getLsbD_extractLsb', hi, decide_true, Bool.true_and]
  exact h i hi

/-- The opcode field of an instruction's word is the number of its opcode. -/
def OpcodeOfWord.Statement (i : Instr) : Prop := fieldOp (encode i) = (opcodeOf i).toBits

theorem OpcodeOfWord.br (n : Bool) (z : Bool) (p : Bool) (off : Word) :
    OpcodeOfWord.Statement (.br n z p off) := opcode_top (by
    intro i hi
    simp only [encode, opcodeOf, BitVec.getLsbD_append]
    interval_cases i <;> simp)

theorem OpcodeOfWord.addReg (dr : Reg) (sr1 : Reg) (sr2 : Reg) :
    OpcodeOfWord.Statement (.addReg dr sr1 sr2) := opcode_top (by
    intro i hi
    simp only [encode, opcodeOf, oprWord, BitVec.getLsbD_append]
    interval_cases i <;> simp)

theorem OpcodeOfWord.addImm (dr : Reg) (sr1 : Reg) (imm : Word) :
    OpcodeOfWord.Statement (.addImm dr sr1 imm) := opcode_top (by
    intro i hi
    simp only [encode, opcodeOf, opiWord, BitVec.getLsbD_append]
    interval_cases i <;> simp)

theorem OpcodeOfWord.ld (dr : Reg) (off : Word) :
    OpcodeOfWord.Statement (.ld dr off) := opcode_top (by
    intro i hi
    simp only [encode, opcodeOf, pcrelWord, BitVec.getLsbD_append]
    interval_cases i <;> simp)

theorem OpcodeOfWord.st (sr : Reg) (off : Word) :
    OpcodeOfWord.Statement (.st sr off) := opcode_top (by
    intro i hi
    simp only [encode, opcodeOf, pcrelWord, BitVec.getLsbD_append]
    interval_cases i <;> simp)

theorem OpcodeOfWord.jsr (off : Word) :
    OpcodeOfWord.Statement (.jsr off) := opcode_top (by
    intro i hi
    simp only [encode, opcodeOf, BitVec.getLsbD_append]
    interval_cases i <;> simp)

theorem OpcodeOfWord.jsrr (base : Reg) :
    OpcodeOfWord.Statement (.jsrr base) := opcode_top (by
    intro i hi
    simp only [encode, opcodeOf, jumpWord, BitVec.getLsbD_append]
    interval_cases i <;> simp)

theorem OpcodeOfWord.andReg (dr : Reg) (sr1 : Reg) (sr2 : Reg) :
    OpcodeOfWord.Statement (.andReg dr sr1 sr2) := opcode_top (by
    intro i hi
    simp only [encode, opcodeOf, oprWord, BitVec.getLsbD_append]
    interval_cases i <;> simp)

theorem OpcodeOfWord.andImm (dr : Reg) (sr1 : Reg) (imm : Word) :
    OpcodeOfWord.Statement (.andImm dr sr1 imm) := opcode_top (by
    intro i hi
    simp only [encode, opcodeOf, opiWord, BitVec.getLsbD_append]
    interval_cases i <;> simp)

theorem OpcodeOfWord.ldr (dr : Reg) (base : Reg) (off : Word) :
    OpcodeOfWord.Statement (.ldr dr base off) := opcode_top (by
    intro i hi
    simp only [encode, opcodeOf, baseWord, BitVec.getLsbD_append]
    interval_cases i <;> simp)

theorem OpcodeOfWord.str (sr : Reg) (base : Reg) (off : Word) :
    OpcodeOfWord.Statement (.str sr base off) := opcode_top (by
    intro i hi
    simp only [encode, opcodeOf, baseWord, BitVec.getLsbD_append]
    interval_cases i <;> simp)

theorem OpcodeOfWord.rti (ign : BitVec 12) :
    OpcodeOfWord.Statement (.rti ign) := opcode_top (by
    intro i hi
    simp only [encode, opcodeOf, BitVec.getLsbD_append]
    interval_cases i <;> simp)

theorem OpcodeOfWord.not (dr : Reg) (sr : Reg) :
    OpcodeOfWord.Statement (.not dr sr) := opcode_top (by
    intro i hi
    simp only [encode, opcodeOf, BitVec.getLsbD_append]
    interval_cases i <;> simp)

theorem OpcodeOfWord.ldi (dr : Reg) (off : Word) :
    OpcodeOfWord.Statement (.ldi dr off) := opcode_top (by
    intro i hi
    simp only [encode, opcodeOf, pcrelWord, BitVec.getLsbD_append]
    interval_cases i <;> simp)

theorem OpcodeOfWord.sti (sr : Reg) (off : Word) :
    OpcodeOfWord.Statement (.sti sr off) := opcode_top (by
    intro i hi
    simp only [encode, opcodeOf, pcrelWord, BitVec.getLsbD_append]
    interval_cases i <;> simp)

theorem OpcodeOfWord.jmp (base : Reg) :
    OpcodeOfWord.Statement (.jmp base) := opcode_top (by
    intro i hi
    simp only [encode, opcodeOf, jumpWord, BitVec.getLsbD_append]
    interval_cases i <;> simp)

theorem OpcodeOfWord.res (ign : BitVec 12) :
    OpcodeOfWord.Statement (.res ign) := opcode_top (by
    intro i hi
    simp only [encode, opcodeOf, BitVec.getLsbD_append]
    interval_cases i <;> simp)

theorem OpcodeOfWord.lea (dr : Reg) (off : Word) :
    OpcodeOfWord.Statement (.lea dr off) := opcode_top (by
    intro i hi
    simp only [encode, opcodeOf, pcrelWord, BitVec.getLsbD_append]
    interval_cases i <;> simp)

theorem OpcodeOfWord.trap (ign : BitVec 4) (vect : BitVec 8) :
    OpcodeOfWord.Statement (.trap ign vect) := opcode_top (by
    intro i hi
    simp only [encode, opcodeOf, trapWord, BitVec.getLsbD_append]
    interval_cases i <;> simp)

theorem OpcodeOfWord.getc (ign : BitVec 4) :
    OpcodeOfWord.Statement (.getc ign) := opcode_top (by
    intro i hi
    simp only [encode, opcodeOf, trapWord, BitVec.getLsbD_append]
    interval_cases i <;> simp)

theorem OpcodeOfWord.out :
    OpcodeOfWord.Statement .out := opcode_top (by
    intro i hi
    simp only [encode, opcodeOf, trapWord, BitVec.getLsbD_append]
    interval_cases i <;> simp)

theorem OpcodeOfWord.puts :
    OpcodeOfWord.Statement .puts := opcode_top (by
    intro i hi
    simp only [encode, opcodeOf, trapWord, BitVec.getLsbD_append]
    interval_cases i <;> simp)

theorem OpcodeOfWord.inp (ign : BitVec 4) :
    OpcodeOfWord.Statement (.inp ign) := opcode_top (by
    intro i hi
    simp only [encode, opcodeOf, trapWord, BitVec.getLsbD_append]
    interval_cases i <;> simp)

theorem OpcodeOfWord.putsp :
    OpcodeOfWord.Statement .putsp := opcode_top (by
    intro i hi
    simp only [encode, opcodeOf, trapWord, BitVec.getLsbD_append]
    interval_cases i <;> simp)

theorem OpcodeOfWord.halt :
    OpcodeOfWord.Statement .halt := opcode_top (by
    intro i hi
    simp only [encode, opcodeOf, trapWord, BitVec.getLsbD_append]
    interval_cases i <;> simp)

theorem OpcodeOfWord.ret :
    OpcodeOfWord.Statement .ret := opcode_top (by
    intro i hi
    simp only [encode, opcodeOf, jumpWord, BitVec.getLsbD_append]
    interval_cases i <;> simp)

end Sys2Proof.Laws
end

