-- ==== Sys2Proof/Laws/Routines.lean ====
section
/-! SUPPORT. What the TRAP routines can do: the end of GETC and IN for each answer of the blocking read,
and what the scans leave as it was, however long they are. -/

namespace Sys2Proof.Machine

/-! GETC and IN. -/

/-- The state after a character has been put in R0: R0, perhaps the flag, and no routine in progress. -/
theorem State.getcFinish_char (s : State) (word : Word) (c : Byte) :
    s.getcFinish word (.char c) = { s with
      regs := regSet s.regs .r0 (zext16 c)
      cond := if s.params.trapInputSetsFlags then condOf (zext16 c) else s.cond
      pending := .idle } := by
  simp [State.getcFinish, State.inputFlags_eq, State.trapReturn, State.setReg, State.reg,
    regGet_regSet]

theorem State.inFinish_char (s : State) (word : Word) (c : Byte) :
    s.inFinish word (.char c) = { s with
      regs := regSet s.regs .r0 (zext16 c)
      cond := if s.params.trapInputSetsFlags then condOf (zext16 c) else s.cond
      output := s.output ++ [c]
      pending := .idle } := by
  simp [State.inFinish, State.inputFlags_eq, State.trapReturn, State.setReg, State.reg,
    State.writeByte, regGet_regSet]

/-- The three ways GETC goes on from its blocking read. -/
theorem State.getcRead_cases (s : State) (word : Word) :
    (∃ c rest, s.input = c :: rest ∧
      s.getcRead word = ({ s with input := rest } : State).getcFinish word (.char c)) ∨
    (s.input = [] ∧ s.inputEnded = true ∧
      s.getcRead word = (s.raise .inputUnavailable word).trapReturn) ∨
    (s.input = [] ∧ s.inputEnded = false ∧ s.getcRead word = s.suspend (.waitGetc word)) := by
  rcases s.blockRead_cases with ⟨c, rest, hi, h⟩ | ⟨hi, he, h⟩ | ⟨hi, he, h⟩
  · exact .inl ⟨c, rest, hi, by rw [State.getcRead, h]⟩
  · exact .inr (.inl ⟨hi, he, by rw [State.getcRead, h]; rfl⟩)
  · exact .inr (.inr ⟨hi, he, by rw [State.getcRead, h]; rfl⟩)

/-- The three ways IN goes on from its blocking read. -/
theorem State.inRead_cases (s : State) (word : Word) :
    (∃ c rest, s.input = c :: rest ∧
      s.inRead word = ({ s with input := rest } : State).inFinish word (.char c)) ∨
    (s.input = [] ∧ s.inputEnded = true ∧
      s.inRead word = (s.raise .inputUnavailable word).trapReturn) ∨
    (s.input = [] ∧ s.inputEnded = false ∧ s.inRead word = s.suspend (.waitIn word)) := by
  rcases s.blockRead_cases with ⟨c, rest, hi, h⟩ | ⟨hi, he, h⟩ | ⟨hi, he, h⟩
  · exact .inl ⟨c, rest, hi, by rw [State.inRead, h]⟩
  · exact .inr (.inl ⟨hi, he, by rw [State.inRead, h]; rfl⟩)
  · exact .inr (.inr ⟨hi, he, by rw [State.inRead, h]; rfl⟩)

/-! The scans. -/

/-- One round of PUTS. -/
theorem State.putsScan_succ (fuel : Nat) (a : Word) (s : State) :
    s.putsScan (fuel + 1) a =
      if (s.memRead a).1 = 0 then (s.memRead a).2.trapReturn
      else ((s.memRead a).2.writeByte (lowByte (s.memRead a).1)).putsScan fuel (a + 1) := rfl

/-- One round of PUTSP. -/
theorem State.putspScan_succ (fuel : Nat) (a : Word) (s : State) :
    s.putspScan (fuel + 1) a =
      if lowByte (s.memRead a).1 = 0 then (s.memRead a).2.trapReturn
      else if highByte (s.memRead a).1 = 0 then
        ((s.memRead a).2.writeByte (lowByte (s.memRead a).1)).trapReturn
      else
        (((s.memRead a).2.writeByte (lowByte (s.memRead a).1)).writeByte
          (highByte (s.memRead a).1)).putspScan fuel (a + 1) := rfl

/-- A relation between the states before and after that every part of a scan keeps, holds of the whole
scan: the one induction over PUTS. -/
theorem State.putsScan_induct (P : State → State → Prop)
    (htrans : ∀ s t u, P s t → P t u → P s u) (hread : ∀ s a, P s (s.memRead a).2)
    (hwrite : ∀ s b, P s (s.writeByte b)) (hpend : ∀ s p, P s (s.suspend p))
    (fuel : Nat) (a : Word) (s : State) : P s (s.putsScan fuel a) := by
  induction fuel generalizing a s with
  | zero => exact hpend s _
  | succ fuel ih =>
    rw [State.putsScan_succ]
    split
    · exact htrans _ _ _ (hread s a) (hpend _ _)
    · exact htrans _ _ _ (hread s a) (htrans _ _ _ (hwrite _ _) (ih _ _))

/-- The one induction over PUTSP. -/
theorem State.putspScan_induct (P : State → State → Prop)
    (htrans : ∀ s t u, P s t → P t u → P s u) (hread : ∀ s a, P s (s.memRead a).2)
    (hwrite : ∀ s b, P s (s.writeByte b)) (hpend : ∀ s p, P s (s.suspend p))
    (fuel : Nat) (a : Word) (s : State) : P s (s.putspScan fuel a) := by
  induction fuel generalizing a s with
  | zero => exact hpend s _
  | succ fuel ih =>
    rw [State.putspScan_succ]
    split
    · exact htrans _ _ _ (hread s a) (hpend _ _)
    · split
      · exact htrans _ _ _ (hread s a) (htrans _ _ _ (hwrite _ _) (hpend _ _))
      · exact htrans _ _ _ (hread s a)
          (htrans _ _ _ (hwrite _ _) (htrans _ _ _ (hwrite _ _) (ih _ _)))

/-- Where a scan stands when its step ends: done, or to go on. -/
theorem State.putsScan_pending (fuel : Nat) (a : Word) (s : State) :
    (s.putsScan fuel a).pending = .idle ∨
      (s.putsScan fuel a).pending = .scanPuts (a + BitVec.ofNat 16 fuel) := by
  induction fuel generalizing a s with
  | zero => right; simp [State.putsScan]
  | succ fuel ih =>
    rw [State.putsScan_succ]
    split
    · exact .inl rfl
    · rcases ih (a + 1) ((s.memRead a).2.writeByte (lowByte (s.memRead a).1)) with h | h
      · exact .inl h
      · right
        rw [h, BitVec.add_assoc, BitVec.ofNat_add]
        congr 2
        exact BitVec.add_comm _ _

theorem State.putspScan_pending (fuel : Nat) (a : Word) (s : State) :
    (s.putspScan fuel a).pending = .idle ∨
      (s.putspScan fuel a).pending = .scanPutsp (a + BitVec.ofNat 16 fuel) := by
  induction fuel generalizing a s with
  | zero => right; simp [State.putspScan]
  | succ fuel ih =>
    rw [State.putspScan_succ]
    split
    · exact .inl rfl
    · split
      · exact .inl rfl
      · rcases ih (a + 1) (((s.memRead a).2.writeByte (lowByte (s.memRead a).1)).writeByte
            (highByte (s.memRead a).1)) with h | h
        · exact .inl h
        · right
          rw [h, BitVec.add_assoc, BitVec.ofNat_add]
          congr 2
          exact BitVec.add_comm _ _

section
variable (fuel : Nat) (a : Word) (s : State)

@[simp] theorem State.putsScan_regs : (s.putsScan fuel a).regs = s.regs :=
  s.putsScan_induct (fun s t => t.regs = s.regs) (by intros; simp_all) (by simp) (by simp)
    (by simp) fuel a
@[simp] theorem State.putsScan_pc : (s.putsScan fuel a).pc = s.pc :=
  s.putsScan_induct (fun s t => t.pc = s.pc) (by intros; simp_all) (by simp) (by simp)
    (by simp) fuel a
@[simp] theorem State.putsScan_cond : (s.putsScan fuel a).cond = s.cond :=
  s.putsScan_induct (fun s t => t.cond = s.cond) (by intros; simp_all) (by simp) (by simp)
    (by simp) fuel a
@[simp] theorem State.putsScan_run : (s.putsScan fuel a).run = s.run :=
  s.putsScan_induct (fun s t => t.run = s.run) (by intros; simp_all) (by simp) (by simp)
    (by simp) fuel a
@[simp] theorem State.putsScan_params : (s.putsScan fuel a).params = s.params :=
  s.putsScan_induct (fun s t => t.params = s.params) (by intros; simp_all) (by simp)
    (by simp) (by simp) fuel a
@[simp] theorem State.putsScan_inputEnded : (s.putsScan fuel a).inputEnded = s.inputEnded :=
  s.putsScan_induct (fun s t => t.inputEnded = s.inputEnded) (by intros; simp_all) (by simp)
    (by simp) (by simp) fuel a
@[simp] theorem State.putspScan_regs : (s.putspScan fuel a).regs = s.regs :=
  s.putspScan_induct (fun s t => t.regs = s.regs) (by intros; simp_all) (by simp) (by simp)
    (by simp) fuel a
@[simp] theorem State.putspScan_pc : (s.putspScan fuel a).pc = s.pc :=
  s.putspScan_induct (fun s t => t.pc = s.pc) (by intros; simp_all) (by simp) (by simp)
    (by simp) fuel a
@[simp] theorem State.putspScan_cond : (s.putspScan fuel a).cond = s.cond :=
  s.putspScan_induct (fun s t => t.cond = s.cond) (by intros; simp_all) (by simp) (by simp)
    (by simp) fuel a
@[simp] theorem State.putspScan_run : (s.putspScan fuel a).run = s.run :=
  s.putspScan_induct (fun s t => t.run = s.run) (by intros; simp_all) (by simp) (by simp)
    (by simp) fuel a
@[simp] theorem State.putspScan_params : (s.putspScan fuel a).params = s.params :=
  s.putspScan_induct (fun s t => t.params = s.params) (by intros; simp_all) (by simp)
    (by simp) (by simp) fuel a
@[simp] theorem State.putspScan_inputEnded : (s.putspScan fuel a).inputEnded = s.inputEnded :=
  s.putspScan_induct (fun s t => t.inputEnded = s.inputEnded) (by intros; simp_all) (by simp)
    (by simp) (by simp) fuel a

end

end Sys2Proof.Machine
end

