-- ==== Sys2Proof/Laws/Step.lean ====
section
/-! SUPPORT. What a step can do, said once, and the two equations of the host's `run`. -/

namespace Sys2Proof.Machine

/-- Every way a step can have a next state (30_encoding.md rule R80): the machine runs, and either it
fetched and executed one instruction or it went on with the routine in progress. -/
theorem step_cases {s t : State} (h : step s = .next t) :
    s.run = .running ∧
      ((s.pending = .idle ∧ exec (decode s.fetch.1) s.fetch.2 = .next t) ∨
        (∃ w, s.pending = .waitGetc w ∧ s.blockRead.1 ≠ .wait ∧ t = s.getcRead w) ∨
        (∃ w, s.pending = .waitIn w ∧ s.blockRead.1 ≠ .wait ∧ t = s.inRead w) ∨
        (∃ a, s.pending = .scanPuts a ∧ t = s.putsScan scanRound a) ∨
        (∃ a, s.pending = .scanPutsp a ∧ t = s.putspScan scanRound a)) := by
  unfold step at h
  cases hr : s.run <;> rw [hr] at h <;> simp only [reduceCtorEq] at h
  refine ⟨rfl, ?_⟩
  unfold resumeRoutine at h
  cases hp : s.pending with
  | idle => rw [hp] at h; exact .inl ⟨rfl, h⟩
  | waitGetc w =>
    rw [hp] at h
    simp only [unlessWaiting] at h
    split at h
    · cases h
    · exact .inr (.inl ⟨w, rfl, ‹_›, by injection h with h; exact h.symm⟩)
  | waitIn w =>
    rw [hp] at h
    simp only [unlessWaiting] at h
    split at h
    · cases h
    · exact .inr (.inr (.inl ⟨w, rfl, ‹_›, by injection h with h; exact h.symm⟩))
  | scanPuts a =>
    rw [hp] at h
    exact .inr (.inr (.inr (.inl ⟨a, rfl, by injection h with h; exact h.symm⟩)))
  | scanPutsp a =>
    rw [hp] at h
    exact .inr (.inr (.inr (.inr ⟨a, rfl, by injection h with h; exact h.symm⟩)))

/-- The step of a machine that goes on with PUTS. -/
theorem step_scanPuts {s : State} {a : Word} (hr : s.run = .running) (hp : s.pending = .scanPuts a) :
    step s = .next (s.putsScan scanRound a) := by
  unfold step resumeRoutine; rw [hr, hp]

/-- The step of a machine that goes on with PUTSP. -/
theorem step_scanPutsp {s : State} {a : Word} (hr : s.run = .running)
    (hp : s.pending = .scanPutsp a) : step s = .next (s.putspScan scanRound a) := by
  unfold step resumeRoutine; rw [hr, hp]

/-- No step: the state itself. -/
theorem core_run_zero (s : State) : Sys2Proof.core.run 0 s = .next s := rfl

/-- One step and then `k` more. -/
theorem core_run_succ {s t : State} (k : Nat) (h : step s = .next t) :
    Sys2Proof.core.run (k + 1) s = Sys2Proof.core.run k t := by
  have h' : Sys2Proof.core.step s = .next t := h
  simp only [Host.Core.run, h']

end Sys2Proof.Machine
end

