-- ==== Sys2Proof/Tests/Slice0.lean ====
section
/-! SUPPORT. The model's own tests. The expected values are the vectors of 95_test_vectors.md (parts 1 and
2) or are worked out by hand from the rule a test names. The second half of the file shows, for every
statement with hypotheses, a state and operands that meet them (`witness_…`). -/

namespace Sys2Proof.Tests

open Sys2Proof Sys2Proof.Machine Sys2Proof.Config

/-! Well-formedness: an ill-formed term for each check. -/

theorem test_wf_offset9_refused :
    (Instr.br true true true 0x0100).wellFormed = false ∧ (Instr.ld .r0 0xFEFF).wellFormed = false ∧
    (Instr.st .r0 0x0100).wellFormed = false ∧ (Instr.ldi .r0 0xFEFF).wellFormed = false ∧
    (Instr.sti .r0 0x0100).wellFormed = false ∧ (Instr.lea .r0 0xFEFF).wellFormed = false := by decide

theorem test_wf_imm5_refused :
    (Instr.addImm .r0 .r0 0x0010).wellFormed = false ∧
    (Instr.andImm .r0 .r0 0xFFEF).wellFormed = false := by decide

theorem test_wf_offset6_refused :
    (Instr.ldr .r0 .r0 0x0020).wellFormed = false ∧ (Instr.str .r0 .r0 0xFFDF).wellFormed = false := by
  decide

theorem test_wf_offset11_refused :
    (Instr.jsr 0x0400).wellFormed = false ∧ (Instr.jsr 0xFBFF).wellFormed = false := by decide

theorem test_wf_named_vector_refused :
    (Instr.trap 0 0x20).wellFormed = false ∧ (Instr.trap 0 0x21).wellFormed = false ∧
    (Instr.trap 0 0x22).wellFormed = false ∧ (Instr.trap 0 0x23).wellFormed = false ∧
    (Instr.trap 0 0x24).wellFormed = false ∧ (Instr.trap 15 0x25).wellFormed = false := by decide

theorem test_wf_jmp_r7_refused : (Instr.jmp .r7).wellFormed = false := by decide

/-! Decoding: words written out bit by bit from the encodings of 30_encoding.md rule R63. -/

theorem test_decode_operate :
    decode 0b0001010001000101 = .addReg .r2 .r1 .r5 ∧
    decode 0b0001010001111011 = .addImm .r2 .r1 0xFFFB ∧
    decode 0b0101010001000101 = .andReg .r2 .r1 .r5 ∧
    decode 0b0101010001111100 = .andImm .r2 .r1 0xFFFC ∧
    decode 0b1001001010111111 = .not .r1 .r2 := by decide

theorem test_decode_control :
    decode 0b0000100000000001 = .br true false false 1 ∧
    decode 0b0000010000000100 = .br false true false 4 ∧
    decode 0b0000001111111011 = .br false false true 0xFFFB ∧
    decode 0b1100000010000000 = .jmp .r2 ∧ decode 0b1100000111000000 = .ret ∧
    decode 0b0100110000000000 = .jsr 0xFC00 ∧ decode 0b0100000011000000 = .jsrr .r3 := by decide

theorem test_decode_load_store :
    decode 0b0010010111111111 = .ld .r2 0xFFFF ∧ decode 0b1010011000000000 = .ldi .r3 0 ∧
    decode 0b0110001100100000 = .ldr .r1 .r4 0xFFE0 ∧ decode 0b1110000100000000 = .lea .r0 0xFF00 ∧
    decode 0b0011001000000011 = .st .r1 3 ∧ decode 0b1011010000000000 = .sti .r2 0 ∧
    decode 0b0111000101011111 = .str .r0 .r5 31 := by decide

theorem test_decode_trap :
    decode 0b1111000000100000 = .getc 0 ∧ decode 0b1111000000100001 = .out ∧
    decode 0b1111000000100010 = .puts ∧ decode 0b1111000000100011 = .inp 0 ∧
    decode 0b1111000000100100 = .putsp ∧ decode 0b1111111100100101 = .halt ∧
    decode 0b1111000011111111 = .trap 0 0xFF := by decide

theorem test_decode_reserved :
    decode 0b1101111111111111 = .res 0xFFF ∧ decode 0b1000000000000000 = .rti 0 := by decide

/-- 95_test_vectors.md L2.7: ignored bits. -/
theorem test_decode_ignored_bits :
    decode 0x1018 = .addReg .r0 .r0 .r0 ∧ decode 0x1000 = .addReg .r0 .r0 .r0 ∧
    decode 0x903F = .not .r0 .r0 ∧ decode 0x9000 = .not .r0 .r0 := by decide

/-- 95_test_vectors.md L2.1 to L2.5: words the encoder must write. -/
theorem test_encode_words :
    encode (.addImm .r1 .r1 0xFFFF) = 0x127F ∧ encode (.not .r1 .r2) = 0x92BF ∧
    encode (.br true true true 0xFF00) = 0x0F00 ∧ encode (.jsr 0x03FF) = 0x4BFF ∧
    encode (.jsrr .r7) = 0x41C0 ∧ encode .ret = 0xC1C0 ∧ encode (.ldr .r1 .r4 0xFFFF) = 0x633F ∧
    encode (.str .r5 .r5 0) = 0x7B40 ∧ encode .halt = 0xF025 ∧ encode (.res 0xFFF) = 0xDFFF := by
  decide

theorem test_decode_stream :
    decodeNext [] = .error .noWord ∧ decodeNext [0xF025, 0x0000] = .ok (.halt, [0x0000]) := by
  exact ⟨rfl, rfl⟩

theorem test_decodeTableWord : decodeTableWord 16 0x1025 = some (.addImm .r0 .r0 5) := by decide

/-! One step. -/

/-- The reset state with the PC at `pc` and the listed cells stored. -/
def start (pc : Word) (cells : List (Word × Word)) : State :=
  (cells.foldl (fun s c => s.setCell c.1 c.2) State.reset).setPc pc

/-- The outcome is a next state that meets the test. -/
def gives (o : Host.Outcome State Fault Refusal) (p : State → Bool) : Bool :=
  match o with
  | .next t => p t
  | .fault _ => false
  | .refused _ => false

/-- The start state with the reset parameters but `TRAP_INPUT_SETS_FLAGS` true. -/
def settingFlags (s : State) : State := { s with params.trapInputSetsFlags := true }

/-- The start state with the reset parameters but `TRAP_LINKS_R7` false. -/
def notLinking (s : State) : State := { s with params.trapLinksR7 := false }

-- L2.1
theorem test_add_reg_wraps :
    gives (step (((start 0x3000 [(0x3000, 0x1283)]).setReg .r2 0x0003).setReg .r3 0xFFFE))
      (fun t => t.reg .r1 == 0x0001 && t.reg .r2 == 0x0003 && t.cond == .p && t.pc == 0x3001) = true := by
  decide

theorem test_add_reg_same_register :
    gives (step ((start 0x3000 [(0x3000, 0x1241)]).setReg .r1 0x4000))
      (fun t => t.reg .r1 == 0x8000 && t.cond == .n) = true := by decide

theorem test_add_imm_negative :
    gives (step ((start 0x3000 [(0x3000, 0x1270)]).setReg .r1 0x0010))
      (fun t => t.reg .r1 == 0 && t.cond == .z) = true := by decide

theorem test_add_imm_overflow :
    gives (step ((start 0x3000 [(0x3000, 0x126F)]).setReg .r1 0x7FF1))
      (fun t => t.reg .r1 == 0x8000 && t.cond == .n) = true := by decide

theorem test_and_reg :
    gives (step (((start 0x3000 [(0x3000, 0x54C4)]).setReg .r3 0xF0F0).setReg .r4 0x0FF0))
      (fun t => t.reg .r2 == 0x00F0 && t.cond == .p) = true := by decide

theorem test_and_imm_mask :
    gives (step ((start 0x3000 [(0x3000, 0x5270)]).setReg .r1 0x800F))
      (fun t => t.reg .r1 == 0x8000 && t.cond == .n) = true := by decide

theorem test_not :
    gives (step ((start 0x3000 [(0x3000, 0x92BF)]).setReg .r2 0x00FF))
      (fun t => t.reg .r1 == 0xFF00 && t.reg .r2 == 0x00FF && t.cond == .n) = true := by decide

theorem test_not_same_register :
    gives (step ((start 0x3000 [(0x3000, 0x94BF)]).setReg .r2 0x8000))
      (fun t => t.reg .r2 == 0x7FFF && t.cond == .p) = true := by decide

-- L1.5: the eight words 0x0004, 0x0204, …, 0x0E04 against N, Z, P.
theorem test_br_every_flag :
    ([(0x0004, [0x3001, 0x3001, 0x3001]), (0x0204, [0x3001, 0x3001, 0x3005]),
      (0x0404, [0x3001, 0x3005, 0x3001]), (0x0604, [0x3001, 0x3005, 0x3005]),
      (0x0804, [0x3005, 0x3001, 0x3001]), (0x0A04, [0x3005, 0x3001, 0x3005]),
      (0x0C04, [0x3005, 0x3005, 0x3001]), (0x0E04, [0x3005, 0x3005, 0x3005])] :
        List (Word × List Word)).all (fun row =>
      (List.zip [Cond.n, Cond.z, Cond.p] row.2).all (fun c =>
        gives (step { start 0x3000 [(0x3000, row.1)] with cond := c.1 })
          (fun t => t.pc == c.2 && t.cond == c.1))) = true := by decide

-- L2.2
theorem test_br_wraps :
    gives (step (start 0xFFFF [(0xFFFF, 0x0FFF)])) (fun t => t.pc == 0xFFFF) = true := by decide

theorem test_jmp :
    gives (step ((start 0x3000 [(0x3000, 0xC080)]).setReg .r2 0x4000))
      (fun t => t.pc == 0x4000 && t.reg .r7 == 0 && t.cond == .z) = true := by decide

theorem test_ret :
    gives (step ((start 0x3000 [(0x3000, 0xC1C0)]).setReg .r7 0x1234)) (fun t => t.pc == 0x1234) = true := by
  decide

theorem test_jsr_wraps :
    gives (step (start 0xFC00 [(0xFC00, 0x4BFF)]))
      (fun t => t.pc == 0x0000 && t.reg .r7 == 0xFC01) = true := by decide

theorem test_jsr_negative :
    gives (step (start 0x3000 [(0x3000, 0x4C00)]))
      (fun t => t.pc == 0x2C01 && t.reg .r7 == 0x3001) = true := by decide

theorem test_jsrr :
    gives (step ((start 0x3000 [(0x3000, 0x40C0)]).setReg .r3 0x5000))
      (fun t => t.pc == 0x5000 && t.reg .r7 == 0x3001) = true := by decide

theorem test_jsrr_r7_falls_through :
    gives (step ((start 0x3000 [(0x3000, 0x41C0)]).setReg .r7 0x5000))
      (fun t => t.pc == 0x3001 && t.reg .r7 == 0x3001) = true := by decide

-- L2.3
theorem test_ld_wraps :
    gives (step (start 0xFFFE [(0xFFFE, 0x2001), (0x0000, 0x0042)]))
      (fun t => t.reg .r0 == 0x0042 && t.cond == .p) = true := by decide

theorem test_ld_reads_its_own_word :
    gives (step (start 0x3000 [(0x3000, 0x25FF)])) (fun t => t.reg .r2 == 0x25FF && t.cond == .p) = true := by
  decide

theorem test_ldi_double_indirection :
    gives (step (start 0x3000 [(0x3000, 0xA600), (0x3001, 0x4000), (0x4000, 0x0007)]))
      (fun t => t.reg .r3 == 0x0007 && t.cond == .p) = true := by decide

theorem test_ldr_wraps :
    gives (step ((start 0x3000 [(0x3000, 0x6341), (0x0000, 0xBEEF)]).setReg .r5 0xFFFF))
      (fun t => t.reg .r1 == 0xBEEF && t.cond == .n) = true := by decide

theorem test_ldr_destination_is_base :
    gives (step ((start 0x3000 [(0x3000, 0x6240), (0x4000, 0x0123)]).setReg .r1 0x4000))
      (fun t => t.reg .r1 == 0x0123 && t.cond == .p) = true := by decide

theorem test_lea_sets_flag :
    gives (step (start 0xFFFE [(0xFFFE, 0xE001)])) (fun t => t.reg .r0 == 0 && t.cond == .z) = true := by
  decide

theorem test_lea_negative_offset :
    gives (step (start 0x8080 [(0x8080, 0xE100)])) (fun t => t.reg .r0 == 0x7F81 && t.cond == .p) = true := by
  decide

theorem test_st :
    gives (step ((start 0x3000 [(0x3000, 0x3203)]).setReg .r1 0x1234))
      (fun t => t.cell 0x3004 == 0x1234 && t.cond == .z) = true := by decide

theorem test_sti_over_its_pointer :
    gives (step ((start 0x3000 [(0x3000, 0xB400), (0x3001, 0x3001)]).setReg .r2 0xBEEF))
      (fun t => t.cell 0x3001 == 0xBEEF) = true := by decide

theorem test_sti :
    gives (step ((start 0x3000 [(0x3000, 0xB400), (0x3001, 0x4000)]).setReg .r2 0xBEEF))
      (fun t => t.cell 0x4000 == 0xBEEF && t.cell 0x3001 == 0x4000) = true := by decide

theorem test_str_wraps :
    gives (step (((start 0x3000 [(0x3000, 0x715F)]).setReg .r0 0x0042).setReg .r5 0xFFF0))
      (fun t => t.cell 0x000F == 0x0042) = true := by decide

theorem test_str_source_is_base :
    gives (step ((start 0x3000 [(0x3000, 0x7B40)]).setReg .r5 0x4000))
      (fun t => t.cell 0x4000 == 0x4000) = true := by decide

-- L2.4
theorem test_getc :
    gives (step { start 0x3000 [(0x3000, 0xF020)] with input := [0x41], inputEnded := true })
      (fun t => t.reg .r0 == 0x0041 && t.reg .r7 == 0x3001 && t.cond == .z && t.pc == 0x3001 &&
        t.run == .running && t.input == []) = true ∧
    gives (step (settingFlags { start 0x3000 [(0x3000, 0xF020)] with input := [0x80] }))
      (fun t => t.reg .r0 == 0x0080 && t.cond == .p) = true := by decide

theorem test_getc_end_of_stream :
    gives (step { start 0x3000 [(0x3000, 0xF020)] with inputEnded := true })
      (fun t => t.run == .failed .inputUnavailable 0xF020 0x3000 && t.pc == 0x3001 && t.reg .r0 == 0 &&
        t.reg .r7 == 0x3001) = true := by decide

theorem test_out :
    gives (step (notLinking { (start 0x3000 [(0x3000, 0xF021)]).setReg .r0 0x1241 with cond := .p }))
      (fun t => t.output == [0x41] && t.reg .r0 == 0x1241 && t.reg .r7 == 0 && t.cond == .p) = true := by
  decide

theorem test_puts_wraps :
    gives (step ((start 0x3000 [(0x3000, 0xF022), (0xFFFF, 0x0041), (0x0000, 0x0042)]).setReg .r0 0xFFFF))
      (fun t => t.output == [0x41, 0x42] && t.pending == .idle) = true := by decide

theorem test_puts_high_byte_is_no_terminator :
    gives (step ((start 0x3000 [(0x3000, 0xF022), (0x4000, 0x0141), (0x4001, 0x0100)]).setReg .r0 0x4000))
      (fun t => t.output == [0x41, 0x00] && t.reg .r7 == 0x3001) = true := by decide

theorem test_in_prompt_and_echo :
    gives (step { start 0x3000 [(0x3000, 0xF023)] with input := [0x79], cond := .n })
      (fun t => t.output == promptBytes ++ [0x79] && t.reg .r0 == 0x0079 && t.reg .r7 == 0x3001 &&
        t.cond == .n) = true := by decide

theorem test_in_end_of_stream :
    gives (step { start 0x3000 [(0x3000, 0xF023)] with inputEnded := true })
      (fun t => t.run == .failed .inputUnavailable 0xF023 0x3000 && t.output == promptBytes) = true := by
  decide

theorem test_putsp_odd_length :
    gives (step ((start 0x3000 [(0x3000, 0xF024), (0x4000, 0x6548), (0x4001, 0x0079)]).setReg .r0 0x4000))
      (fun t => t.output == [0x48, 0x65, 0x79] && t.pending == .idle) = true := by decide

theorem test_putsp_low_zero_stops :
    gives (step ((start 0x3000 [(0x3000, 0xF024), (0x4000, 0x4100), (0x4001, 0x0042)]).setReg .r0 0x4000))
      (fun t => t.output == []) = true := by decide

theorem test_halt :
    gives (step (start 0x3000 [(0x3000, 0xF025)]))
      (fun t => t.run == .halted && t.pc == 0x3001 && t.reg .r7 == 0x3001 && t.output == []) = true := by
  decide

theorem test_trap_unrecognised_keeps_r7 :
    gives (step ((start 0x3000 [(0x3000, 0xF026)]).setReg .r7 0x1111))
      (fun t => t.run == .failed .illegalInstruction 0xF026 0x3000 && t.reg .r7 == 0x1111 &&
        t.pc == 0x3001) = true := by decide

theorem test_trap_ff :
    gives (step (start 0x3000 [(0x3000, 0xF0FF)]))
      (fun t => t.run == .failed .illegalInstruction 0xF0FF 0x3000) = true := by decide

-- 30_encoding.md rule R84 and 70_reset_and_hazards.md rule R191: where there is no step.
theorem test_no_step :
    (step { State.reset with run := .halted } matches .fault .halted) = true ∧
    (step { State.reset with run := .failed .illegalInstruction 0 0 } matches .fault .failed) = true ∧
    (step { State.reset with pending := .waitGetc 0xF020 } matches .fault .awaitingInput) = true := by
  decide

-- L2.5
theorem test_res :
    gives (step (start 0x3000 [(0x3000, 0xDFFF)]))
      (fun t => t.run == .failed .illegalInstruction 0xDFFF 0x3000 && t.pc == 0x3001) = true := by decide

theorem test_rti :
    gives (step (start 0x3005 [(0x3005, 0x8000)]))
      (fun t => t.run == .failed .illegalInstruction 0x8000 0x3005) = true := by decide

-- L2.6: LDI through a pointer to KBSR.
/-- The setup of 95_test_vectors.md L2.6, with a stream and the host's draw. -/
def pollStart (input : List Byte) (draw : Bool) : State :=
  { start 0x3000 [(0x3000, 0xA200), (0x3001, 0xFE00), (0xFE00, 0x1234), (0xFE02, 0x5555)] with
    input := input, draws := [draw] }

theorem test_poll_finds :
    gives (step (pollStart [0x51] true))
      (fun t => t.reg .r1 == 0x9234 && t.cond == .n && t.cell 0xFE00 == 0x9234 && t.cell 0xFE02 == 0x0051 &&
        t.input == []) = true := by decide

theorem test_poll_finds_nothing :
    [([0x51], false), ([], true)].all (fun c =>
      gives (step (pollStart c.1 c.2))
        (fun t => t.reg .r1 == 0x1234 && t.cond == .p && t.cell 0xFE00 == 0x1234 &&
          t.cell 0xFE02 == 0x5555 && t.input == c.1)) = true := by decide

theorem test_fetch_from_kbsr_polls :
    gives (step { start 0xFE00 [] with input := [0x5A], draws := [true] })
      (fun t => t.run == .failed .illegalInstruction 0x8000 0xFE00 && t.pc == 0xFE01 &&
        t.cell 0xFE02 == 0x005A) = true ∧
    gives (step { start 0xFE00 [] with input := [0x5A], draws := [false] })
      (fun t => t.run == .running && t.pc == 0xFE01 && t.input == [0x5A]) = true := by decide

theorem test_store_to_kbsr_does_not_poll :
    gives (step { ((start 0x3000 [(0x3000, 0x7340)]).setReg .r1 0x8000).setReg .r5 0xFE00 with
        input := [0x41], draws := [true] })
      (fun t => t.cell 0xFE00 == 0x8000 && t.input == [0x41] && t.draws == [true]) = true := by decide

-- L2.7
theorem test_pc_wraps :
    gives (step (start 0xFFFF [])) (fun t => t.pc == 0x0000) = true := by decide

/-! The placing of a word, the loader and the exit codes. -/

theorem test_withFetchWord :
    gives (step (State.reset.withFetchWord 16 0x1025)) (fun t => t.reg .r0 == 5 && t.pc == 0x3001) = true ∧
    gives (step ((start 0xFE00 []).withFetchWord 16 0x1025)) (fun t => t.reg .r0 == 5) = true ∧
    gives (step ((start 0xFE00 []).withFetchWord 16 0xC080)) (fun t => t.pc == 0) = true := by decide

-- 70_reset_and_hazards.md rules R181, R183: origin 0xFFFF wraps; a later image wins; odd and empty fail.
theorem test_loader :
    (loadImage [0xFF, 0xFF, 0x12, 0x34, 0x56, 0x78] [] == some [(0, 0x5678), (0xFFFF, 0x1234)]) = true ∧
    (loadImages [.readable [0x30, 0x00, 0x00, 0x01], .readable [0x30, 0x00, 0x00, 0x02]] [] ==
      some [(0x3000, 2)]) = true ∧
    (loadImage [0x30, 0x00] [] == some []) = true ∧
    loadImage [] [] = none ∧ loadImage [0x30] [] = none ∧ loadImage [0x30, 0x00, 0x01] [] = none ∧
    loadImages [.readable [0x30, 0x00], .unreadable] [] = none := by
  decide

-- 30_encoding.md rules R72, R73; the BRp of program P2 at 0x3008 goes back to 0x3004.
theorem test_assembler_words :
    labelOffset 9 0x3008 0x3004 = some 0xFFFB ∧ labelOffset 9 0x3000 0x3101 = none ∧
    encode (asmTrap 0x25) = 0xF025 ∧ asmJmp .r7 = .ret ∧ (asmBr 4).wellFormed = true ∧
    (Directive.stringz [0x48, 0x69]).words = [0x0048, 0x0069, 0x0000] ∧
    (Directive.blkw 2).words = [0, 0] := by decide

-- 70_reset_and_hazards.md rule R194.
theorem test_exit_codes :
    runExitCode ⟨7, by decide⟩ .halted = some 0 ∧
    runExitCode ⟨7, by decide⟩ (.failed .illegalInstruction 0 0) = some 7 ∧
    bootExitCode (boot specParams specResetParams []) = some 2 ∧
    bootExitCode (boot specParams specResetParams [.readable [0x30]]) = some 1 ∧
    bootExitCode (boot specParams specResetParams [.unreadable]) = some 1 ∧
    bootExitCode (boot specParams specResetParams [.readable [0x30, 0x00]]) = none := by decide

/-! Witnesses: for each statement with hypotheses, a state and operands that meet them all together, at
a boundary of its range where it has one. -/

/-- The hypotheses that speak of an outcome: it is a next state. -/
def completes (o : Host.Outcome State Fault Refusal) : Prop := ∃ t, o = .next t

theorem witness_SignAndZeroExtensionOfFields :
    (5 = 5 ∨ 5 = 6 ∨ 5 = 9 ∨ 5 = 11) ∧ (11 = 5 ∨ 11 = 6 ∨ 11 = 9 ∨ 11 = 11) ∧ 0 ≤ 16 ∧ 16 ≤ 16 ∧
    sext16 (0b10000 : BitVec 5) = 0xFFF0 ∧ sext16 (0b011111 : BitVec 6) = 0x001F ∧
    sext16 (0b100000000 : BitVec 9) = 0xFF00 ∧ sext16 (0b10000000000 : BitVec 11) = 0xFC00 ∧
    zext16 (0xFF : BitVec 8) = 0x00FF := by decide

theorem witness_FlagFollowsTheSign :
    [(0x0000, Cond.z), (0x0001, .p), (0x7FFF, .p), (0x8000, .n), (0xFFFF, .n)].all
      (fun c => (State.reset.setcc c.1).cond == c.2) = true := by decide

theorem witness_BusReadPollsOnlyAtKeyboardStatus :
    (0xFE00 : Word) = State.reset.params.kbsrAddr ∧ (0xFDFF : Word) ≠ State.reset.params.kbsrAddr ∧
    (0xFE01 : Word) ≠ State.reset.params.kbsrAddr := by decide

theorem witness_KeyboardPollFindsCharacter :
    Memory.wf (pollStart [0x51] true).mem = true ∧
    (pollStart [0x51] true).params.kbsrAddr ≠ (pollStart [0x51] true).params.kbdrAddr ∧
    (pollStart [0x51] true).input = [0x51] ∧ (pollStart [0x51] true).nextDraw = true := by decide

theorem witness_KeyboardPollFindsNothing :
    Memory.wf (pollStart [0x51] false).mem = true ∧ (pollStart [0x51] false).input ≠ [] ∧
    (pollStart [0x51] false).nextDraw = false ∧
    Memory.wf (pollStart [] true).mem = true ∧ (pollStart [] true).input = [] := by decide

theorem witness_BusWriteHasNoSideEffect :
    Memory.wf (pollStart [0x51] true).mem = true ∧
    (pollStart [0x51] true).params.kbsrAddr ≠ (pollStart [0x51] true).params.kbdrAddr := by decide

theorem witness_DecodeOfEncodeIsTheInstruction :
    (Instr.addImm .r7 .r0 0x000F).wellFormed = true ∧ (Instr.andImm .r7 .r0 0xFFF0).wellFormed = true ∧
    (Instr.ld .r2 0x00FF).wellFormed = true ∧ (Instr.st .r2 0xFF00).wellFormed = true ∧
    (Instr.ldr .r0 .r7 0x001F).wellFormed = true ∧ (Instr.str .r0 .r7 0xFFE0).wellFormed = true ∧
    (Instr.jsr 0x03FF).wellFormed = true ∧ (Instr.jsr 0xFC00).wellFormed = true ∧
    (Instr.trap 0 0x1F).wellFormed = true ∧ (Instr.trap 15 0x26).wellFormed = true ∧
    (Instr.jmp .r6).wellFormed = true ∧ Instr.ret.wellFormed = true := by decide

theorem witness_IgnoredBitsDoNotChangeTheInstruction :
    (0x1018 : Word) ≠ 0x1000 ∧ (0x1018 : Word) &&& usedBits 0x1018 = 0x1000 &&& usedBits 0x1018 := by
  decide

theorem witness_IgnoredBitsShowOnlyInTheReport :
    (Instr.getc 0, Instr.getc 15) ∈ [(Instr.res 0, Instr.res 1), (Instr.rti 0, Instr.rti 1),
      (Instr.trap 0 0x26, Instr.trap 15 0x26), (Instr.getc 0, Instr.getc 15), (Instr.inp 0, Instr.inp 15)] := by
  decide

/-- The encoding clauses of the statements about ADD, AND, NOT, BR, JMP and RET, JSR and JSRR. -/
theorem witness_encoding_clauses_operate_and_control :
    (0x1445 : Word).extractLsb' 12 4 = 0x1#4 ∧ (0x1445 : Word).getLsbD 5 = false ∧
    (0x1465 : Word).extractLsb' 12 4 = 0x1#4 ∧ (0x1465 : Word).getLsbD 5 = true ∧
    (0x5445 : Word).extractLsb' 12 4 = 0x5#4 ∧ (0x5445 : Word).getLsbD 5 = false ∧
    (0x547C : Word).extractLsb' 12 4 = 0x5#4 ∧ (0x547C : Word).getLsbD 5 = true ∧
    (0x92BF : Word).extractLsb' 12 4 = 0x9#4 ∧ (0x0402 : Word).extractLsb' 12 4 = 0x0#4 ∧
    (0xC080 : Word).extractLsb' 12 4 = 0xC#4 ∧ (0xC1C0 : Word).extractLsb' 6 3 = 7#3 ∧
    (0x4810 : Word).extractLsb' 11 5 = 0x09#5 ∧ (0x41C0 : Word).extractLsb' 11 5 = 0x08#5 := by decide

/-- The encoding clauses of the statements about LD, LDI, LDR, LEA, ST, STI, STR, RES and RTI. -/
theorem witness_encoding_clauses_memory_and_reserved :
    (0x2402 : Word).extractLsb' 12 4 = 0x2#4 ∧ (0xA600 : Word).extractLsb' 12 4 = 0xA#4 ∧
    (0x633F : Word).extractLsb' 12 4 = 0x6#4 ∧ (0xE005 : Word).extractLsb' 12 4 = 0xE#4 ∧
    (0x3203 : Word).extractLsb' 12 4 = 0x3#4 ∧ (0xB400 : Word).extractLsb' 12 4 = 0xB#4 ∧
    (0x7140 : Word).extractLsb' 12 4 = 0x7#4 ∧ (0xDFFF : Word).extractLsb' 12 4 = 0xD#4 ∧
    (0x8FFF : Word).extractLsb' 12 4 = 0x8#4 := by decide

/-- The clauses of the load and store statements about addresses other than `KBSR_ADDR`, and about
memory in canonical form: LD, LDR, ST, STR with the PC or base at 0x3001 and offset 2, LDI and STI through
the pointer of `pollStart`'s neighbour cell. -/
theorem witness_load_and_store_clauses :
    (start 0x3001 [(0x3003, 0x4000)]).pc + 2 ≠ (start 0x3001 [(0x3003, 0x4000)]).params.kbsrAddr ∧
    (start 0x3001 [(0x3003, 0x4000)]).cell 0x3003 ≠ (start 0x3001 [(0x3003, 0x4000)]).params.kbsrAddr ∧
    Memory.wf (start 0x3001 [(0x3003, 0x4000)]).mem = true := by decide

theorem witness_UnrecognisedVectorRaisesIllegal :
    (0xF01F : Word).extractLsb' 12 4 = 0xF#4 ∧ ¬ (0x20 ≤ (0x1F#8).toNat ∧ (0x1F#8).toNat ≤ 0x25) ∧
    (0xF026 : Word).extractLsb' 0 8 = 0x26#8 ∧ ¬ (0x20 ≤ (0x26#8).toNat ∧ (0x26#8).toNat ≤ 0x25) := by decide

theorem witness_TrapVectorsSelectTheRoutines :
    [0xF020, 0xF121, 0xF222, 0xF323, 0xF424, 0xFF25].all
      (fun w : Word => w.extractLsb' 12 4 == 0xF#4) = true ∧
    (0xF020 : Word).extractLsb' 0 8 = 0x20#8 ∧ (0xF121 : Word).extractLsb' 0 8 = 0x21#8 ∧
    (0xF222 : Word).extractLsb' 0 8 = 0x22#8 ∧ (0xF323 : Word).extractLsb' 0 8 = 0x23#8 ∧
    (0xF424 : Word).extractLsb' 0 8 = 0x24#8 ∧ (0xFF25 : Word).extractLsb' 0 8 = 0x25#8 := by decide

/-- A state whose stream has a character, under either value of `TRAP_INPUT_SETS_FLAGS`: the statements
about GETC and IN. -/
theorem witness_GetcPutsTheCharacterInR0_and_InPromptsEchoesAndPutsInR0 :
    (pollStart [0x41] true).input = 0x41 :: [] ∧
    (pollStart [0x41] true).params.trapInputSetsFlags = false ∧
    (settingFlags (pollStart [0x41] true)).input = 0x41 :: [] ∧
    (settingFlags (pollStart [0x41] true)).params.trapInputSetsFlags = true := by decide

/-- The reset state after the host's end-of-stream. -/
def ended : State := State.reset.signalEnd

theorem witness_EndOfStreamFailsTheBlockingRead : ended.input = [] ∧ ended.inputEnded = true := by decide

theorem witness_BlockedReadWaitsForTheHost :
    State.reset.run = .running ∧ State.reset.input = [] ∧ State.reset.inputEnded = false ∧
    Instr.getc 0 ∈ [Instr.getc 0, Instr.inp 0] ∧ Instr.inp 0 ∈ [Instr.getc 0, Instr.inp 0] := by decide

/-! Strings. The long ones lie in a memory whose cells from 0 on hold 0x4141. -/

/-- The entries `(lo, v)`, `(lo + 1, v)`, … of `n` cells, before `rest`. -/
def filled (lo n : Nat) (v : Word) (rest : Memory) : Memory :=
  match n with
  | 0 => rest
  | n + 1 => (lo, v) :: filled (lo + 1) n v rest

theorem read_filled (v : Word) (a : Nat) (rest : Memory) : ∀ n lo, lo ≤ a →
    Memory.read (filled lo n v rest) a = if a < lo + n then v else Memory.read rest a := by
  intro n
  induction n with
  | zero => intro lo h; rw [if_neg (by omega)]; rfl
  | succ n ih =>
    intro lo h
    simp only [filled, Memory.read]
    by_cases he : lo = a
    · rw [if_pos he, if_pos (by omega)]
    · rw [if_neg he, ih (lo + 1) (by omega)]
      simp only [show lo + 1 + n = lo + (n + 1) by omega]

/-- R0 at `r0`, the cells 0 to n - 1 full, KBSR at 0xFFFF with content `k`, KBDR at 0. -/
def longString (r0 : Word) (n : Nat) (k : Word) (input : List Byte) (draws : List Bool) : State :=
  { State.reset with
    regs := { specResetParams.initGpr with r0 := r0 }
    mem := filled 0 n 0x4141 (Memory.cons 65535 k [])
    params := { specParams with kbsrAddr := 0xFFFF, kbdrAddr := 0x0000, trapLinksR7 := false }
    input := input
    draws := draws }

section
variable (r0 k : Word) (n : Nat) (input : List Byte) (draws : List Bool)

theorem longString_cell (a : Word) :
    (longString r0 n k input draws).cell a =
      if a.toNat < n then 0x4141 else if a.toNat = 65535 then k else 0 := by
  simp only [State.cell, longString]
  rw [read_filled _ _ _ _ _ (Nat.zero_le _), Nat.zero_add]
  congr 1
  unfold Memory.cons
  by_cases hk : k = Memory.fill
  · rw [if_pos hk, hk]
    split <;> rfl
  · rw [if_neg hk]
    simp only [Memory.read, eq_comm (a := 65535)]
    rfl

theorem wf_filled (rest : Memory) (h : Memory.wfFrom n rest = true) (hn : n ≤ 65536) : ∀ m lo, lo + m = n →
    Memory.wfFrom lo (filled lo m 0x4141 rest) = true := by
  intro m
  induction m with
  | zero => intro lo e; rw [show lo = n by omega]; exact h
  | succ m ih =>
    intro lo e
    simp only [filled, Memory.wfFrom, Bool.and_eq_true, decide_eq_true_eq]
    exact ⟨⟨⟨le_refl _, by omega⟩, by decide⟩, ih (lo + 1) (by omega)⟩

theorem longString_wf (hn : n ≤ 65535) : Memory.wf (longString r0 n k input draws).mem = true := by
  refine wf_filled n _ ?_ (by omega) n 0 (by omega)
  unfold Memory.cons
  split
  · rfl
  · next hk => simp only [Memory.wfFrom, Bool.and_eq_true, decide_eq_true_eq]; exact ⟨⟨⟨hn, by omega⟩, by simpa using hk⟩, trivial⟩

theorem longString_trapEntry : (longString r0 n k input draws).trapEntry = longString r0 n k input draws := rfl
theorem longString_r0 : (longString r0 n k input draws).reg .r0 = r0 := rfl
theorem longString_kbsr : (longString r0 n k input draws).params.kbsrAddr = 0xFFFF := rfl

end

/-- The cells after a poll that finds the character `c`. -/
theorem poll_found {s : State} {c : Byte} {rest : List Byte} (h : Memory.wf s.mem = true)
    (hi : s.input = c :: rest) (hd : s.nextDraw = true) (a : Word) :
    s.keyboardPoll.cell a = (if a = s.params.kbdrAddr then zext16 c
      else if a = s.params.kbsrAddr then s.cell s.params.kbsrAddr ||| 0x8000 else s.cell a) ∧
    s.keyboardPoll.input = rest := by
  rcases s.keyboardPoll_cases with ⟨c', rest', h1, _, e⟩ | ⟨h1, _⟩
  · rw [hi] at h1
    cases h1
    rw [e]
    refine ⟨?_, rfl⟩
    have h2 := (s.setCell s.params.kbsrAddr (s.cell s.params.kbsrAddr ||| 0x8000)).cell_setCell
      s.params.kbdrAddr a (zext16 c) (Memory.wf_write _ _ h)
    rw [State.cell_setCell _ _ _ _ h] at h2
    exact h2
  · rcases h1 with h1 | h1 <;> simp [h1] at hi hd

/-- The cells after a poll that finds nothing. -/
theorem poll_none {s : State} (h : Memory.wf s.mem = true) (hi : s.input = [] ∨ s.nextDraw = false)
    (a : Word) :
    s.keyboardPoll.cell a = (if a = s.params.kbsrAddr then s.cell s.params.kbsrAddr &&& 0x7FFF else s.cell a) ∧
    s.keyboardPoll.input = s.input := by
  rcases s.keyboardPoll_cases with ⟨c, rest, h1, h2, _⟩ | ⟨_, e⟩
  · rcases hi with hi | hi <;> simp [hi] at h1 h2
  · rw [e]
    exact ⟨State.cell_setCell s _ _ _ h, rfl⟩

theorem nextDraw_cons {s : State} {d : Bool} {rest : List Bool} (h : s.draws = d :: rest) :
    s.nextDraw = d := by
  unfold State.nextDraw; rw [h]

/-- The cell read at KBSR is the one after the poll. -/
theorem memRead_at_kbsr {s : State} (hk : s.params.kbsrAddr = 0xFFFF) :
    s.memRead 0xFFFF = (s.keyboardPoll.cell 0xFFFF, s.keyboardPoll) := by
  rw [← hk]; exact s.memRead_kbsr

/-- A scan of PUTS over `n` nonzero cells that are not KBSR, given how it ends after them. -/
theorem putsRun_over (n m : Nat) : ∀ (a : Word) (s : State),
    (∀ i, i < n → a + BitVec.ofNat 16 i ≠ s.params.kbsrAddr ∧ s.cell (a + BitVec.ofNat 16 i) ≠ 0) →
    (∀ out, ∃ t, PutsRun m (a + BitVec.ofNat 16 n) { s with output := out } t) →
    ∃ t, PutsRun (m + n) a s t := by
  induction n with
  | zero => intro a s _ h; simpa using h s.output
  | succ n ih =>
    intro a s hc h
    have h0 := hc 0 (by omega)
    simp only [BitVec.ofNat_eq_ofNat, BitVec.add_zero] at h0
    have hs : ∀ i, a + 1 + BitVec.ofNat 16 i = a + BitVec.ofNat 16 (i + 1) := by
      intro i; apply BitVec.eq_of_toNat_eq; simp; omega
    have hm := State.memRead_plain h0.1
    obtain ⟨t, ht⟩ := ih (a + 1) (s.writeByte ((s.memRead a).1.extractLsb' 0 8))
      (fun i hi => by rw [hs]; exact hc (i + 1) (by omega)) (fun out => by rw [hs]; exact h out)
    exact ⟨t, .more _ _ _ _ (by rw [hm]; exact h0.2) (by rw [hm] at ht ⊢; exact ht)⟩

/-- The same for PUTSP and cells with two nonzero bytes. -/
theorem putspRun_over (n m : Nat) : ∀ (a : Word) (s : State),
    (∀ i, i < n → a + BitVec.ofNat 16 i ≠ s.params.kbsrAddr ∧
      (s.cell (a + BitVec.ofNat 16 i)).extractLsb' 0 8 ≠ 0 ∧
      (s.cell (a + BitVec.ofNat 16 i)).extractLsb' 8 8 ≠ 0) →
    (∀ out, ∃ t, PutspRun m (a + BitVec.ofNat 16 n) { s with output := out } t) →
    ∃ t, PutspRun (m + n) a s t := by
  induction n with
  | zero => intro a s _ h; simpa using h s.output
  | succ n ih =>
    intro a s hc h
    have h0 := hc 0 (by omega)
    simp only [BitVec.ofNat_eq_ofNat, BitVec.add_zero] at h0
    have hs : ∀ i, a + 1 + BitVec.ofNat 16 i = a + BitVec.ofNat 16 (i + 1) := by
      intro i; apply BitVec.eq_of_toNat_eq; simp; omega
    have hm := State.memRead_plain h0.1
    obtain ⟨t, ht⟩ := ih (a + 1)
      ((s.writeByte ((s.memRead a).1.extractLsb' 0 8)).writeByte ((s.memRead a).1.extractLsb' 8 8))
      (fun i hi => by rw [hs]; exact hc (i + 1) (by omega)) (fun out => by rw [hs]; exact h out)
    exact ⟨t, .more _ _ _ _ (by rw [hm]; exact h0.2.1) (by rw [hm]; exact h0.2.2)
      (by rw [hm] at ht ⊢; exact ht)⟩

theorem witness_PutsWritesTheString_empty :
    0 < 65535 ∧ (∀ i, i ≤ 0 → State.reset.reg .r0 + BitVec.ofNat 16 i ≠ State.reset.params.kbsrAddr) ∧
    (∀ i, i < 0 → State.reset.cell (State.reset.reg .r0 + BitVec.ofNat 16 i) ≠ 0) ∧
    State.reset.cell (State.reset.reg .r0 + BitVec.ofNat 16 0) = 0 := by decide

theorem witness_PutsWritesTheString_longest :
    65534 < 65535 ∧
    (∀ i, i ≤ 65534 → (longString 0 65534 0 [] []).reg .r0 + BitVec.ofNat 16 i ≠
      (longString 0 65534 0 [] []).params.kbsrAddr) ∧
    (∀ i, i < 65534 → (longString 0 65534 0 [] []).cell
      ((longString 0 65534 0 [] []).reg .r0 + BitVec.ofNat 16 i) ≠ 0) ∧
    (longString 0 65534 0 [] []).cell
      ((longString 0 65534 0 [] []).reg .r0 + BitVec.ofNat 16 65534) = 0 := by
  have hr : (longString 0 65534 0 [] []).reg .r0 = 0 := rfl
  have hk : (longString 0 65534 0 [] []).params.kbsrAddr = 0xFFFF := rfl
  rw [hr, hk]
  refine ⟨by omega, fun i hi e => ?_, fun i hi => ?_, ?_⟩
  · have := congrArg BitVec.toNat e
    simp at this
    omega
  · rw [longString_cell, if_pos (by simp; omega)]
    decide
  · rw [longString_cell, if_neg (by decide), if_neg (by decide)]

theorem witness_PutspWritesThePackedString_empty :
    0 < 65535 ∧ (∀ i, i ≤ 0 → State.reset.reg .r0 + BitVec.ofNat 16 i ≠ State.reset.params.kbsrAddr) ∧
    (State.reset.cell (State.reset.reg .r0 + BitVec.ofNat 16 0)).extractLsb' 0 8 = 0 := by decide

theorem witness_PutspWritesThePackedString_longest :
    65534 < 65535 ∧
    (∀ i, i ≤ 65534 → (longString 0 65534 0 [] []).reg .r0 + BitVec.ofNat 16 i ≠
      (longString 0 65534 0 [] []).params.kbsrAddr) ∧
    (∀ i, i < 65534 →
      ((longString 0 65534 0 [] []).cell
        ((longString 0 65534 0 [] []).reg .r0 + BitVec.ofNat 16 i)).extractLsb' 0 8 ≠ 0 ∧
      ((longString 0 65534 0 [] []).cell
        ((longString 0 65534 0 [] []).reg .r0 + BitVec.ofNat 16 i)).extractLsb' 8 8 ≠ 0) ∧
    ((longString 0 65534 0 [] []).cell
      ((longString 0 65534 0 [] []).reg .r0 + BitVec.ofNat 16 65534)).extractLsb' 0 8 = 0 := by
  obtain ⟨h1, h2, -, h4⟩ := witness_PutsWritesTheString_longest
  refine ⟨h1, h2, fun i hi => ?_, by rw [h4]; decide⟩
  rw [longString_cell, if_pos (by simp [State.reg, longString, regGet]; omega)]
  decide

/-- PUTS over cells 0 to 0xFFFE, all full, to a KBSR that its poll makes zero: 65536 reads. -/
theorem putsRun_round (s : State) (hk : s.params.kbsrAddr = 0xFFFF) (hm : Memory.wf s.mem = true)
    (hc : ∀ a : Word, a ≠ 0xFFFF → s.cell a ≠ 0) (hi : s.input = []) (hz : s.cell 0xFFFF &&& 0x7FFF = 0) :
    ∃ t, PutsRun 65536 0 s t := by
  refine putsRun_over 65535 1 0 s (fun i hlt => ?_) (fun out => ?_)
  · have hne : (0 : Word) + BitVec.ofNat 16 i ≠ 0xFFFF := fun e => by
      have := congrArg BitVec.toNat e
      simp at this
      omega
    exact ⟨by rw [hk]; exact hne, hc _ hne⟩
  · refine ⟨_, .stop _ _ ?_⟩
    have h := (poll_none (s := { s with output := out }) hm (.inl hi) 0xFFFF).1
    rw [if_pos hk.symm] at h
    have e := memRead_at_kbsr (s := { s with output := out }) hk
    exact (congrArg Prod.fst e).trans (h.trans (by rw [hk]; exact hz))

/-- PUTS, first clause at its boundary: the scan meets its terminator at read 65536. -/
theorem witness_PutsScanCompletes_first :
    65536 ≤ 65536 ∧ ∃ t, PutsRun 65536 ((longString 0 65535 0 [] []).trapEntry.reg .r0)
      (longString 0 65535 0 [] []).trapEntry t := by
  rw [longString_trapEntry, longString_r0]
  refine ⟨le_refl _, putsRun_round _ rfl (longString_wf _ _ _ _ _ (le_refl _)) (fun a ha => ?_) rfl ?_⟩
  · rw [longString_cell, if_pos (by simp [BitVec.toNat_eq] at ha; omega)]
    decide
  · rw [longString_cell]
    decide

/-- PUTS, second clause past the first one's boundary: KBSR, read first, has bit 15 set by its poll; the
second read of it finds no character and reads zero, at read 65537. -/
theorem witness_PutsScanCompletes_second :
    (longString 0xFFFF 65535 0 [0x41] [true]).run = .running ∧
    ∃ t, PutsRun 65537 ((longString 0xFFFF 65535 0 [0x41] [true]).trapEntry.reg .r0)
      (longString 0xFFFF 65535 0 [0x41] [true]).trapEntry t := by
  rw [longString_trapEntry, longString_r0]
  refine ⟨rfl, ?_⟩
  have hw := longString_wf 0xFFFF 0 65535 [0x41] [true] (le_refl _)
  have hk := longString_kbsr 0xFFFF 0 65535 [0x41] [true]
  have hd : (longString 0xFFFF 65535 0 [0x41] [true]).params.kbdrAddr = 0 := rfl
  have hf := poll_found hw (show (longString 0xFFFF 65535 0 [0x41] [true]).input = 0x41 :: [] from rfl) rfl
  have hcell := longString_cell 0xFFFF 0 65535 [0x41] [true]
  have hr := memRead_at_kbsr hk
  generalize longString 0xFFFF 65535 0 [0x41] [true] = s at *
  simp only [hk, hd, hcell] at hf
  obtain ⟨t, ht⟩ := putsRun_round (s.keyboardPoll.writeByte ((s.memRead 0xFFFF).1.extractLsb' 0 8))
    (by simp [hk]) (State.keyboardPoll_wf hw)
    (fun a ha => by
      rw [State.writeByte_cell, (hf a).1]
      by_cases h0 : a = 0
      · rw [if_pos h0]; decide
      · rw [if_neg h0, if_neg ha, if_pos (by simp [BitVec.toNat_eq] at ha; omega)]; decide)
    (hf 0).2
    (by rw [State.writeByte_cell, (hf _).1]; decide)
  refine ⟨t, .more 65536 _ _ _ ?_ ?_⟩
  · rw [hr]
    exact fun e => absurd ((hf _).1.symm.trans e) (by decide)
  · rw [hr] at ht ⊢
    exact ht

/-- PUTSP over cells 0 to 0xFFFE, all full, to a KBSR whose poll leaves its low byte zero. -/
theorem putspRun_round (s : State) (hk : s.params.kbsrAddr = 0xFFFF) (hm : Memory.wf s.mem = true)
    (hc : ∀ a : Word, a ≠ 0xFFFF →
      (s.cell a).extractLsb' 0 8 ≠ 0 ∧ (s.cell a).extractLsb' 8 8 ≠ 0)
    (hi : s.input = []) (hz : (s.cell 0xFFFF &&& 0x7FFF).extractLsb' 0 8 = 0) :
    ∃ t, PutspRun 65536 0 s t := by
  refine putspRun_over 65535 1 0 s (fun i hlt => ?_) (fun out => ⟨_, .stopLow _ _ ?_⟩)
  · have hne : (0 : Word) + BitVec.ofNat 16 i ≠ 0xFFFF := fun e => by
      have := congrArg BitVec.toNat e
      simp at this
      omega
    exact ⟨by rw [hk]; exact hne, hc _ hne⟩
  · have h := (poll_none (s := { s with output := out }) hm (.inl hi) 0xFFFF).1
    rw [if_pos hk.symm] at h
    have e := memRead_at_kbsr (s := { s with output := out }) hk
    have hv := (congrArg Prod.fst e).trans h
    exact (congrArg (BitVec.extractLsb' 0 8) hv).trans (by rw [hk]; exact hz)

/-- PUTSP, first clause at its boundary: the scan meets its terminator at read 65536. -/
theorem witness_PutspScanCompletes_first :
    65536 ≤ 65536 ∧ ∃ t, PutspRun 65536 ((longString 0 65535 0 [] []).trapEntry.reg .r0)
      (longString 0 65535 0 [] []).trapEntry t := by
  rw [longString_trapEntry, longString_r0]
  refine ⟨le_refl _, putspRun_round _ rfl (longString_wf _ _ _ _ _ (le_refl _)) (fun a ha => ?_) rfl ?_⟩
  · rw [longString_cell, if_pos (by simp [BitVec.toNat_eq] at ha; omega)]
    decide
  · rw [longString_cell]
    decide

/-- PUTSP, second clause past the first one's boundary. KBSR is read first and stays full; the second read
of it, read 65537, finds a character, so KBDR, read next, has a zero high byte: read 65538 ends the scan. -/
theorem witness_PutspScanCompletes_second :
    (longString 0xFFFF 65535 0x4141 [0x41] [false, true]).run = .running ∧
    ∃ t, PutspRun 65538 ((longString 0xFFFF 65535 0x4141 [0x41] [false, true]).trapEntry.reg .r0)
      (longString 0xFFFF 65535 0x4141 [0x41] [false, true]).trapEntry t := by
  rw [longString_trapEntry, longString_r0]
  refine ⟨rfl, ?_⟩
  have hw := longString_wf 0xFFFF 0x4141 65535 [0x41] [false, true] (le_refl _)
  have hk := longString_kbsr 0xFFFF 0x4141 65535 [0x41] [false, true]
  have hd : (longString 0xFFFF 65535 0x4141 [0x41] [false, true]).params.kbdrAddr = 0 := rfl
  have hi : (longString 0xFFFF 65535 0x4141 [0x41] [false, true]).input = 0x41 :: [] := rfl
  have hdr : (longString 0xFFFF 65535 0x4141 [0x41] [false, true]).draws = [false, true] := rfl
  have hn := poll_none hw (.inr rfl)
  have hcell := longString_cell 0xFFFF 0x4141 65535 [0x41] [false, true]
  have hr := memRead_at_kbsr hk
  generalize longString 0xFFFF 65535 0x4141 [0x41] [false, true] = s at *
  have hfull : ∀ a, s.keyboardPoll.cell a = 0x4141 := by
    intro a
    rw [(hn a).1, hk, hcell, hcell]
    by_cases h : a = 0xFFFF
    · rw [if_pos h]; decide
    · rw [if_neg h, if_pos (by simp [BitVec.toNat_eq] at h; omega)]
  have hwp := State.keyboardPoll_wf hw
  have hkp : s.keyboardPoll.params.kbsrAddr = 0xFFFF := by simp [hk]
  have hdp : s.keyboardPoll.params.kbdrAddr = 0 := by simp [hd]
  have hip : s.keyboardPoll.input = 0x41 :: [] := (hn 0).2.trans hi
  have hdraw : s.keyboardPoll.draws = [true] := by simp [hdr]
  have hround : ∀ out, ∃ t, PutspRun (2 + 65535) 0 { s.keyboardPoll with output := out } t := by
    intro out
    generalize hu : { s.keyboardPoll with output := out } = u
    have huc : ∀ a, u.cell a = 0x4141 := by subst hu; exact hfull
    have huk : u.params.kbsrAddr = 0xFFFF := by subst hu; exact hkp
    refine putspRun_over 65535 2 0 u (fun i hlt => ?_) (fun out2 => ?_)
    · refine ⟨?_, by rw [huc]; decide, by rw [huc]; decide⟩
      rw [huk]
      intro e
      have := congrArg BitVec.toNat e
      simp at this
      omega
    · generalize hv : { u with output := out2 } = v
      have hvp : v.params = s.keyboardPoll.params := by subst hv hu; rfl
      have hvf := poll_found (s := v) (c := 0x41) (rest := []) (by subst hv hu; exact hwp)
        (by subst hv hu; exact hip) (nextDraw_cons (rest := []) (by subst hv hu; exact hdraw))
      have hvr := memRead_at_kbsr (s := v) (by rw [hvp, hkp])
      have hvc : ∀ a, v.cell a = 0x4141 := by subst hv; exact huc
      simp only [hvp, hkp, hdp, hvc] at hvf
      have h1 : (v.memRead 0xFFFF).1 = 0xC141 := by rw [hvr]; exact (hvf _).1.trans (by decide)
      refine ⟨_, .more 1 0xFFFF v _ (by rw [h1]; decide) (by rw [h1]; decide)
        (.stopHigh _ _ ?_ ?_)⟩ <;>
      · rw [hvr, State.memRead_plain (by simp [hvp, hk])]
        simp only [State.writeByte_cell]
        rw [(hvf _).1]
        decide
  have h1 : (s.memRead 0xFFFF).1 = 0x4141 := by rw [hr]; exact hfull _
  obtain ⟨t, ht⟩ := hround _
  exact ⟨t, .more 65537 0xFFFF s t (by rw [h1]; decide) (by rw [h1]; decide) (by rw [hr]; exact ht)⟩

/-! The statements about every instruction and about a step. -/

theorem witness_OnlyNamedRegistersAreWritten :
    completes (exec (.getc 0) State.reset) ∧ writesReg true (.getc 0) .r6 = false ∧
    writesReg false (.getc 0) .r7 = false ∧ writesReg true (.trap 0 0x26) .r7 = false ∧
    completes (exec (.trap 0 0x26) State.reset) := ⟨⟨_, rfl⟩, by decide, by decide, by decide, ⟨_, rfl⟩⟩

theorem witness_OnlyControlTransfersWriteThePc :
    mayWritePc .puts = false ∧ completes (exec .puts State.reset) := ⟨rfl, ⟨_, rfl⟩⟩

theorem witness_FlagIsWrittenExactlyByFlagSetters :
    flagSettingDest (.lea .r3 0) = some .r3 ∧ completes (exec (.lea .r3 0) State.reset) ∧
    flagSettingDest (.getc 0) = none ∧
    (readsCharacter (.getc 0) && State.reset.params.trapInputSetsFlags) = false ∧
    completes (exec (.getc 0) State.reset) := ⟨rfl, ⟨_, rfl⟩, rfl, rfl, ⟨_, rfl⟩⟩

theorem witness_MemoryChangesOnlyByStoresAndPolls :
    completes (exec (.st .r0 1) State.reset) ∧ (0xFE01 : Word) ≠ State.reset.params.kbsrAddr ∧
    (0xFE01 : Word) ≠ State.reset.params.kbdrAddr ∧ storeAddress State.reset (.st .r0 1) = some 0x3001 ∧
    storeAddress State.reset (.st .r0 1) ≠ some 0xFE01 := ⟨⟨_, rfl⟩, by decide⟩

theorem witness_TrapRoutinesChangeOnlyWhatTheyName :
    Instr.out ∈ [Instr.getc 0, Instr.out, Instr.puts, Instr.inp 0, Instr.putsp, Instr.halt] ∧
    completes (exec .out State.reset) ∧ readsCharacter .out = false ∧ Instr.out ≠ .puts ∧
    Instr.out ≠ .putsp ∧ (0xFDFF : Word) ≠ State.reset.params.kbsrAddr ∧
    (0xFE03 : Word) ≠ State.reset.params.kbdrAddr := ⟨by decide, ⟨_, rfl⟩, by decide⟩

/-- Both places of the PC: a plain cell and KBSR. -/
theorem witness_StepRunsTheDecodedInstruction :
    ReadyToFetch State.reset ∧ State.reset.pc ≠ State.reset.params.kbsrAddr ∧
    decode (State.reset.cell State.reset.pc) = .br false false false 0 ∧
    ReadyToFetch (start 0xFE00 []) ∧ (start 0xFE00 []).pc = (start 0xFE00 []).params.kbsrAddr :=
  ⟨⟨rfl, rfl⟩, by decide, by decide, ⟨rfl, rfl⟩, by decide⟩

theorem witness_TerminalStatesTakeNoStep :
    ({ State.reset with run := .halted } : State).run = .halted ∧
    ({ State.reset with run := .failed .inputUnavailable 0xF020 0xFFFF } : State).run =
      .failed .inputUnavailable 0xF020 0xFFFF := ⟨rfl, rfl⟩

theorem witness_OnlyBlockedReadsHoldARunningMachine :
    ({ State.reset with pending := .waitIn 0xF023 } : State).run = .running := rfl

/-- A HALT and an instruction that is none. -/
theorem witness_OnlyHaltEntersHalted :
    completes (step (start 0x3000 [(0x3000, 0xF025)])) ∧ ReadyToFetch (start 0x3000 [(0x3000, 0xF025)]) ∧
    ((start 0x3000 [(0x3000, 0xF025)]).memRead 0x3000).1 = 0xF025 ∧ completes (step State.reset) :=
  ⟨⟨_, rfl⟩, ⟨rfl, rfl⟩, by decide, ⟨_, rfl⟩⟩

theorem witness_IllegalInstructionExactlyOnIllegalWords :
    completes (step (start 0xFFFF [(0xFFFF, 0xF01F)])) ∧ ReadyToFetch (start 0xFFFF [(0xFFFF, 0xF01F)]) ∧
    ((start 0xFFFF [(0xFFFF, 0xF01F)]).memRead 0xFFFF).1 = 0xF01F ∧ illegalWord 0xF01F :=
  ⟨⟨_, rfl⟩, ⟨rfl, rfl⟩, by decide, .inr (.inr ⟨by decide, by decide⟩)⟩

/-- Both ways to the failure: at the fetched TRAP, and in a routine that waited. -/
theorem witness_InputUnavailableExactlyAtEndOfStream :
    completes (step { start 0x3000 [(0x3000, 0xF020)] with inputEnded := true }) ∧
    ((start 0x3000 [(0x3000, 0xF020)]).memRead 0x3000).1 = 0xF020 ∧
    completes (step { ended with pending := .waitIn 0xF023 }) ∧
    ended.input = [] ∧ ended.inputEnded = true := ⟨⟨_, rfl⟩, by decide, ⟨_, rfl⟩, by decide, by decide⟩

theorem witness_StepKeepsTheInvariant : Inv State.reset ∧ completes (step State.reset) :=
  ⟨by unfold Machine.Inv; decide, ⟨_, rfl⟩⟩

theorem witness_ResetMeetsTheInvariant :
    specParams.kbsrAddr ≠ specParams.kbdrAddr ∧
    Memory.wf ({ specResetParams with initFill := [(0, 1), (0xFFFF, 2)] } : ResetParams).initFill = true := by
  decide

theorem witness_StepOrdersTheHostStreams : completes (step (pollStart [0x51] true)) := ⟨_, rfl⟩

theorem witness_StoreIsSeenByTheNextFetch :
    ReadyToFetch (start 0x3000 [(0x3000, 0x3200)]) ∧
    Memory.wf (start 0x3000 [(0x3000, 0x3200)]).mem = true ∧
    (start 0x3000 [(0x3000, 0x3200)]).pc ≠ (start 0x3000 [(0x3000, 0x3200)]).params.kbsrAddr ∧
    (start 0x3000 [(0x3000, 0x3200)]).pc + 1 ≠ (start 0x3000 [(0x3000, 0x3200)]).params.kbsrAddr ∧
    decode ((start 0x3000 [(0x3000, 0x3200)]).cell (start 0x3000 [(0x3000, 0x3200)]).pc) = .st .r1 0 :=
  ⟨⟨rfl, rfl⟩, by decide⟩

/-- No data word, and as many as there are cells. -/
theorem witness_LoadedImageStandsInMemory :
    ([] : List Word).length ≤ 65536 ∧ (List.replicate 65536 (0x1025 : Word)).length ≤ 65536 ∧
    Memory.wf [(0, 1)] = true ∧
    (∀ k, k < ([] : List Word).length → (0x3000 : Word) ≠ 0x3000 + BitVec.ofNat 16 k) :=
  ⟨by decide, by rw [List.length_replicate], by decide, by decide⟩

/-- The boundaries of both fields, and the first address past each. -/
theorem witness_LabelOffsetsReachTheirLabels :
    State.reset.pc = 0x2FFF + 1 ∧ labelOffset 9 0x2FFF 0x30FF = some 0x00FF ∧
    labelOffset 9 0x2FFF 0x3100 = none ∧ labelOffset 11 0x2FFF 0x2C00 = some 0xFC00 ∧
    labelOffset 11 0x2FFF 0x2BFF = none := by decide

end Sys2Proof.Tests
end

section
/-! PROOFS. The two extensions of 00_scope.md (rule R10): each bit of an extended field, and the number a
sign-extended field denotes. -/

namespace Sys2Proof

theorem getLsbD_sext16 {n : Nat} (f : BitVec n) (i : Nat) :
    (sext16 f).getLsbD i = (decide (i < 16) && if i < n then f.getLsbD i else f.getLsbD (n - 1)) := by
  rw [sext16, BitVec.getLsbD_signExtend, BitVec.msb_eq_getLsbD_last]

theorem getLsbD_zext16 {n : Nat} (c : BitVec n) (i : Nat) :
    (zext16 c).getLsbD i = (decide (i < 16) && c.getLsbD i) :=
  BitVec.getLsbD_setWidth 16 c i

/-- A negative field of `n` bits gains the weight of the copied bits `n` to 15, which is `2 ^ 16 - 2 ^ n`. -/
theorem toNat_sext16 {n : Nat} (hn : n ≤ 16) (f : BitVec n) :
    (sext16 f).toNat = if f.getLsbD (n - 1) then f.toNat + 2 ^ 16 - 2 ^ n else f.toNat := by
  have hpow : 2 ^ n ≤ 2 ^ 16 := Nat.pow_le_pow_right (by decide) hn
  rw [sext16, BitVec.toNat_signExtend, BitVec.toNat_setWidth_of_le hn, BitVec.msb_eq_getLsbD_last]
  split
  · exact (Nat.add_sub_assoc hpow f.toNat).symm
  · exact Nat.add_zero f.toNat

/-- Settles O1: the bits of both extensions by their bit rules, the value by `toNat_sext16`. -/
theorem signAndZeroExtensionOfFields : Obligations.SignAndZeroExtensionOfFields := by
  refine ⟨fun n hwidth f => ⟨fun i hi => ?signBits, ?signValue⟩, fun n _ c i hi => ?zeroBits⟩
  case signBits => rw [getLsbD_sext16, decide_eq_true hi, Bool.true_and]
  case signValue => exact toNat_sext16 (by omega) f
  case zeroBits =>
    rw [getLsbD_zext16, decide_eq_true hi, Bool.true_and]
    split
    · rfl
    · next habove => exact BitVec.getLsbD_of_ge c i (Nat.le_of_not_lt habove)

end Sys2Proof
end

section
/-! PROOFS. The condition flag (10_state.md rules R25, R26): the flag a value sets is the sign of that
value read as a signed number. -/

namespace Sys2Proof.Machine

theorem condOf_eq_p {v : Word} : condOf v = .p ↔ v ≠ 0 ∧ v.getLsbD 15 = false := by
  unfold condOf
  split
  · simp_all
  · split <;> simp_all

/-- The top bit of a word says that it is negative. -/
theorem getLsbD_15_iff_toInt_neg (v : Word) : v.getLsbD 15 = true ↔ v.toInt < 0 := by
  have hmsb : v.getLsbD 15 = decide (v.toInt < 0) := by
    rw [← BitVec.msb_eq_toInt, BitVec.msb_eq_getLsbD_last]
  rw [hmsb, decide_eq_true_iff]

/-- A word is positive exactly when it is neither zero nor negative. -/
theorem toInt_pos_iff_ne_zero_and_getLsbD_15 (v : Word) :
    0 < v.toInt ↔ v ≠ 0 ∧ v.getLsbD 15 = false := by
  have hzero : v.toInt = 0 ↔ v = 0 := BitVec.toInt_inj (y := 0#16)
  have hneg := getLsbD_15_iff_toInt_neg v
  rw [← Bool.not_eq_true, hneg, Ne, ← hzero]
  omega

/-- A flag set by `v` shows the sign of `v`, whatever else the state holds. -/
theorem flagShows_of_cond_eq {t : State} {v : Word} (h : t.cond = condOf v) : FlagShows v t := by
  refine ⟨?zero, ?negative, ?positive⟩
  case zero => rw [h, condOf_eq_z]
  case negative => rw [h, condOf_eq_n, getLsbD_15_iff_toInt_neg]
  case positive => rw [h, condOf_eq_p, toInt_pos_iff_ne_zero_and_getLsbD_15]

/-- Settles O2: `condOf` follows the sign, and the flag is the only field that `setcc` writes. -/
theorem flagFollowsTheSign : Obligations.FlagFollowsTheSign :=
  fun s v => ⟨flagShows_of_cond_eq (s.setcc_cond v), rfl⟩

end Sys2Proof.Machine
end

section
/-! PROOFS. The state after reset (10_state.md rule R32; 70_reset_and_hazards.md rule R180). -/

namespace Sys2Proof.Machine

open Sys2Proof.Config

/-- Reset meets the invariant for every parameter value that the spec admits. -/
theorem inv_resetWith {p : Params} {r : ResetParams} (hkeyboard : p.kbsrAddr ≠ p.kbdrAddr)
    (hfill : Memory.wf r.initFill = true) : Inv (State.resetWith p r) :=
  ⟨hfill, hkeyboard, fun _ => rfl⟩

/-- Settles O54: the spec's own values are among the admissible ones. -/
theorem resetMeetsTheInvariant : Obligations.ResetMeetsTheInvariant :=
  ⟨inv_resetWith (by decide) Memory.wf_reset, fun _ _ => inv_resetWith⟩

/-- The spec's `INIT_GPR` holds zero in every register (decision D7). -/
theorem regGet_specResetParams (q : Reg) : regGet specResetParams.initGpr q = 0 := by
  cases q <;> rfl

/-- Settles O55: each field of the reset state is its parameter or a constant, and the second half reads
the spec's values off. -/
theorem resetValues : Obligations.ResetValues := by
  refine ⟨fun p r => ?anyParams, ?specValues⟩
  case anyParams => exact ⟨rfl, rfl, rfl, fun _ => rfl, fun _ => rfl, rfl, rfl, rfl, rfl⟩
  case specValues =>
    exact ⟨rfl, rfl, rfl, regGet_specResetParams, fun _ => rfl, rfl, rfl, rfl, rfl⟩

end Sys2Proof.Machine
end

section
/-! PROOFS. What the six TRAP routines leave as it was (43_trap.md rule R129), on the state after the
link: the PC, every register but R0, and the flag but under `TRAP_INPUT_SETS_FLAGS`. -/

namespace Sys2Proof.Machine

/-- The vector of a routine (43_trap.md rule R127). -/
def Routine.vector : Routine → BitVec 8
  | .getc => 0x20 | .out => 0x21 | .puts => 0x22 | .inp => 0x23 | .putsp => 0x24 | .halt => 0x25

/-- The routine reads a character with `block_read` (43_trap.md rules R130, R133). -/
def Routine.readsInput : Routine → Bool
  | .getc | .inp => true
  | .out | .puts | .putsp | .halt => false

/-- The vector table lists each routine at its vector and nothing else. -/
theorem vectorRoutine_eq_some {v : BitVec 8} {r : Routine} :
    vectorRoutine v = some r ↔ v = r.vector := by
  constructor
  · intro h
    unfold vectorRoutine at h
    split_ifs at h <;> cases h <;> assumption
  · rintro rfl
    cases r <;> rfl

theorem isNamedVector_vector (r : Routine) : isNamedVector r.vector = true := by
  cases r <;> rfl

theorem vector_eq_inputVector (r : Routine) :
    (r.vector == 0x20 || r.vector == 0x23) = r.readsInput := by
  cases r <;> rfl

/-- What a blocking read and the rest of its routine leave as it was. -/
structure InputReadFrame (s t : State) : Prop where
  pc : t.pc = s.pc
  regs : RegsKeptBut .r0 s t
  cond : s.params.trapInputSetsFlags = false → t.cond = s.cond

theorem State.getcRead_frame (s : State) (word : Word) : InputReadFrame s (s.getcRead word) := by
  rcases s.getcRead_cases word with ⟨c, rest, -, h⟩ | ⟨-, -, h⟩ | ⟨-, -, h⟩ <;> rw [h]
  case inl =>
    rw [State.getcFinish_char]
    exact ⟨rfl, fun q hq => by simp [State.reg, regGet_regSet, hq], fun hflag => by simp [hflag]⟩
  case inr.inl | inr.inr => exact ⟨rfl, fun _ _ => rfl, fun _ => rfl⟩

theorem State.inRead_frame (s : State) (word : Word) : InputReadFrame s (s.inRead word) := by
  rcases s.inRead_cases word with ⟨c, rest, -, h⟩ | ⟨-, -, h⟩ | ⟨-, -, h⟩ <;> rw [h]
  case inl =>
    rw [State.inFinish_char]
    exact ⟨rfl, fun q hq => by simp [State.reg, regGet_regSet, hq], fun hflag => by simp [hflag]⟩
  case inr.inl | inr.inr => exact ⟨rfl, fun _ _ => rfl, fun _ => rfl⟩

/-- The prompt of IN is no part of its frame. -/
theorem State.inRoutine_frame (s : State) (word : Word) : InputReadFrame s (s.inRoutine word) :=
  have hread := (s.writeBytes s.params.inPrompt).inRead_frame word
  ⟨hread.pc, hread.regs, hread.cond⟩

/-- No routine writes the PC (10_state.md rule R23). -/
theorem State.runRoutine_pc (s : State) (word : Word) (r : Routine) :
    (s.runRoutine word r).pc = s.pc := by
  cases r with
  | getc => exact (s.getcRead_frame word).pc
  | inp => exact (s.inRoutine_frame word).pc
  | puts => exact s.putsScan_pc scanRound _
  | putsp => exact s.putspScan_pc scanRound _
  | out | halt => rfl

/-- A routine writes no register but R0, and R0 only where it reads a character. -/
theorem State.runRoutine_reg (s : State) (word : Word) (r : Routine) {q : Reg}
    (hq : r.readsInput = true → q ≠ .r0) : (s.runRoutine word r).reg q = s.reg q := by
  cases r with
  | getc => exact (s.getcRead_frame word).regs q (hq rfl)
  | inp => exact (s.inRoutine_frame word).regs q (hq rfl)
  | puts => exact State.reg_eq_of_regs (s.putsScan_regs ..) q
  | putsp => exact State.reg_eq_of_regs (s.putspScan_regs ..) q
  | out | halt => rfl

/-- A routine writes the flag only where it reads a character, under the parameter (decision D9). -/
theorem State.runRoutine_cond (s : State) (word : Word) (r : Routine)
    (hflag : (r.readsInput && s.params.trapInputSetsFlags) = false) :
    (s.runRoutine word r).cond = s.cond := by
  cases r with
  | getc => exact (s.getcRead_frame word).cond hflag
  | inp => exact (s.inRoutine_frame word).cond hflag
  | puts => exact s.putsScan_cond scanRound _
  | putsp => exact s.putspScan_cond scanRound _
  | out | halt => rfl

end Sys2Proof.Machine
end

section
/-! PROOFS. What an instruction can do, said once (`exec_effect`), and from it what 10_state.md says of
every instruction: which registers it writes (rules R20, R21), whether it writes the PC (rule R23) and
whether it writes the flag (rule R26). -/

namespace Sys2Proof.Machine

/-- `BusReads s m`: the state `m` is `s` after some bus reads. -/
inductive BusReads (s : State) : State → Prop where
  | none : BusReads s s
  | read {m : State} (a : Word) (before : BusReads s m) : BusReads s (m.memRead a).2

theorem BusReads.regs {s m : State} (h : BusReads s m) : m.regs = s.regs := by
  induction h with
  | none => rfl
  | read a _ ih => rw [State.memRead_regs, ih]

theorem BusReads.pc {s m : State} (h : BusReads s m) : m.pc = s.pc := by
  induction h with
  | none => rfl
  | read a _ ih => rw [State.memRead_pc, ih]

theorem BusReads.cond {s m : State} (h : BusReads s m) : m.cond = s.cond := by
  induction h with
  | none => rfl
  | read a _ ih => rw [State.memRead_cond, ih]

theorem BusReads.reg {s m : State} (h : BusReads s m) (q : Reg) : m.reg q = s.reg q :=
  State.reg_eq_of_regs h.regs q

/-- The routine an instruction runs: that of its vector (43_trap.md rule R127). -/
def routineOf : Instr → Option Routine
  | .trap _ v => vectorRoutine v
  | .getc _ => some .getc
  | .out => some .out
  | .puts => some .puts
  | .inp _ => some .inp
  | .putsp => some .putsp
  | .halt => some .halt
  | .br _ _ _ _ | .jmp _ | .ret | .jsr _ | .jsrr _ | .addReg _ _ _ | .addImm _ _ _ | .andReg _ _ _
  | .andImm _ _ _ | .not _ _ | .ld _ _ | .ldi _ _ | .ldr _ _ _ | .lea _ _ | .st _ _ | .sti _ _
  | .str _ _ _ | .rti _ | .res _ => none

/-- The six things an instruction can do, and which instructions do them: `Effect s i t` says that `t`
comes from `s` in the way of the family that `i` belongs to. -/
inductive Effect (s : State) (i : Instr) : State → Prop where
  /-- Bus reads, then a result to DR and the flag. -/
  | result {m : State} {dr : Reg} (v : Word) (hdest : flagSettingDest i = some dr)
      (hreads : BusReads s m) : Effect s i (m.writeResult dr v)
  /-- Bus reads, then a store. -/
  | store {m : State} {a : Word} (v : Word) (hdest : flagSettingDest i = none)
      (haddr : storeAddress s i = some a) (hreads : BusReads s m) : Effect s i (m.setCell a v)
  /-- A jump, or a branch that stays where it is. -/
  | jump (target : Word) (hdest : flagSettingDest i = none) (hpc : mayWritePc i = true) :
      Effect s i (s.setPc target)
  /-- The link, then a jump. -/
  | call (target : Word) (hdest : flagSettingDest i = none) (hpc : mayWritePc i = true)
      (hlink : ∀ links, writesReg links i .r7 = true) : Effect s i (s.link.setPc target)
  /-- TRAP entry, then a routine. -/
  | routine {r : Routine} (word : Word) (hroutine : routineOf i = some r) :
      Effect s i (s.trapEntry.runRoutine word r)
  /-- A reserved opcode or an unrecognised vector. -/
  | illegal (word : Word) (hdest : flagSettingDest i = none) :
      Effect s i (s.raise .illegalInstruction word)

/-- BR goes to its target or stays, and a PC written with itself is no change. -/
theorem execBr_effect (s : State) (n z p : Bool) (off : Word) :
    ∃ t, execBr n z p off s = .next t ∧ Effect s (.br n z p off) t := by
  refine ⟨_, rfl, ?_⟩
  split
  · exact .jump _ rfl rfl
  · exact (.jump s.pc rfl rfl : Effect s (.br n z p off) (s.setPc s.pc))

/-- TRAP runs the routine of its vector, or fails where the vector has none. -/
theorem execTrap_effect (s : State) (ign : BitVec 4) (v : BitVec 8) :
    ∃ t, execTrap ign v s = .next t ∧ Effect s (.trap ign v) t := by
  refine ⟨_, rfl, ?_⟩
  unfold State.trap
  cases hv : vectorRoutine v with
  | none => exact .illegal _ rfl
  | some r => exact .routine _ hv

/-- Every instruction has a next state in every state, by the effect of its family. -/
theorem exists_exec_effect (s : State) : ∀ i, ∃ t, exec i s = .next t ∧ Effect s i t
  | .addReg .. | .addImm .. | .andReg .. | .andImm .. | .not .. | .lea .. =>
    ⟨_, rfl, .result _ rfl .none⟩
  | .ld .. | .ldr .. => ⟨_, rfl, .result _ rfl (.read _ .none)⟩
  | .ldi .. => ⟨_, rfl, .result _ rfl (.read _ (.read _ .none))⟩
  | .st .. | .str .. => ⟨_, rfl, .store _ rfl rfl .none⟩
  | .sti .. => ⟨_, rfl, .store _ rfl rfl (.read _ .none)⟩
  | .br n z p off => execBr_effect s n z p off
  | .jmp _ | .ret => ⟨_, rfl, .jump _ rfl rfl⟩
  | .jsr _ | .jsrr _ => ⟨_, rfl, .call _ rfl rfl fun _ => rfl⟩
  | .trap ign v => execTrap_effect s ign v
  | .getc ign => ⟨_, rfl, .routine (r := .getc) (trapWord ign 0x20) rfl⟩
  | .inp ign => ⟨_, rfl, .routine (r := .inp) (trapWord ign 0x23) rfl⟩
  | .out => ⟨_, rfl, .routine (r := .out) (trapWord 0 0x21) rfl⟩
  | .puts => ⟨_, rfl, .routine (r := .puts) (trapWord 0 0x22) rfl⟩
  | .putsp => ⟨_, rfl, .routine (r := .putsp) (trapWord 0 0x24) rfl⟩
  | .halt => ⟨_, rfl, .routine (r := .halt) (trapWord 0 0x25) rfl⟩
  | .rti _ | .res _ => ⟨_, rfl, .illegal _ rfl⟩

/-- The inversion of `exec`: a next state comes from the effect of the instruction's family. -/
theorem exec_effect {i : Instr} {s t : State} (h : exec i s = .next t) : Effect s i t := by
  obtain ⟨u, hu, heffect⟩ := exists_exec_effect s i
  rw [h] at hu
  cases hu
  exact heffect

/-! What the tables of Safety.lean say of each family. -/

/-- A flag-setting instruction may write its DR. -/
theorem writesReg_flagSettingDest {i : Instr} {dr : Reg} (h : flagSettingDest i = some dr)
    (links : Bool) : writesReg links i dr = true := by
  cases i <;> simp_all [flagSettingDest, writesReg]

/-- An instruction that runs a routine may write the link and, where the routine reads a character, R0. -/
theorem writesReg_of_routineOf {i : Instr} {r : Routine} (h : routineOf i = some r) (links : Bool)
    (q : Reg) : writesReg links i q = (links && q == .r7 || r.readsInput && q == .r0) := by
  cases i with
  | trap ign v =>
    obtain rfl := vectorRoutine_eq_some.mp h
    rw [writesReg, isNamedVector_vector, vector_eq_inputVector, Bool.and_true]
  | getc | inp | out | puts | putsp | halt => cases h; simp [writesReg, Routine.readsInput]
  | _ => cases h

theorem readsCharacter_of_routineOf {i : Instr} {r : Routine} (h : routineOf i = some r) :
    readsCharacter i = r.readsInput := by
  cases i with
  | trap ign v =>
    obtain rfl := vectorRoutine_eq_some.mp h
    exact vector_eq_inputVector r
  | getc | inp | out | puts | putsp | halt => cases h; rfl
  | _ => cases h

theorem flagSettingDest_of_routineOf {i : Instr} {r : Routine} (h : routineOf i = some r) :
    flagSettingDest i = none := by
  cases i with
  | trap | getc | inp | out | puts | putsp | halt => rfl
  | _ => cases h

/-! The three frames. -/

/-- TRAP entry leaves every register alone but R7 under `TRAP_LINKS_R7`. -/
theorem State.trapEntry_reg_other {s : State} {q : Reg}
    (hq : (s.params.trapLinksR7 && q == .r7) = false) : s.trapEntry.reg q = s.reg q := by
  rw [State.trapEntry_reg, if_neg]
  rintro ⟨rfl, hlinks⟩
  simp [hlinks] at hq

/-- Settles O42: each family's effect, at a register that the family's instructions do not write. -/
theorem onlyNamedRegistersAreWritten : Obligations.OnlyNamedRegistersAreWritten := by
  intro i s t h q hq
  cases exec_effect h with
  | @result m dr v hdest hreads =>
    have hne : q ≠ dr := by
      rintro rfl
      simp [writesReg_flagSettingDest hdest] at hq
    rw [State.writeResult_reg, if_neg hne, hreads.reg]
  | store v _ _ hreads => rw [State.setCell_reg, hreads.reg]
  | jump => rfl
  | call target _ _ hlink =>
    have hne : q ≠ .r7 := by
      rintro rfl
      simp [hlink] at hq
    rw [State.setPc_reg, State.link, State.reg_setReg, if_neg hne]
  | @routine r word hroutine =>
    rw [writesReg_of_routineOf hroutine, Bool.or_eq_false_iff] at hq
    obtain ⟨hlink, hinput⟩ := hq
    have hne : r.readsInput = true → q ≠ .r0 := by
      rintro hreads rfl
      simp [hreads] at hinput
    rw [State.runRoutine_reg _ _ _ hne, State.trapEntry_reg_other hlink]
  | illegal => rfl

/-- Settles O43: of the families only jumps and calls write the PC, and both are excluded. -/
theorem onlyControlTransfersWriteThePc : Obligations.OnlyControlTransfersWriteThePc := by
  intro i s t hkeeps h
  cases exec_effect h with
  | result v _ hreads => rw [State.writeResult_pc, hreads.pc]
  | store v _ _ hreads => rw [State.setCell_pc, hreads.pc]
  | jump _ _ hpc => simp [hpc] at hkeeps
  | call _ _ hpc => simp [hpc] at hkeeps
  | routine word => rw [State.runRoutine_pc, State.trapEntry_pc]
  | illegal => rfl

/-- A flag-setting instruction leaves the flag at the sign of its DR (10_state.md rule R26). -/
theorem flagShows_of_flagSettingDest {i : Instr} {s t : State} {dr : Reg}
    (hdr : flagSettingDest i = some dr) (h : exec i s = .next t) : FlagShows (t.reg dr) t := by
  cases exec_effect h with
  | result v hdest _ =>
    obtain rfl := Option.some.inj (hdest.symm.trans hdr)
    exact flagShows_of_cond_eq (by rw [State.writeResult_cond, State.writeResult_reg, if_pos rfl])
  | store _ hdest | jump _ hdest | call _ hdest | illegal _ hdest => simp [hdest] at hdr
  | routine _ hroutine => simp [flagSettingDest_of_routineOf hroutine] at hdr

/-- No other instruction writes the flag, but GETC and IN under the parameter (decision D9). -/
theorem cond_of_flagSettingDest_none {i : Instr} {s t : State} (hnone : flagSettingDest i = none)
    (hflag : (readsCharacter i && s.params.trapInputSetsFlags) = false) (h : exec i s = .next t) :
    t.cond = s.cond := by
  cases exec_effect h with
  | result _ hdest => simp [hdest] at hnone
  | store v _ _ hreads => rw [State.setCell_cond, hreads.cond]
  | jump | call | illegal => rfl
  | routine word hroutine =>
    rw [readsCharacter_of_routineOf hroutine] at hflag
    rw [State.runRoutine_cond _ _ _ (by rwa [State.trapEntry_params]), State.trapEntry_cond]

/-- Settles O44: the two halves, for the flag-setting instructions and for the others. -/
theorem flagIsWrittenExactlyByFlagSetters : Obligations.FlagIsWrittenExactlyByFlagSetters :=
  fun _ _ _ h => ⟨fun _ hdr => flagShows_of_flagSettingDest hdr h,
    fun hnone hflag => cond_of_flagSettingDest_none hnone hflag h⟩

end Sys2Proof.Machine
end

section
/-! PROOFS. The keyboard poll, the bus read and the bus write (20_memory.md rules R43 to R45): which
cells they write, and that they leave the rest as it was. -/

namespace Sys2Proof.Machine

/-! The poll. -/

/-- The state of a poll that finds `c`, as its two cell writes (20_memory.md rule R44). -/
theorem State.keyboardPoll_of_found {s : State} {c : Byte} {rest : List Byte}
    (hinput : s.input = c :: rest) (hdraw : s.nextDraw = true) :
    s.keyboardPoll =
      (({ s with draws := s.draws.tail, polls := s.polls + 1, input := rest } : State).setCell
        s.params.kbsrAddr (s.cell s.params.kbsrAddr ||| 0x8000)).setCell
        s.params.kbdrAddr (zext16 c) := by
  rcases s.keyboardPoll_cases with ⟨c', rest', hinput', -, h⟩ | ⟨hnothing, -⟩
  · obtain ⟨rfl, rfl⟩ := List.cons.inj (hinput.symm.trans hinput')
    exact h
  · simp [hinput, hdraw] at hnothing

/-- The state of a poll that finds nothing, as its one cell write (20_memory.md rule R44). -/
theorem State.keyboardPoll_of_not_found {s : State} (hnothing : s.input = [] ∨ s.nextDraw = false) :
    s.keyboardPoll =
      ({ s with draws := s.draws.tail, polls := s.polls + 1 } : State).setCell
        s.params.kbsrAddr (s.cell s.params.kbsrAddr &&& 0x7FFF) := by
  rcases s.keyboardPoll_cases with ⟨c, rest, hinput, hdraw, -⟩ | ⟨-, h⟩
  · simp [hinput, hdraw] at hnothing
  · exact h

/-- What a poll leaves as it was or counts, whether it finds a character or not. -/
theorem State.keyboardPoll_frame (s : State) :
    s.keyboardPoll.inputEnded = s.inputEnded ∧ s.keyboardPoll.draws = s.draws.tail ∧
    s.keyboardPoll.polls = s.polls + 1 ∧ RegsKept s s.keyboardPoll ∧
    s.keyboardPoll.cond = s.cond ∧ s.keyboardPoll.pc = s.pc ∧ s.keyboardPoll.output = s.output ∧
    RunKept s s.keyboardPoll :=
  ⟨s.keyboardPoll_inputEnded, s.keyboardPoll_draws, s.keyboardPoll_polls, s.keyboardPoll_reg,
    s.keyboardPoll_cond, s.keyboardPoll_pc, s.keyboardPoll_output,
    s.keyboardPoll_run, s.keyboardPoll_pending, s.keyboardPoll_params⟩

/-- Setting the ready bit of a KBSR value leaves the other 15 bits (decision D19). -/
theorem getLsbD_or_readyBit (v : Word) {i : Nat} (hi : i < 16) :
    (v ||| 0x8000).getLsbD i = if i = 15 then true else v.getLsbD i := by
  have hmask : ∀ j < 16, (0x8000 : Word).getLsbD j = decide (j = 15) := by decide
  rw [BitVec.getLsbD_or, hmask i hi]
  split <;> simp [*]

/-- Clearing the ready bit of a KBSR value leaves the other 15 bits (decision D19). -/
theorem getLsbD_and_not_readyBit (v : Word) {i : Nat} (hi : i < 16) :
    (v &&& 0x7FFF).getLsbD i = if i = 15 then false else v.getLsbD i := by
  have hmask : ∀ j < 16, (0x7FFF : Word).getLsbD j = decide (j ≠ 15) := by decide
  rw [BitVec.getLsbD_and, hmask i hi]
  split <;> simp [*]

/-- KBSR after a poll that finds a character: KBDR, written last, is another cell. -/
theorem State.keyboardPoll_kbsr_of_found {s : State} {c : Byte} {rest : List Byte}
    (hwf : Memory.wf s.mem = true) (hkeyboard : s.params.kbsrAddr ≠ s.params.kbdrAddr)
    (hinput : s.input = c :: rest) (hdraw : s.nextDraw = true) :
    s.keyboardPoll.cell s.params.kbsrAddr = s.cell s.params.kbsrAddr ||| 0x8000 := by
  rw [State.keyboardPoll_of_found hinput hdraw, State.cell_setCell_other _ _ hkeyboard]
  exact State.cell_setCell_same _ _ _ hwf

/-- KBDR after a poll that finds a character (decision D12). -/
theorem State.keyboardPoll_kbdr_of_found {s : State} {c : Byte} {rest : List Byte}
    (hwf : Memory.wf s.mem = true) (hinput : s.input = c :: rest) (hdraw : s.nextDraw = true) :
    s.keyboardPoll.cell s.params.kbdrAddr = zext16 c := by
  rw [State.keyboardPoll_of_found hinput hdraw]
  exact State.cell_setCell_same _ _ _ (Memory.wf_write _ _ hwf)

/-- KBSR after a poll that finds nothing. -/
theorem State.keyboardPoll_kbsr_of_not_found {s : State} (hwf : Memory.wf s.mem = true)
    (hnothing : s.input = [] ∨ s.nextDraw = false) :
    s.keyboardPoll.cell s.params.kbsrAddr = s.cell s.params.kbsrAddr &&& 0x7FFF := by
  rw [State.keyboardPoll_of_not_found hnothing]
  exact State.cell_setCell_same _ _ _ hwf

/-- After a poll the ready bit says whether the poll found a character. -/
theorem State.keyboardPoll_readyBit {s : State} (hwf : Memory.wf s.mem = true)
    (hkeyboard : s.params.kbsrAddr ≠ s.params.kbdrAddr) :
    (s.keyboardPoll.cell s.params.kbsrAddr).getLsbD 15 = s.poll.1.isSome := by
  rcases s.poll_cases with ⟨c, rest, hinput, hdraw, hpoll⟩ | ⟨hnothing, hpoll⟩
  · rw [State.keyboardPoll_kbsr_of_found hwf hkeyboard hinput hdraw, hpoll]
    exact getLsbD_or_readyBit _ (by decide)
  · rw [State.keyboardPoll_kbsr_of_not_found hwf hnothing, hpoll]
    exact getLsbD_and_not_readyBit _ (by decide)

/-- Settles O4: the two cells that the poll writes, `keyboardPoll_cell` for the other cells and
`keyboardPoll_frame` for the rest. -/
theorem keyboardPollFindsCharacter : Obligations.KeyboardPollFindsCharacter := by
  intro s c rest hwf hkeyboard hinput hdraw
  refine ⟨fun i hi => ?kbsr, ?kbdr, fun _ => s.keyboardPoll_cell, ?consumed, s.keyboardPoll_frame⟩
  case kbsr =>
    rw [State.keyboardPoll_kbsr_of_found hwf hkeyboard hinput hdraw, getLsbD_or_readyBit _ hi]
  case kbdr =>
    rw [State.keyboardPoll_kbdr_of_found hwf hinput hdraw]
    exact BitVec.toNat_setWidth_of_le (by decide)
  case consumed => rw [State.keyboardPoll_of_found hinput hdraw]; rfl

/-- Settles O5: KBSR is the one cell that the poll writes, and the stream is not touched. -/
theorem keyboardPollFindsNothing : Obligations.KeyboardPollFindsNothing := by
  intro s hwf hnothing
  refine ⟨fun i hi => ?kbsr, fun b hb => ?others, ?kept, s.keyboardPoll_frame⟩
  case kbsr =>
    rw [State.keyboardPoll_kbsr_of_not_found hwf hnothing, getLsbD_and_not_readyBit _ hi]
  case others =>
    rw [State.keyboardPoll_of_not_found hnothing]
    exact State.cell_setCell_other _ _ hb
  case kept => rw [State.keyboardPoll_of_not_found hnothing]; rfl

/-! The bus. -/

/-- Settles O3: the two cases of a bus read. -/
theorem busReadPollsOnlyAtKeyboardStatus : Obligations.BusReadPollsOnlyAtKeyboardStatus := by
  refine fun s a => ⟨?polls, ?plain⟩
  case polls =>
    rintro rfl
    rw [State.memRead_kbsr]
    exact ⟨rfl, rfl⟩
  case plain =>
    intro hplain
    rw [State.memRead_plain hplain]
    exact ⟨rfl, rfl⟩

/-- A bus write is a store to its cell and nothing else, at every address (20_memory.md rule R45). -/
theorem State.memWrite_storeEffect (s : State) (a v : Word) : StoreEffect s a v (s.memWrite a v) :=
  ⟨s.cell_setCell_same a v, fun _ hb => s.cell_setCell_other v hb, fun _ => rfl, rfl, rfl,
    ⟨rfl, rfl, rfl, rfl⟩, rfl, rfl, rfl, rfl⟩

/-- Settles O6: the store's own effect, then the poll of a read in the state after it. -/
theorem busWriteHasNoSideEffect : Obligations.BusWriteHasNoSideEffect := by
  intro s a v hwf
  refine ⟨?store, fun hkeyboard => ?nextRead⟩
  case store =>
    obtain ⟨hcell, hrest⟩ := s.memWrite_storeEffect a v
    exact ⟨hcell hwf, hrest⟩
  case nextRead =>
    have hread := (s.memWrite s.params.kbsrAddr v).memRead_kbsr
    calc ((s.memWrite s.params.kbsrAddr v).memRead s.params.kbsrAddr).1.getLsbD 15
        = ((s.memWrite s.params.kbsrAddr v).keyboardPoll.cell s.params.kbsrAddr).getLsbD 15 :=
          congrArg (fun r => r.1.getLsbD 15) hread
      _ = (s.memWrite s.params.kbsrAddr v).poll.1.isSome :=
          State.keyboardPoll_readyBit (Memory.wf_write _ v hwf) hkeyboard

end Sys2Proof.Machine
end

section
/-! PROOFS. What bus reads and the TRAP routines do to memory (20_memory.md rule R46; 43_trap.md rule
R129), and from it what every instruction may write there. -/

namespace Sys2Proof.Machine

/-- What a poll leaves of memory: the parameters, every cell but the two keyboard cells, and the
canonical form. -/
structure PollFrame (s t : State) : Prop where
  params : t.params = s.params
  cells : ∀ a, a ≠ s.params.kbsrAddr → a ≠ s.params.kbdrAddr → t.cell a = s.cell a
  wf : Memory.wf s.mem = true → Memory.wf t.mem = true

theorem PollFrame.of_mem {s t : State} (hparams : t.params = s.params) (hmem : t.mem = s.mem) :
    PollFrame s t :=
  ⟨hparams, fun a _ _ => State.cell_eq_of_mem hmem a, fun hwf => hmem ▸ hwf⟩

theorem PollFrame.trans {s t u : State} (hst : PollFrame s t) (htu : PollFrame t u) :
    PollFrame s u where
  params := htu.params.trans hst.params
  cells a h1 h2 := (htu.cells a (hst.params ▸ h1) (hst.params ▸ h2)).trans (hst.cells a h1 h2)
  wf hwf := htu.wf (hst.wf hwf)

theorem State.memRead_pollFrame (s : State) (a : Word) : PollFrame s (s.memRead a).2 :=
  ⟨s.memRead_params a, fun _ => s.memRead_cell a, s.memRead_wf a⟩

theorem BusReads.pollFrame {s m : State} (h : BusReads s m) : PollFrame s m := by
  induction h with
  | none => exact .of_mem rfl rfl
  | @read m a _ ih => exact ih.trans (m.memRead_pollFrame a)

/-- The fetch is a bus read and a write of the PC. -/
theorem State.fetch_pollFrame (s : State) : PollFrame s s.fetch.2 :=
  (s.memRead_pollFrame s.pc).trans (.of_mem rfl rfl)

theorem State.trapEntry_pollFrame (s : State) : PollFrame s s.trapEntry :=
  .of_mem s.trapEntry_params s.trapEntry_mem

/-! The routines. GETC and IN write no cell (decision D35); the scans read over the bus. -/

theorem State.getcRead_pollFrame (s : State) (word : Word) : PollFrame s (s.getcRead word) := by
  rcases s.getcRead_cases word with ⟨c, rest, -, h⟩ | ⟨-, -, h⟩ | ⟨-, -, h⟩ <;> rw [h]
  case inl => rw [State.getcFinish_char]; exact .of_mem rfl rfl
  case inr.inl | inr.inr => exact .of_mem rfl rfl

theorem State.inRead_pollFrame (s : State) (word : Word) : PollFrame s (s.inRead word) := by
  rcases s.inRead_cases word with ⟨c, rest, -, h⟩ | ⟨-, -, h⟩ | ⟨-, -, h⟩ <;> rw [h]
  case inl => rw [State.inFinish_char]; exact .of_mem rfl rfl
  case inr.inl | inr.inr => exact .of_mem rfl rfl

theorem State.putsScan_pollFrame (fuel : Nat) (a : Word) (s : State) :
    PollFrame s (s.putsScan fuel a) :=
  s.putsScan_induct PollFrame (fun _ _ _ => .trans) State.memRead_pollFrame
    (fun _ _ => .of_mem rfl rfl) (fun _ _ => .of_mem rfl rfl) fuel a

theorem State.putspScan_pollFrame (fuel : Nat) (a : Word) (s : State) :
    PollFrame s (s.putspScan fuel a) :=
  s.putspScan_induct PollFrame (fun _ _ _ => .trans) State.memRead_pollFrame
    (fun _ _ => .of_mem rfl rfl) (fun _ _ => .of_mem rfl rfl) fuel a

/-- No routine writes a cell but the keyboard cells (43_trap.md rule R129). -/
theorem State.runRoutine_pollFrame (s : State) (word : Word) (r : Routine) :
    PollFrame s (s.runRoutine word r) := by
  cases r with
  | getc => exact s.getcRead_pollFrame word
  | inp =>
    have hprompt : PollFrame s (s.writeBytes s.params.inPrompt) := .of_mem rfl rfl
    exact hprompt.trans ((s.writeBytes s.params.inPrompt).inRead_pollFrame word)
  | puts => exact s.putsScan_pollFrame scanRound _
  | putsp => exact s.putspScan_pollFrame scanRound _
  | out | halt => exact .of_mem rfl rfl

/-- An instruction polls and makes at most one store, to the cell it addresses. -/
theorem Effect.memory {s t : State} {i : Instr} (h : Effect s i t) :
    PollFrame s t ∨ ∃ m a v, PollFrame s m ∧ storeAddress s i = some a ∧ t = m.setCell a v := by
  cases h with
  | @result m dr v _ hreads =>
    exact .inl (hreads.pollFrame.trans (.of_mem (m.writeResult_params dr v) (m.writeResult_mem dr v)))
  | store v _ haddr hreads => exact .inr ⟨_, _, v, hreads.pollFrame, haddr, rfl⟩
  | jump | call | illegal => exact .inl (.of_mem rfl rfl)
  | @routine r word _ =>
    exact .inl (s.trapEntry_pollFrame.trans (s.trapEntry.runRoutine_pollFrame word r))

/-- Settles O45: a poll writes the keyboard cells only, and a store writes the cell it addresses. -/
theorem memoryChangesOnlyByStoresAndPolls : Obligations.MemoryChangesOnlyByStoresAndPolls := by
  intro i s t h a hkbsr hkbdr hstore
  rcases (exec_effect h).memory with hpolls | ⟨m, b, v, hpolls, haddr, rfl⟩
  · exact hpolls.cells a hkbsr hkbdr
  · have hne : a ≠ b := by
      rintro rfl
      exact hstore haddr
    rw [State.cell_setCell_other m v hne, hpolls.cells a hkbsr hkbdr]

end Sys2Proof.Machine
end

section
/-! PROOFS. The invariant of a step (20_memory.md rules R42, R52; 30_encoding.md rules R81, R85). Its
memory part is `Effect.memory`; its other part is that a routine stops inside only in a run that goes
on. -/

namespace Sys2Proof.Machine

/-! A routine that suspends has not ended the run. -/

theorem State.getcRead_run_of_suspended {s : State} {word : Word}
    (hsuspended : (s.getcRead word).pending ≠ .idle) : (s.getcRead word).run = s.run := by
  rcases s.getcRead_cases word with ⟨c, rest, -, h⟩ | ⟨-, -, h⟩ | ⟨-, -, h⟩ <;> rw [h] at hsuspended ⊢
  case inl => rw [State.getcFinish_char]
  case inr.inl => exact absurd rfl hsuspended
  case inr.inr => rfl

theorem State.inRead_run_of_suspended {s : State} {word : Word}
    (hsuspended : (s.inRead word).pending ≠ .idle) : (s.inRead word).run = s.run := by
  rcases s.inRead_cases word with ⟨c, rest, -, h⟩ | ⟨-, -, h⟩ | ⟨-, -, h⟩ <;> rw [h] at hsuspended ⊢
  case inl => rw [State.inFinish_char]
  case inr.inl => exact absurd rfl hsuspended
  case inr.inr => rfl

theorem State.runRoutine_run_of_suspended {s : State} {word : Word} {r : Routine}
    (hsuspended : (s.runRoutine word r).pending ≠ .idle) : (s.runRoutine word r).run = s.run := by
  cases r with
  | getc => exact State.getcRead_run_of_suspended hsuspended
  | inp => exact State.inRead_run_of_suspended (s := s.writeBytes s.params.inPrompt) hsuspended
  | puts => exact s.putsScan_run scanRound _
  | putsp => exact s.putspScan_run scanRound _
  | out => rfl
  | halt => exact absurd rfl hsuspended

theorem BusReads.pending {s m : State} (h : BusReads s m) : m.pending = s.pending := by
  induction h with
  | none => rfl
  | read a _ ih => rw [State.memRead_pending, ih]

/-- An instruction that ends inside a routine has not ended the run. -/
theorem Effect.run_of_suspended {s t : State} {i : Instr} (h : Effect s i t)
    (hidle : s.pending = .idle) (hsuspended : t.pending ≠ .idle) : t.run = s.run := by
  cases h with
  | result v _ hreads =>
    rw [State.writeResult_pending, hreads.pending] at hsuspended
    exact absurd hidle hsuspended
  | store v _ _ hreads =>
    rw [State.setCell_pending, hreads.pending] at hsuspended
    exact absurd hidle hsuspended
  | jump | call | illegal => exact absurd hidle hsuspended
  | routine => rw [State.runRoutine_run_of_suspended hsuspended, State.trapEntry_run]

/-! The invariant. -/

theorem PollFrame.inv {s t : State} (h : PollFrame s t) (hinv : Inv s)
    (hrun : t.pending ≠ .idle → t.run = .running) : Inv t := by
  obtain ⟨hwf, hkeyboard, -⟩ := hinv
  exact ⟨h.wf hwf, by rwa [h.params], hrun⟩

theorem State.setCell_inv {s : State} (hinv : Inv s) (a v : Word) : Inv (s.setCell a v) := by
  obtain ⟨hwf, hkeyboard, hrun⟩ := hinv
  exact ⟨Memory.wf_write a v hwf, hkeyboard, hrun⟩

/-- Every instruction that a machine about to fetch has fetched keeps the invariant. -/
theorem exec_inv {i : Instr} {s t : State} (hinv : Inv s) (hready : ReadyToFetch s)
    (h : exec i s = .next t) : Inv t := by
  obtain ⟨hrunning, hidle⟩ := hready
  have hrun : t.pending ≠ .idle → t.run = .running := fun hsuspended =>
    ((exec_effect h).run_of_suspended hidle hsuspended).trans hrunning
  rcases (exec_effect h).memory with hpolls | ⟨m, a, v, hpolls, -, rfl⟩
  · exact hpolls.inv hinv hrun
  · exact State.setCell_inv (hpolls.inv hinv hrun) a v

theorem State.fetch_readyToFetch {s : State} (h : ReadyToFetch s) : ReadyToFetch s.fetch.2 :=
  ⟨(s.memRead_run s.pc).trans h.1, (s.memRead_pending s.pc).trans h.2⟩

theorem State.fetch_inv {s : State} (hinv : Inv s) (hready : ReadyToFetch s) : Inv s.fetch.2 :=
  s.fetch_pollFrame.inv hinv fun _ => (State.fetch_readyToFetch hready).1

/-- Settles O53: a step executes an instruction after its fetch, or goes on with a routine. -/
theorem stepKeepsTheInvariant : Obligations.StepKeepsTheInvariant := by
  intro s t hinv hstep
  obtain ⟨hrunning, hcases⟩ := step_cases hstep
  rcases hcases with ⟨hidle, h⟩ | ⟨w, -, -, rfl⟩ | ⟨w, -, -, rfl⟩ | ⟨a, -, rfl⟩ | ⟨a, -, rfl⟩
  · have hready : ReadyToFetch s := ⟨hrunning, hidle⟩
    exact exec_inv (State.fetch_inv hinv hready) (State.fetch_readyToFetch hready) h
  · exact (s.getcRead_pollFrame w).inv hinv fun hsuspended =>
      (State.getcRead_run_of_suspended hsuspended).trans hrunning
  · exact (s.inRead_pollFrame w).inv hinv fun hsuspended =>
      (State.inRead_run_of_suspended hsuspended).trans hrunning
  · exact (s.putsScan_pollFrame scanRound a).inv hinv fun _ =>
      (s.putsScan_run scanRound a).trans hrunning
  · exact (s.putspScan_pollFrame scanRound a).inv hinv fun _ =>
      (s.putspScan_run scanRound a).trans hrunning

end Sys2Proof.Machine
end

section
/-! PROOFS. Self-modifying code (20_memory.md rule R54): a fetch reads what the last store wrote. -/

namespace Sys2Proof.Machine

/-- The step of a machine that is to fetch (30_encoding.md rules R80, R83). -/
theorem step_readyToFetch {s : State} (h : ReadyToFetch s) :
    step s = exec (decode s.fetch.1) s.fetch.2 := by
  obtain ⟨hrunning, hidle⟩ := h
  unfold step resumeRoutine
  rw [hrunning, hidle]

/-- Its step where the fetch does not poll. -/
theorem step_readyToFetch_plain {s : State} (h : ReadyToFetch s) (hpc : s.pc ≠ s.params.kbsrAddr) :
    step s = exec (decode (s.cell s.pc)) { s with pc := s.pc + 1 } := by
  rw [step_readyToFetch h, State.fetch_plain hpc]

/-- A word stored at the PC is the word that the next step runs. -/
theorem step_memWrite_pc {s : State} (h : ReadyToFetch s) (hwf : Memory.wf s.mem = true)
    (hpc : s.pc ≠ s.params.kbsrAddr) (w : Word) :
    step (s.memWrite s.pc w) = exec (decode w) { s.memWrite s.pc w with pc := s.pc + 1 } := by
  have hready : ReadyToFetch (s.memWrite s.pc w) := h
  have hcell : (s.memWrite s.pc w).cell (s.memWrite s.pc w).pc = w :=
    s.cell_setCell_same s.pc w hwf
  rw [step_readyToFetch_plain hready hpc, hcell]
  rfl

/-- ST with offset 0 stores at the incremented PC (42_load_store.md rules R114, R117). -/
theorem exec_st_zero (sr : Reg) (s : State) :
    exec (.st sr 0) s = .next (s.memWrite s.pc (s.reg sr)) := by
  have haddr : s.pcRel 0 = s.pc := BitVec.add_zero s.pc
  have hexec : exec (.st sr 0) s = .next (s.memWrite (s.pcRel 0) (s.reg sr)) := rfl
  rw [hexec, haddr]

/-- Settles O57: the store goes to the incremented PC, where the next step fetches. -/
theorem storeIsSeenByTheNextFetch : Obligations.StoreIsSeenByTheNextFetch := by
  intro s sr hready hwf hpc hnext hdecode
  refine ⟨(s.setPc (s.pc + 1)).memWrite (s.pc + 1) (s.reg sr), ?store, ?nextFetch⟩
  case store =>
    rw [step_readyToFetch_plain hready hpc, hdecode, exec_st_zero]
    rfl
  case nextFetch => exact step_memWrite_pc (s := s.setPc (s.pc + 1)) hready hwf hnext (s.reg sr)

end Sys2Proof.Machine
end

section
/-! PROOFS. The fields of an instruction word (30_encoding.md rules R61 to R64): what a word made of parts
reads as, field by field, and which fields a mask covers. -/

namespace Sys2Proof

/-! A word made of parts. -/

/-- The parts of a word, the topmost first, each at the sum of the widths below it. -/
theorem append3_fields {a b c : Nat} (x : BitVec a) (y : BitVec b) (z : BitVec c) :
    (x ++ y ++ z).extractLsb' (b + c) a = x ∧ (x ++ y ++ z).extractLsb' c b = y ∧
    (x ++ y ++ z).extractLsb' 0 c = z := by
  refine ⟨?_, ?_, BitVec.extractLsb'_append_eq_right⟩
  · rw [BitVec.extractLsb'_append_eq_of_le (Nat.le_add_left c b), Nat.add_sub_cancel]
    exact BitVec.extractLsb'_append_eq_left
  · rw [BitVec.extractLsb'_append_eq_of_le (Nat.le_refl c), Nat.sub_self]
    exact BitVec.extractLsb'_append_eq_right

theorem append4_fields {a b c d : Nat} (x : BitVec a) (y : BitVec b) (z : BitVec c) (u : BitVec d) :
    (x ++ y ++ z ++ u).extractLsb' (b + c + d) a = x ∧ (x ++ y ++ z ++ u).extractLsb' (c + d) b = y ∧
    (x ++ y ++ z ++ u).extractLsb' d c = z ∧ (x ++ y ++ z ++ u).extractLsb' 0 d = u := by
  obtain ⟨hx, hy, hz⟩ := append3_fields x y z
  refine ⟨?_, ?_, (append3_fields (x ++ y) z u).2⟩
  · rw [BitVec.extractLsb'_append_eq_of_le (Nat.le_add_left d _), Nat.add_sub_cancel, hx]
  · rw [BitVec.extractLsb'_append_eq_of_le (Nat.le_add_left d _), Nat.add_sub_cancel, hy]

theorem append5_fields {a b c d e : Nat} (x : BitVec a) (y : BitVec b) (z : BitVec c) (u : BitVec d)
    (v : BitVec e) :
    (x ++ y ++ z ++ u ++ v).extractLsb' (b + c + d + e) a = x ∧
    (x ++ y ++ z ++ u ++ v).extractLsb' (c + d + e) b = y ∧
    (x ++ y ++ z ++ u ++ v).extractLsb' (d + e) c = z ∧
    (x ++ y ++ z ++ u ++ v).extractLsb' e d = u ∧
    (x ++ y ++ z ++ u ++ v).extractLsb' 0 e = v := by
  obtain ⟨hx, hy, -⟩ := append4_fields x y z u
  refine ⟨?_, ?_, (append4_fields (x ++ y) z u v).2⟩
  · rw [BitVec.extractLsb'_append_eq_of_le (Nat.le_add_left e _), Nat.add_sub_cancel, hx]
  · rw [BitVec.extractLsb'_append_eq_of_le (Nat.le_add_left e _), Nat.add_sub_cancel, hy]

/-- A bit of a word is a bit of the field that it stands in. -/
theorem getLsbD_of_field {w : Word} {start len : Nat} {f : BitVec len}
    (h : w.extractLsb' start len = f) {i : Nat} (hi : i < len) :
    w.getLsbD (start + i) = f.getLsbD i := by
  rw [← h, BitVec.getLsbD_extractLsb', decide_eq_true hi, Bool.true_and]

theorem extractLsb'_one_bit (w : Word) (i : Nat) :
    w.extractLsb' i 1 = BitVec.ofBool (w.getLsbD i) := by
  apply BitVec.eq_of_getLsbD_eq
  intro j hj
  obtain rfl : j = 0 := by omega
  simp

/-! The numbers of registers and opcodes, and the extended fields. -/

theorem Reg.ofBits_toBits (r : Reg) : Reg.ofBits r.toBits = r := by
  cases r <;> rfl

theorem Reg.toBits_ofBits : ∀ b : BitVec 3, (Reg.ofBits b).toBits = b := by decide

theorem Reg.ofBits_inj {a b : BitVec 3} : Reg.ofBits a = Reg.ofBits b ↔ a = b :=
  (Function.LeftInverse.injective Reg.toBits_ofBits).eq_iff

theorem Opcode.ofBits_toBits (op : Opcode) : Opcode.ofBits op.toBits = op := by
  cases op <;> rfl

theorem Opcode.toBits_ofBits : ∀ b : BitVec 4, (Opcode.ofBits b).toBits = b := by decide

theorem Opcode.ofBits_inj {a b : BitVec 4} : Opcode.ofBits a = Opcode.ofBits b ↔ a = b :=
  (Function.LeftInverse.injective Opcode.toBits_ofBits).eq_iff

theorem setWidth_sext16 {n : Nat} (hn : n ≤ 16) (f : BitVec n) : (sext16 f).setWidth n = f := by
  apply BitVec.eq_of_getLsbD_eq
  intro i hi
  rw [BitVec.getLsbD_setWidth, getLsbD_sext16, if_pos hi, decide_eq_true hi,
    decide_eq_true (show i < 16 by omega), Bool.true_and, Bool.true_and]

theorem sext16_inj {n : Nat} (hn : n ≤ 16) {f g : BitVec n} : sext16 f = sext16 g ↔ f = g :=
  (Function.LeftInverse.injective (setWidth_sext16 hn)).eq_iff

theorem sext16_setWidth {n : Nat} {v : Word} (h : fitsSigned n v = true) :
    sext16 (v.setWidth n) = v :=
  eq_of_beq h

theorem fitsSigned_sext16 {n : Nat} (hn : n ≤ 16) (f : BitVec n) :
    fitsSigned n (sext16 f) = true := by
  rw [fitsSigned, setWidth_sext16 hn, sext16, beq_self_eq_true]

theorem opcode_of_field {w : Word} {op : Opcode} (h : w.extractLsb' 12 4 = op.toBits) :
    Opcode.ofBits (fieldOp w) = op := by
  rw [fieldOp, h, Opcode.ofBits_toBits]

theorem reg_of_field {w : Word} {start : Nat} {r : Reg} (h : w.extractLsb' start 3 = r.toBits) :
    Reg.ofBits (w.extractLsb' start 3) = r := by
  rw [h, Reg.ofBits_toBits]

/-! What the decoder reads in each format of rule R63. -/

theorem pcrelWord_reads (op : Opcode) (r : Reg) (off : Word) :
    Opcode.ofBits (fieldOp (pcrelWord op r off)) = op ∧ fieldDR (pcrelWord op r off) = r ∧
    fieldOff9 (pcrelWord op r off) = sext16 (off.setWidth 9) := by
  obtain ⟨hop, hr, hoff⟩ := append3_fields op.toBits r.toBits (off.setWidth 9)
  exact ⟨opcode_of_field hop, reg_of_field hr, congrArg sext16 hoff⟩

theorem baseWord_reads (op : Opcode) (r base : Reg) (off : Word) :
    Opcode.ofBits (fieldOp (baseWord op r base off)) = op ∧ fieldDR (baseWord op r base off) = r ∧
    fieldSR1 (baseWord op r base off) = base ∧
    fieldOff6 (baseWord op r base off) = sext16 (off.setWidth 6) := by
  obtain ⟨hop, hr, hbase, hoff⟩ := append4_fields op.toBits r.toBits base.toBits (off.setWidth 6)
  exact ⟨opcode_of_field hop, reg_of_field hr, reg_of_field hbase, congrArg sext16 hoff⟩

/-- The mode bit of format OPR is the top one of its three zero bits (rule R67). -/
theorem oprWord_reads (op : Opcode) (dr sr1 sr2 : Reg) :
    Opcode.ofBits (fieldOp (oprWord op dr sr1 sr2)) = op ∧
    (oprWord op dr sr1 sr2).getLsbD 5 = false ∧ fieldDR (oprWord op dr sr1 sr2) = dr ∧
    fieldSR1 (oprWord op dr sr1 sr2) = sr1 ∧ fieldSR2 (oprWord op dr sr1 sr2) = sr2 := by
  obtain ⟨hop, hdr, hsr1, hzero, hsr2⟩ :=
    append5_fields op.toBits dr.toBits sr1.toBits (0 : BitVec 3) sr2.toBits
  exact ⟨opcode_of_field hop, getLsbD_of_field (i := 2) hzero (by decide), reg_of_field hdr,
    reg_of_field hsr1, reg_of_field hsr2⟩

theorem opiWord_reads (op : Opcode) (dr sr1 : Reg) (imm : Word) :
    Opcode.ofBits (fieldOp (opiWord op dr sr1 imm)) = op ∧
    (opiWord op dr sr1 imm).getLsbD 5 = true ∧ fieldDR (opiWord op dr sr1 imm) = dr ∧
    fieldSR1 (opiWord op dr sr1 imm) = sr1 ∧
    fieldImm5 (opiWord op dr sr1 imm) = sext16 (imm.setWidth 5) := by
  obtain ⟨hop, hdr, hsr1, hmode, himm⟩ :=
    append5_fields op.toBits dr.toBits sr1.toBits (1 : BitVec 1) (imm.setWidth 5)
  exact ⟨opcode_of_field hop, getLsbD_of_field (i := 0) hmode (by decide), reg_of_field hdr,
    reg_of_field hsr1, congrArg sext16 himm⟩

/-- JSRR's mode bit is the top one of its three zero bits. -/
theorem jumpWord_reads (op : Opcode) (base : Reg) :
    Opcode.ofBits (fieldOp (jumpWord op base)) = op ∧ (jumpWord op base).getLsbD 11 = false ∧
    fieldSR1 (jumpWord op base) = base := by
  obtain ⟨hop, hzero, hbase, -⟩ :=
    append4_fields op.toBits (0 : BitVec 3) base.toBits (0 : BitVec 6)
  exact ⟨opcode_of_field hop, getLsbD_of_field (i := 2) hzero (by decide), reg_of_field hbase⟩

theorem trapWord_reads (ign : BitVec 4) (v : BitVec 8) :
    Opcode.ofBits (fieldOp (trapWord ign v)) = .trap ∧ (trapWord ign v).extractLsb' 8 4 = ign ∧
    fieldVect (trapWord ign v) = v := by
  obtain ⟨hop, hign, hv⟩ := append3_fields Opcode.trap.toBits ign v
  exact ⟨opcode_of_field hop, hign, hv⟩

theorem brWord_reads (n z p : Bool) (off : Word) :
    Opcode.ofBits (fieldOp (encode (.br n z p off))) = .br ∧
    (encode (.br n z p off)).getLsbD 11 = n ∧ (encode (.br n z p off)).getLsbD 10 = z ∧
    (encode (.br n z p off)).getLsbD 9 = p ∧
    fieldOff9 (encode (.br n z p off)) = sext16 (off.setWidth 9) := by
  obtain ⟨hop, hn, hz, hp, hoff⟩ := append5_fields Opcode.br.toBits (BitVec.ofBool n)
    (BitVec.ofBool z) (BitVec.ofBool p) (off.setWidth 9)
  have hbit : ∀ b : Bool, (BitVec.ofBool b).getLsbD 0 = b := by decide
  exact ⟨opcode_of_field hop, (getLsbD_of_field (i := 0) hn (by decide)).trans (hbit n),
    (getLsbD_of_field (i := 0) hz (by decide)).trans (hbit z),
    (getLsbD_of_field (i := 0) hp (by decide)).trans (hbit p), congrArg sext16 hoff⟩

theorem jsrWord_reads (off : Word) :
    Opcode.ofBits (fieldOp (encode (.jsr off))) = .jsr ∧ (encode (.jsr off)).getLsbD 11 = true ∧
    fieldOff11 (encode (.jsr off)) = sext16 (off.setWidth 11) := by
  obtain ⟨hop, hmode, hoff⟩ := append3_fields Opcode.jsr.toBits (1 : BitVec 1) (off.setWidth 11)
  exact ⟨opcode_of_field hop, getLsbD_of_field (i := 0) hmode (by decide), congrArg sext16 hoff⟩

theorem notWord_reads (dr sr : Reg) :
    Opcode.ofBits (fieldOp (encode (.not dr sr))) = .not ∧ fieldDR (encode (.not dr sr)) = dr ∧
    fieldSR1 (encode (.not dr sr)) = sr := by
  obtain ⟨hop, hdr, hsr, -⟩ :=
    append4_fields Opcode.not.toBits dr.toBits sr.toBits (0x3F : BitVec 6)
  exact ⟨opcode_of_field hop, reg_of_field hdr, reg_of_field hsr⟩

/-- The words of RES and RTI. -/
theorem reservedWord_reads (op : Opcode) (ign : BitVec 12) :
    Opcode.ofBits (fieldOp (op.toBits ++ ign)) = op ∧ (op.toBits ++ ign).extractLsb' 0 12 = ign :=
  ⟨opcode_of_field BitVec.extractLsb'_append_eq_left, BitVec.extractLsb'_append_eq_right⟩

/-! Which fields a mask covers. -/

/-- The bits of the listed fields, each given by its lowest bit and its width. -/
def maskOf : List (Nat × Nat) → Word
  | [] => 0
  | (start, len) :: rest => ((BitVec.allOnes len).setWidth 16 <<< start) ||| maskOf rest

theorem getLsbD_maskOf (fields : List (Nat × Nat)) {i : Nat} (hi : i < 16) :
    (maskOf fields).getLsbD i = true ↔ ∃ f ∈ fields, f.1 ≤ i ∧ i < f.1 + f.2 := by
  induction fields with
  | nil => simp [maskOf]
  | cons f rest ih =>
    obtain ⟨start, len⟩ := f
    simp only [maskOf, BitVec.getLsbD_or, Bool.or_eq_true, ih, List.exists_mem_cons_iff]
    refine or_congr_left ?_
    simp only [BitVec.getLsbD_shiftLeft, BitVec.getLsbD_setWidth, BitVec.getLsbD_allOnes,
      Bool.and_eq_true, Bool.not_eq_true', decide_eq_true_iff, decide_eq_false_iff_not]
    omega

/-- Two words agree under a mask exactly when they agree in every field that it covers. -/
theorem and_maskOf_eq_iff (fields : List (Nat × Nat)) {x w : Word} :
    x &&& maskOf fields = w &&& maskOf fields ↔
      ∀ f ∈ fields, x.extractLsb' f.1 f.2 = w.extractLsb' f.1 f.2 := by
  constructor
  · intro h f hf
    apply BitVec.eq_of_getLsbD_eq
    intro i hi
    rw [BitVec.getLsbD_extractLsb', BitVec.getLsbD_extractLsb']
    by_cases hin : f.1 + i < 16
    · have hmask := (getLsbD_maskOf fields hin).mpr ⟨f, hf, by omega⟩
      have hbit := congrArg (·.getLsbD (f.1 + i)) h
      simp only [BitVec.getLsbD_and, hmask, Bool.and_true] at hbit
      rw [hbit]
    · rw [BitVec.getLsbD_of_ge x _ (by omega), BitVec.getLsbD_of_ge w _ (by omega)]
  · intro h
    apply BitVec.eq_of_getLsbD_eq
    intro i hi
    rw [BitVec.getLsbD_and, BitVec.getLsbD_and]
    cases hmask : (maskOf fields).getLsbD i with
    | false => rw [Bool.and_false, Bool.and_false]
    | true =>
      obtain ⟨f, hf, hlo, hhi⟩ := (getLsbD_maskOf fields hi).mp hmask
      have hbit := getLsbD_of_field (h f hf) (i := i - f.1) (by omega)
      rw [BitVec.getLsbD_extractLsb', decide_eq_true (by omega), Bool.true_and,
        Nat.add_sub_cancel' hlo] at hbit
      rw [hbit]

end Sys2Proof
end

section
/-! PROOFS. The decoder and the encoder undo each other (30_encoding.md rules R62 to R71), and the decoder
reads only the used bits (rule R68). -/

namespace Sys2Proof

/-! The two readings that log entry 3 splits off. -/

/-- The vectors whose routine keeps no instruction word for a report, so that bits [11:8] are ignored
(rule R68). -/
abbrev DropsWord (v : BitVec 8) : Prop := v = 0x21 ∨ v = 0x22 ∨ v = 0x24 ∨ v = 0x25

theorem decodeTrap_of_unnamed {ign : BitVec 4} {v : BitVec 8} (h : isNamedVector v = false) :
    decodeTrap ign v = .trap ign v := by
  unfold decodeTrap
  split_ifs <;> simp_all [isNamedVector]

theorem wellFormed_decodeTrap (ign : BitVec 4) (v : BitVec 8) :
    (decodeTrap ign v).wellFormed = true := by
  unfold decodeTrap
  split_ifs <;> simp_all [Instr.wellFormed, isNamedVector]

/-- The routines that keep no word for a report drop bits [11:8]. -/
theorem encode_decodeTrap (ign : BitVec 4) (v : BitVec 8) :
    encode (decodeTrap ign v) = trapWord (if DropsWord v then 0 else ign) v := by
  unfold decodeTrap
  split_ifs <;> simp_all [encode, DropsWord]

theorem decodeTrap_ign {v : BitVec 8} (h : DropsWord v) (ign ign' : BitVec 4) :
    decodeTrap ign v = decodeTrap ign' v := by
  rcases h with rfl | rfl | rfl | rfl <;> rfl

theorem decodeTrap_eq_iff {ign ign' : BitVec 4} {v v' : BitVec 8} :
    decodeTrap ign v = decodeTrap ign' v' ↔ v = v' ∧ (DropsWord v' ∨ ign = ign') := by
  constructor
  · intro h
    have hword := congrArg encode h
    rw [encode_decodeTrap, encode_decodeTrap] at hword
    have hv : v = v' := by simpa only [trapWord_reads] using congrArg fieldVect hword
    have hign := congrArg (BitVec.extractLsb' 8 4) hword
    simp only [trapWord_reads, hv] at hign
    refine ⟨hv, or_iff_not_imp_left.mpr fun hkeeps => ?_⟩
    rwa [if_neg hkeeps, if_neg hkeeps] at hign
  · rintro ⟨rfl, hdrops | rfl⟩
    · exact decodeTrap_ign hdrops ign ign'
    · rfl

theorem decodeJmp_of_ne {base : Reg} (h : base ≠ .r7) : decodeJmp base = .jmp base :=
  if_neg h

theorem decodeJmp_r7 : decodeJmp .r7 = .ret := rfl

theorem wellFormed_decodeJmp (base : Reg) : (decodeJmp base).wellFormed = true := by
  cases base <;> rfl

theorem decodeJmp_inj {base base' : Reg} : decodeJmp base = decodeJmp base' ↔ base = base' := by
  unfold decodeJmp
  split_ifs <;> simp_all [eq_comm]

/-! Decoding an encoded instruction. -/

/-- A well-formed instruction's own word, format by format; the forms with an immediate or an offset need
it to fit its field. -/
theorem decode_encode : ∀ i : Instr, i.wellFormed = true → decode (encode i) = i
  | .br .., hfits => by simp only [decode, brWord_reads, sext16_setWidth hfits]
  | .ld .., hfits | .st .., hfits | .ldi .., hfits | .sti .., hfits | .lea .., hfits => by
    simp only [encode, decode, pcrelWord_reads, sext16_setWidth hfits]
  | .ldr .., hfits | .str .., hfits => by
    simp only [encode, decode, baseWord_reads, sext16_setWidth hfits]
  | .addReg .., _ | .andReg .., _ => by
    simp only [encode, decode, oprWord_reads, Bool.false_eq_true, if_false]
  | .addImm .., hfits | .andImm .., hfits => by
    simp only [encode, decode, opiWord_reads, sext16_setWidth hfits, if_true]
  | .jsr _, hfits => by simp only [decode, jsrWord_reads, sext16_setWidth hfits, if_true]
  | .jsrr _, _ => by simp only [encode, decode, jumpWord_reads, Bool.false_eq_true, if_false]
  | .jmp _, hbase => by
    simp only [encode, decode, jumpWord_reads, decodeJmp_of_ne (bne_iff_ne.mp hbase)]
  | .ret, _ => by simp only [encode, decode, jumpWord_reads, decodeJmp_r7]
  | .not .., _ => by simp only [decode, notWord_reads]
  | .rti _, _ | .res _, _ => by simp only [encode, decode, reservedWord_reads]
  | .trap .., hunnamed => by
    simp only [encode, decode, trapWord_reads]
    exact decodeTrap_of_unnamed ((Bool.not_eq_true' _).mp hunnamed)
  | .getc _, _ | .inp _, _ | .out, _ | .puts, _ | .putsp, _ | .halt, _ => by
    simp only [encode, decode, trapWord_reads]
    rfl

/-! The fields that an instruction depends on. -/

/-- The fields below the opcode that a word's instruction depends on (rules R62, R68). -/
def operandFields (w : Word) : List (Nat × Nat) :=
  match Opcode.ofBits (fieldOp w) with
  | .br => [(11, 1), (10, 1), (9, 1), (0, 9)]
  | .add | .and =>
      if w.getLsbD 5 then [(5, 1), (9, 3), (6, 3), (0, 5)] else [(5, 1), (9, 3), (6, 3), (0, 3)]
  | .ld | .st | .ldi | .sti | .lea => [(9, 3), (0, 9)]
  | .ldr | .str => [(9, 3), (6, 3), (0, 6)]
  | .jsr => if w.getLsbD 11 then [(11, 1), (0, 11)] else [(11, 1), (6, 3)]
  | .not => [(9, 3), (6, 3)]
  | .jmp => [(6, 3)]
  | .rti | .res => [(0, 12)]
  | .trap => if DropsWord (fieldVect w) then [(0, 8)] else [(0, 8), (8, 4)]

/-- The used bits are the opcode field and the operand fields. -/
theorem usedBits_eq_maskOf (w : Word) : usedBits w = maskOf ((12, 4) :: operandFields w) := by
  unfold usedBits operandFields
  cases Opcode.ofBits (fieldOp w) with
  | add | and | jsr | trap => dsimp only; split <;> decide
  | _ => dsimp only; decide

/-- The instruction of a word has the opcode of its opcode field. -/
theorem opcodeOf_decode (w : Word) : Laws.opcodeOf (decode w) = Opcode.ofBits (fieldOp w) := by
  unfold decode
  cases Opcode.ofBits (fieldOp w) with
  | add | and | jsr => dsimp only; split <;> rfl
  | jmp => dsimp only [decodeJmp]; split <;> rfl
  | trap => dsimp only [decodeTrap]; split_ifs <;> rfl
  | _ => rfl

section
variable {x w : Word}

theorem extractLsb'_one_eq_iff {i : Nat} :
    x.extractLsb' i 1 = w.extractLsb' i 1 ↔ x.getLsbD i = w.getLsbD i := by
  rw [extractLsb'_one_bit, extractLsb'_one_bit]
  cases x.getLsbD i <;> cases w.getLsbD i <;> decide

theorem fieldDR_eq_iff : fieldDR x = fieldDR w ↔ x.extractLsb' 9 3 = w.extractLsb' 9 3 :=
  Reg.ofBits_inj
theorem fieldSR1_eq_iff : fieldSR1 x = fieldSR1 w ↔ x.extractLsb' 6 3 = w.extractLsb' 6 3 :=
  Reg.ofBits_inj
theorem fieldSR2_eq_iff : fieldSR2 x = fieldSR2 w ↔ x.extractLsb' 0 3 = w.extractLsb' 0 3 :=
  Reg.ofBits_inj
theorem fieldImm5_eq_iff : fieldImm5 x = fieldImm5 w ↔ x.extractLsb' 0 5 = w.extractLsb' 0 5 :=
  sext16_inj (by decide)
theorem fieldOff6_eq_iff : fieldOff6 x = fieldOff6 w ↔ x.extractLsb' 0 6 = w.extractLsb' 0 6 :=
  sext16_inj (by decide)
theorem fieldOff9_eq_iff : fieldOff9 x = fieldOff9 w ↔ x.extractLsb' 0 9 = w.extractLsb' 0 9 :=
  sext16_inj (by decide)
theorem fieldOff11_eq_iff : fieldOff11 x = fieldOff11 w ↔ x.extractLsb' 0 11 = w.extractLsb' 0 11 :=
  sext16_inj (by decide)

/-- Of two words with the same opcode: the fields that the decoder reads are the operand fields. -/
theorem decode_eq_iff_operands (hop : fieldOp x = fieldOp w) :
    decode x = decode w ↔
      ∀ f ∈ operandFields w, x.extractLsb' f.1 f.2 = w.extractLsb' f.1 f.2 := by
  unfold decode operandFields
  rw [hop]
  cases Opcode.ofBits (fieldOp w) with
  | br => simp [extractLsb'_one_eq_iff, fieldOff9_eq_iff]
  | ld | st | ldi | sti | lea => simp [fieldDR_eq_iff, fieldOff9_eq_iff]
  | ldr | str => simp [fieldDR_eq_iff, fieldSR1_eq_iff, fieldOff6_eq_iff]
  | add | and =>
    cases hw : w.getLsbD 5 <;> cases hx : x.getLsbD 5 <;>
      simp [-BitVec.getLsbD_eq_getElem, hx, hw, extractLsb'_one_eq_iff, fieldDR_eq_iff,
        fieldSR1_eq_iff, fieldSR2_eq_iff, fieldImm5_eq_iff]
  | jsr =>
    cases hw : w.getLsbD 11 <;> cases hx : x.getLsbD 11 <;>
      simp [-BitVec.getLsbD_eq_getElem, hx, hw, extractLsb'_one_eq_iff, fieldSR1_eq_iff,
        fieldOff11_eq_iff]
  | not => simp [fieldDR_eq_iff, fieldSR1_eq_iff]
  | jmp => simp [decodeJmp_inj, fieldSR1_eq_iff]
  | rti | res => simp
  | trap =>
    dsimp only
    rw [decodeTrap_eq_iff, fieldVect, fieldVect]
    split <;> simp [*]

end

/-- Two words decode to the same instruction exactly when they agree on the used bits of either. -/
theorem decode_eq_iff {x w : Word} :
    decode x = decode w ↔ x &&& usedBits w = w &&& usedBits w := by
  rw [usedBits_eq_maskOf, and_maskOf_eq_iff, List.forall_mem_cons]
  constructor
  · intro h
    have hop : fieldOp x = fieldOp w :=
      Opcode.ofBits_inj.mp (by rw [← opcodeOf_decode, h, opcodeOf_decode])
    exact ⟨hop, (decode_eq_iff_operands hop).mp h⟩
  · rintro ⟨hop, hoperands⟩
    exact (decode_eq_iff_operands hop).mpr hoperands

/-! The three statements. -/

theorem wellFormed_decode (w : Word) : (decode w).wellFormed = true := by
  unfold decode
  cases Opcode.ofBits (fieldOp w) with
  | br | ld | st | ldi | sti | lea | ldr | str => exact fitsSigned_sext16 (by decide) _
  | add | and | jsr =>
    dsimp only
    split
    · exact fitsSigned_sext16 (by decide) _
    · rfl
  | jmp => exact wellFormed_decodeJmp _
  | trap => exact wellFormed_decodeTrap _ _
  | rti | not | res => rfl

/-- Settles O7: in each format the decoder reads back the parts that the encoder put together. -/
theorem decodeOfEncodeIsTheInstruction : Obligations.DecodeOfEncodeIsTheInstruction :=
  decode_encode

/-- Settles O8: the instruction of `w` is that of its own encoding, so the two words agree on the used
bits. -/
theorem everyWordDecodesAndReencodes : Obligations.EveryWordDecodesAndReencodes :=
  fun w => ⟨wellFormed_decode w, decode_eq_iff.mp (decode_encode _ (wellFormed_decode w))⟩

/-- Settles O9: the other direction of `decode_eq_iff`. -/
theorem ignoredBitsDoNotChangeTheInstruction : Obligations.IgnoredBitsDoNotChangeTheInstruction :=
  fun _ _ h => (decode_eq_iff.mpr h.symm).symm

end Sys2Proof
end

section
/-! PROOFS. The ignored bits of the forms that report their whole word (30_encoding.md rule R68;
60_exceptions.md rules R161, R162, R164): the word shows in the failure's report and nowhere else. -/

namespace Sys2Proof.Machine

/-- The states `t` and `u` differ at most in the instruction word that their run state reports or that
their waiting routine keeps for a report. -/
structure DifferInReportedWord (t u : State) : Prop where
  fields : u = { t with run := u.run, pending := u.pending }
  run : t.run = u.run ∨ ∃ k x y z, t.run = .failed k x z ∧ u.run = .failed k y z
  pending : t.pending = u.pending ∨
    (∃ x y, t.pending = .waitGetc x ∧ u.pending = .waitGetc y) ∨
    (∃ x y, t.pending = .waitIn x ∧ u.pending = .waitIn y)

theorem DifferInReportedWord.refl (t : State) : DifferInReportedWord t t :=
  ⟨rfl, .inl rfl, .inl rfl⟩

theorem State.raise_differInReportedWord (s : State) (kind : FailKind) (x y : Word) :
    DifferInReportedWord (s.raise kind x) (s.raise kind y) :=
  ⟨rfl, .inr ⟨kind, x, y, _, rfl, rfl⟩, .inl rfl⟩

theorem State.getcFinish_differInReportedWord (s : State) (x y : Word) (answer : BlockRead) :
    DifferInReportedWord (s.getcFinish x answer) (s.getcFinish y answer) := by
  cases answer with
  | char c => exact .refl _
  | endOfStream => exact ⟨rfl, .inr ⟨_, x, y, _, rfl, rfl⟩, .inl rfl⟩
  | wait => exact ⟨rfl, .inl rfl, .inr (.inl ⟨x, y, rfl, rfl⟩)⟩

theorem State.inFinish_differInReportedWord (s : State) (x y : Word) (answer : BlockRead) :
    DifferInReportedWord (s.inFinish x answer) (s.inFinish y answer) := by
  cases answer with
  | char c => exact .refl _
  | endOfStream => exact ⟨rfl, .inr ⟨_, x, y, _, rfl, rfl⟩, .inl rfl⟩
  | wait => exact ⟨rfl, .inl rfl, .inr (.inr ⟨x, y, rfl, rfl⟩)⟩

/-- A routine uses its instruction word for the report only. -/
theorem State.runRoutine_differInReportedWord (s : State) (x y : Word) (r : Routine) :
    DifferInReportedWord (s.runRoutine x r) (s.runRoutine y r) := by
  cases r with
  | getc => exact State.getcFinish_differInReportedWord ..
  | inp => exact State.inFinish_differInReportedWord ..
  | out | puts | putsp | halt => exact .refl _

theorem State.trap_differInReportedWord (s : State) (c d : BitVec 4) (v : BitVec 8) :
    DifferInReportedWord (s.trap c v) (s.trap d v) := by
  unfold State.trap
  cases vectorRoutine v with
  | none => exact s.raise_differInReportedWord ..
  | some r => exact s.trapEntry.runRoutine_differInReportedWord ..

/-- Settles O10: RES and RTI raise, and the other three run a routine or raise. -/
theorem ignoredBitsShowOnlyInTheReport : Obligations.IgnoredBitsShowOnlyInTheReport := by
  intro s a b c d v p hp
  have hdiffer : ∃ t u, exec p.1 s = .next t ∧ exec p.2 s = .next u ∧ DifferInReportedWord t u := by
    simp only [List.mem_cons, List.not_mem_nil, or_false] at hp
    rcases hp with rfl | rfl | rfl | rfl | rfl
    · exact ⟨_, _, rfl, rfl, s.raise_differInReportedWord ..⟩
    · exact ⟨_, _, rfl, rfl, s.raise_differInReportedWord ..⟩
    · exact ⟨_, _, rfl, rfl, s.trap_differInReportedWord c d v⟩
    · exact ⟨_, _, rfl, rfl, s.trapEntry.runRoutine_differInReportedWord _ _ .getc⟩
    · exact ⟨_, _, rfl, rfl, s.trapEntry.runRoutine_differInReportedWord _ _ .inp⟩
  obtain ⟨t, u, ht, hu, hfields, hrun, hpending⟩ := hdiffer
  exact ⟨t, u, ht, hu, hfields, hrun, hpending⟩

end Sys2Proof.Machine
end

section
/-! PROOFS. Label offsets (30_encoding.md rule R72; 41_control.md rule R104). -/

namespace Sys2Proof.Machine

/-- A word is the sign extension of an `n`-bit field exactly when, read as signed, it lies in the range
of such a field (30_encoding.md rule R64). -/
theorem fitsSigned_iff {n : Nat} (hn : 0 < n) (hn16 : n ≤ 16) (v : Word) :
    fitsSigned n v = true ↔ -2 ^ (n - 1) ≤ v.toInt ∧ v.toInt < 2 ^ (n - 1) := by
  rw [fitsSigned, beq_iff_eq, ← BitVec.toInt_inj, BitVec.toInt_signExtend_of_le hn16]
  constructor
  · intro h
    rw [← h]
    exact ⟨BitVec.le_toInt _, BitVec.toInt_lt⟩
  · rintro ⟨hlow, hhigh⟩
    rw [← BitVec.signExtend_eq_setWidth_of_le v hn16,
      BitVec.toInt_signExtend_eq_toInt_bmod_of_le v hn16, ← BitVec.toInt_ofInt,
      BitVec.toInt_ofInt_eq_self hn hlow hhigh]

/-- A label's offset is rejected exactly outside the signed range of the field. -/
theorem labelOffset_eq_none_iff {n : Nat} (hn : 0 < n) (hn16 : n ≤ 16) (addr label : Word) :
    labelOffset n addr label = none ↔
      ¬ (-2 ^ (n - 1) ≤ (label - (addr + 1)).toInt ∧ (label - (addr + 1)).toInt < 2 ^ (n - 1)) := by
  rw [labelOffset, ← fitsSigned_iff hn hn16]
  split
  · next hfits => exact iff_of_false nofun (not_not.mpr hfits)
  · next hfits => exact iff_of_true rfl hfits

/-- An offset that is not rejected leads from the incremented PC to the label. -/
theorem pcRel_of_labelOffset {n : Nat} {addr label off : Word} {s : State} (hpc : s.pc = addr + 1)
    (h : labelOffset n addr label = some off) : s.pcRel off = label := by
  unfold labelOffset at h
  split at h
  · cases h
    rw [State.pcRel, hpc, BitVec.add_comm, BitVec.sub_add_cancel]
  · cases h

/-- `BR` with no condition letters is taken under every flag (rule R73). -/
theorem exec_asmBr (off : Word) (s : State) : exec (asmBr off) s = .next (s.setPc (s.pcRel off)) := by
  have htaken : ∀ c, branchTaken true true true c = true := by intro c; cases c <;> rfl
  simp only [asmBr, exec, execBr, htaken, if_true]

/-- Settles O60: the range of each field, and the target of each of the three instructions. -/
theorem labelOffsetsReachTheirLabels : Obligations.LabelOffsetsReachTheirLabels := by
  intro addr label s hpc
  refine ⟨?range9, ?range11, fun off h => ⟨?br, ?lea⟩, fun off h => ?jsr⟩
  case range9 =>
    rw [labelOffset_eq_none_iff (by decide) (by decide)]
    omega
  case range11 =>
    rw [labelOffset_eq_none_iff (by decide) (by decide)]
    omega
  case br => exact ⟨_, exec_asmBr off s, pcRel_of_labelOffset hpc h⟩
  case lea =>
    refine ⟨_, rfl, ?_⟩
    rw [State.writeResult_reg, if_pos rfl, pcRel_of_labelOffset hpc h]
  case jsr => exact ⟨_, rfl, pcRel_of_labelOffset (s := s.link) hpc h⟩

end Sys2Proof.Machine
end

section
/-! PROOFS. The execution loop (30_encoding.md rules R80 to R84). -/

namespace Sys2Proof.Machine

/-- Settles O47: the step of a machine that is to fetch, with the two cases of the fetch's bus read. -/
theorem stepRunsTheDecodedInstruction : Obligations.StepRunsTheDecodedInstruction := by
  intro s hready
  refine ⟨step_readyToFetch hready, ⟨?ownAddress, ?wraps⟩, ?plain, ?kbsr⟩
  case ownAddress => exact BitVec.add_sub_cancel s.pc 1
  case wraps => exact BitVec.toNat_add s.pc 1
  case plain =>
    rintro hpc _ rfl
    exact step_readyToFetch_plain hready hpc
  case kbsr =>
    intro hpc
    rw [step_readyToFetch hready, State.fetch, hpc, State.memRead_kbsr]

/-- Settles O48: the two terminal run states. -/
theorem terminalStatesTakeNoStep : Obligations.TerminalStatesTakeNoStep := by
  refine fun s => ⟨fun hrun => ?halted, fun k w a hrun => ?failed⟩
  case halted => rw [step, hrun]
  case failed => rw [step, hrun]

end Sys2Proof.Machine
end

section
/-! PROOFS. ADD, AND and NOT (40_operate.md rules R90 to R94): how the decoder reads their words, the bits or
the number of their result, and what writing a result leaves as it was. -/

namespace Sys2Proof

/-! The words. -/

/-- Of a word with ADD's opcode, bit 5 selects the mode (30_encoding.md rule R67). -/
theorem decode_of_add_opcode {w : Word} (hop : w.extractLsb' 12 4 = 0x1#4) :
    decode w = if w.getLsbD 5 then .addImm (fieldDR w) (fieldSR1 w) (fieldImm5 w)
      else .addReg (fieldDR w) (fieldSR1 w) (fieldSR2 w) := by
  rw [decode, opcode_of_field (op := .add) hop]

/-- Of a word with AND's opcode, bit 5 selects the mode (30_encoding.md rule R67). -/
theorem decode_of_and_opcode {w : Word} (hop : w.extractLsb' 12 4 = 0x5#4) :
    decode w = if w.getLsbD 5 then .andImm (fieldDR w) (fieldSR1 w) (fieldImm5 w)
      else .andReg (fieldDR w) (fieldSR1 w) (fieldSR2 w) := by
  rw [decode, opcode_of_field (op := .and) hop]

theorem decode_of_not_opcode {w : Word} (hop : w.extractLsb' 12 4 = 0x9#4) :
    decode w = .not (fieldDR w) (fieldSR1 w) := by
  rw [decode, opcode_of_field (op := .not) hop]

end Sys2Proof

namespace Sys2Proof.Machine

/-! The results. -/

theorem State.writeResult_reg_same (s : State) (dr : Reg) (v : Word) :
    (s.writeResult dr v).reg dr = v := by
  rw [State.writeResult_reg, if_pos rfl]

/-- Whatever the result: the flag shows its sign, and only DR and the flag are written. -/
theorem State.writeResult_frame (s : State) (dr : Reg) (v : Word) :
    FlagShows ((s.writeResult dr v).reg dr) (s.writeResult dr v) ∧
    RegsKeptBut dr s (s.writeResult dr v) ∧ (s.writeResult dr v).pc = s.pc ∧
    RestKept s (s.writeResult dr v) := by
  refine ⟨?flag, fun q hq => ?otherRegs, s.writeResult_pc dr v, ?rest⟩
  case flag => exact flagShows_of_cond_eq (by rw [State.writeResult_cond, State.writeResult_reg_same])
  case otherRegs => rw [State.writeResult_reg, if_neg hq]
  case rest => simp [RestKept, CellsKept, KeyboardKept, RunKept]

/-- ADD's sum is of the sources before the write, in both modes and for every DR (rules R90, R91, R96). -/
theorem State.toNat_add_reg (s : State) (dr sr1 : Reg) (o : Operand) :
    ((s.add dr sr1 o).reg dr).toNat = ((s.reg sr1).toNat + (s.operand o).toNat) % 65536 := by
  rw [State.add, State.writeResult_reg_same, BitVec.toNat_add]

/-- AND's bits are of the sources before the write, in both modes and for every DR (rules R92, R93, R96). -/
theorem State.getLsbD_and_reg (s : State) (dr sr1 : Reg) (o : Operand) (i : Nat) :
    ((s.and dr sr1 o).reg dr).getLsbD i = ((s.reg sr1).getLsbD i && (s.operand o).getLsbD i) := by
  rw [State.and, State.writeResult_reg_same, BitVec.getLsbD_and]

/-! The five statements. -/

/-- Settles O12: bit 5 clear selects register mode, whose result is the sum. -/
theorem addRegisterAddsTheTwoRegisters : Obligations.AddRegisterAddsTheTwoRegisters := by
  refine ⟨fun w hop hmode => ?encoding,
    fun dr sr1 sr2 s => ⟨s.add dr sr1 (.reg sr2), rfl, ?sum, ?frame⟩⟩
  case encoding => exact (decode_of_add_opcode hop).trans (if_neg (Bool.eq_false_iff.mp hmode))
  case sum => exact s.toNat_add_reg dr sr1 (.reg sr2)
  case frame => exact s.writeResult_frame dr _

/-- Settles O13: bit 5 set selects immediate mode, whose result is the sum. -/
theorem addImmediateAddsTheExtendedField : Obligations.AddImmediateAddsTheExtendedField := by
  refine ⟨fun w hop hmode => ?encoding,
    fun dr sr1 imm s => ⟨s.add dr sr1 (.imm imm), rfl, ?sum, ?frame⟩⟩
  case encoding => exact (decode_of_add_opcode hop).trans (if_pos hmode)
  case sum => exact s.toNat_add_reg dr sr1 (.imm imm)
  case frame => exact s.writeResult_frame dr _

/-- Settles O14: bit 5 clear selects register mode, whose result is the bitwise AND. -/
theorem andRegisterMeetsTheTwoRegisters : Obligations.AndRegisterMeetsTheTwoRegisters := by
  refine ⟨fun w hop hmode => ?encoding,
    fun dr sr1 sr2 s => ⟨s.and dr sr1 (.reg sr2), rfl, ?bits, ?frame⟩⟩
  case encoding => exact (decode_of_and_opcode hop).trans (if_neg (Bool.eq_false_iff.mp hmode))
  case bits => exact s.getLsbD_and_reg dr sr1 (.reg sr2)
  case frame => exact s.writeResult_frame dr _

/-- Settles O15: bit 5 set selects immediate mode, whose result is the bitwise AND. -/
theorem andImmediateMeetsTheExtendedField : Obligations.AndImmediateMeetsTheExtendedField := by
  refine ⟨fun w hop hmode => ?encoding,
    fun dr sr1 imm s => ⟨s.and dr sr1 (.imm imm), rfl, ?bits, ?frame⟩⟩
  case encoding => exact (decode_of_and_opcode hop).trans (if_pos hmode)
  case bits => exact s.getLsbD_and_reg dr sr1 (.imm imm)
  case frame => exact s.writeResult_frame dr _

/-- Settles O16: the decoder reads no bit of NOT below SR, and the complement of a word is its distance from
0xFFFF. -/
theorem notComplementsTheSource : Obligations.NotComplementsTheSource := by
  refine ⟨fun w hop => ?encoding,
    fun dr sr s => ⟨s.writeResult dr (~~~ s.reg sr), rfl, ?complement, ?frame⟩⟩
  case encoding => exact decode_of_not_opcode hop
  case complement => rw [State.writeResult_reg_same, BitVec.toNat_not]
  case frame => exact s.writeResult_frame dr _

end Sys2Proof.Machine
end

section
/-! PROOFS. BR, JMP, RET, JSR and JSRR (41_control.md rules R100 to R104): how the decoder reads their words,
when a branch is taken, and what a jump and a call leave as it was. -/

namespace Sys2Proof

/-! The words. -/

theorem decode_of_br_opcode {w : Word} (hop : w.extractLsb' 12 4 = 0x0#4) :
    decode w = .br (w.getLsbD 11) (w.getLsbD 10) (w.getLsbD 9) (fieldOff9 w) := by
  rw [decode, opcode_of_field (op := .br) hop]

theorem decode_of_jmp_opcode {w : Word} (hop : w.extractLsb' 12 4 = 0xC#4) :
    decode w = decodeJmp (fieldSR1 w) := by
  rw [decode, opcode_of_field (op := .jmp) hop]

/-- Of a word with the opcode of the calls, bit 11 selects the form (30_encoding.md rule R67). -/
theorem decode_of_jsr_opcode {w : Word} (hop : w.extractLsb' 12 4 = 0x4#4) :
    decode w = if w.getLsbD 11 then .jsr (fieldOff11 w) else .jsrr (fieldSR1 w) := by
  rw [decode, opcode_of_field (op := .jsr) hop]

theorem fieldSR1_eq_r7_iff {w : Word} : fieldSR1 w = .r7 ↔ w.extractLsb' 6 3 = 7#3 :=
  Reg.ofBits_inj (b := 7#3)

/-- Bits 15..11 are the opcode and bit 11. -/
theorem opcode_and_bit11_of_field {w : Word} {f : BitVec 5} (h : w.extractLsb' 11 5 = f) :
    w.extractLsb' 12 4 = f.extractLsb' 1 4 ∧ w.getLsbD 11 = f.getLsbD 0 := by
  refine ⟨BitVec.eq_of_getLsbD_eq fun i hi => ?opcode, getLsbD_of_field h (i := 0) (by decide)⟩
  case opcode =>
    rw [BitVec.getLsbD_extractLsb', BitVec.getLsbD_extractLsb',
      ← getLsbD_of_field h (show 1 + i < 5 by omega), ← Nat.add_assoc]

end Sys2Proof

namespace Sys2Proof.Machine

/-! A branch. -/

/-- A branch is taken when one of its condition bits stands for the flag (30_encoding.md rule R66). -/
theorem branchTaken_iff {n z p : Bool} {c : Cond} :
    branchTaken n z p c = true ↔ (n = true ∧ c = .n) ∨ (z = true ∧ c = .z) ∨ (p = true ∧ c = .p) := by
  simp only [branchTaken, Bool.or_eq_true, Bool.and_eq_true, beq_iff_eq, or_assoc]

/-- A branch that is not taken writes the PC with itself, so a branch is a jump under every flag. -/
theorem exec_br (n z p : Bool) (off : Word) (s : State) :
    exec (.br n z p off) s =
      .next (s.setPc (if branchTaken n z p s.cond then s.pcRel off else s.pc)) := by
  have hstay : s.setPc s.pc = s := rfl
  rw [exec, execBr, apply_ite s.setPc, hstay]

/-- The never-taken form, BR of no condition bit (30_encoding.md rule R69). -/
theorem exec_br_never (off : Word) (s : State) : exec (.br false false false off) s = .next s := by
  have hnever : branchTaken false false false s.cond = false := rfl
  rw [exec, execBr, hnever, if_neg Bool.false_ne_true]

theorem State.toNat_pcRel (s : State) (off : Word) :
    (s.pcRel off).toNat = (s.pc.toNat + off.toNat) % 65536 :=
  BitVec.toNat_add s.pc off

/-! A jump and a call. -/

/-- Wherever a jump goes, it writes the PC only. -/
theorem State.setPc_frame (s : State) (target : Word) :
    RegsKept s (s.setPc target) ∧ (s.setPc target).cond = s.cond ∧ RestKept s (s.setPc target) := by
  simp [RegsKept, RestKept, CellsKept, KeyboardKept, RunKept]

/-- The base register after the link: R7 is the value just linked (90_conflicts.md C5). -/
theorem State.link_reg (s : State) (q : Reg) :
    s.link.reg q = if q = .r7 then s.pc else s.reg q :=
  s.reg_setReg .r7 q s.pc

/-- Wherever a call goes, it links R7 and writes nothing else but the PC. -/
theorem State.link_setPc_frame (s : State) (target : Word) :
    RegsKeptBut .r7 s (s.link.setPc target) ∧ (s.link.setPc target).cond = s.cond ∧
    RestKept s (s.link.setPc target) := by
  refine ⟨fun q hq => ?otherRegs, rfl, ?rest⟩
  case otherRegs => rw [State.setPc_reg, State.link_reg, if_neg hq]
  case rest => simp [State.link, RestKept, CellsKept, KeyboardKept, RunKept]

/-! The five statements. -/

/-- Settles O17: a branch is a jump to its target or to where it stands. -/
theorem branchGoesWhereTheFlagSelects : Obligations.BranchGoesWhereTheFlagSelects := by
  refine ⟨fun w => decode_of_br_opcode,
    fun n z p off s => ⟨_, exec_br n z p off s, ?target, s.setPc_frame _⟩, exec_br_never⟩
  case target =>
    rw [State.setPc_pc, apply_ite BitVec.toNat, State.toNat_pcRel]
    exact if_congr branchTaken_iff rfl rfl

/-- Settles O18: the words of opcode 1100 divide at base register R7, and RET is the jump to it. -/
theorem jumpTakesTheBaseRegister : Obligations.JumpTakesTheBaseRegister := by
  refine ⟨fun w hop => ?encoding, fun base s => ⟨s.jumpReg base, rfl, rfl, s.setPc_frame _⟩,
    fun s => ⟨s.jumpReg .r7, rfl, rfl, s.setPc_frame _⟩⟩
  case encoding => exact (decode_of_jmp_opcode hop).trans (if_congr fieldSR1_eq_r7_iff rfl rfl)

/-- Settles O19: the target is taken from the PC, which the link does not change. -/
theorem callLinksAndJumpsRelative : Obligations.CallLinksAndJumpsRelative := by
  refine ⟨fun w h => ?encoding,
    fun off s => ⟨s.link.setPc (s.link.pcRel off), rfl, ?link, ?target, s.link_setPc_frame _⟩⟩
  case encoding =>
    obtain ⟨hop, hform⟩ := opcode_and_bit11_of_field h
    exact (decode_of_jsr_opcode hop).trans (if_pos hform)
  case link => exact s.link_reg .r7
  case target => exact s.link.toNat_pcRel off

/-- Settles O20: the base register is read in the state after the link. -/
theorem callThroughRegisterReadsAfterLink : Obligations.CallThroughRegisterReadsAfterLink := by
  refine ⟨fun w h => ?encoding,
    fun base s => ⟨s.link.jumpReg base, rfl, ?link, ?target, s.link_setPc_frame _⟩⟩
  case encoding =>
    obtain ⟨hop, hform⟩ := opcode_and_bit11_of_field h
    exact (decode_of_jsr_opcode hop).trans (if_neg (Bool.eq_false_iff.mp hform))
  case link => exact s.link_reg .r7
  case target => exact s.link_reg base

/-- Settles O11: each word is closed, so the decoder computes its instruction. -/
theorem someWordsDecodeAsTheSpecSpells : Obligations.SomeWordsDecodeAsTheSpecSpells :=
  ⟨rfl, rfl, rfl, rfl, rfl, rfl, rfl, rfl, rfl, rfl, rfl, rfl, rfl, rfl, rfl⟩

end Sys2Proof.Machine
end

section
/-! PROOFS. LD, LDI, LDR, LEA, ST, STI and STR (42_load_store.md rules R110 to R118): how the decoder reads
their words, and what a load and a store leave as it was, after the bus reads that come first. -/

namespace Sys2Proof

/-! The words. -/

theorem decode_of_ld_opcode {w : Word} (hop : w.extractLsb' 12 4 = 0x2#4) :
    decode w = .ld (fieldDR w) (fieldOff9 w) := by
  rw [decode, opcode_of_field (op := .ld) hop]

theorem decode_of_st_opcode {w : Word} (hop : w.extractLsb' 12 4 = 0x3#4) :
    decode w = .st (fieldDR w) (fieldOff9 w) := by
  rw [decode, opcode_of_field (op := .st) hop]

theorem decode_of_ldr_opcode {w : Word} (hop : w.extractLsb' 12 4 = 0x6#4) :
    decode w = .ldr (fieldDR w) (fieldSR1 w) (fieldOff6 w) := by
  rw [decode, opcode_of_field (op := .ldr) hop]

theorem decode_of_str_opcode {w : Word} (hop : w.extractLsb' 12 4 = 0x7#4) :
    decode w = .str (fieldDR w) (fieldSR1 w) (fieldOff6 w) := by
  rw [decode, opcode_of_field (op := .str) hop]

theorem decode_of_ldi_opcode {w : Word} (hop : w.extractLsb' 12 4 = 0xA#4) :
    decode w = .ldi (fieldDR w) (fieldOff9 w) := by
  rw [decode, opcode_of_field (op := .ldi) hop]

theorem decode_of_sti_opcode {w : Word} (hop : w.extractLsb' 12 4 = 0xB#4) :
    decode w = .sti (fieldDR w) (fieldOff9 w) := by
  rw [decode, opcode_of_field (op := .sti) hop]

theorem decode_of_lea_opcode {w : Word} (hop : w.extractLsb' 12 4 = 0xE#4) :
    decode w = .lea (fieldDR w) (fieldOff9 w) := by
  rw [decode, opcode_of_field (op := .lea) hop]

end Sys2Proof

namespace Sys2Proof.Machine

/-! What bus reads leave as it was. -/

theorem BusReads.output {s m : State} (h : BusReads s m) : m.output = s.output := by
  induction h with
  | none => rfl
  | read a _ ih => rw [State.memRead_output, ih]

theorem BusReads.run {s m : State} (h : BusReads s m) : m.run = s.run := by
  induction h with
  | none => rfl
  | read a _ ih => rw [State.memRead_run, ih]

theorem BusReads.runKept {s m : State} (h : BusReads s m) : RunKept s m :=
  ⟨h.run, h.pending, h.pollFrame.params⟩

theorem RunKept.trans {s m t : State} (hsm : RunKept s m) (hmt : RunKept m t) : RunKept s t := by
  obtain ⟨hrun, hpending, hparams⟩ := hsm
  obtain ⟨hrun', hpending', hparams'⟩ := hmt
  exact ⟨hrun'.trans hrun, hpending'.trans hpending, hparams'.trans hparams⟩

/-- A flag-setting write after bus reads: cells and keyboard are as the reads left them, and what the write
leaves as it was is as before the reads. -/
theorem BusReads.writeResult_frame {s m : State} (h : BusReads s m) (dr : Reg) (v : Word) :
    FlagShows ((m.writeResult dr v).reg dr) (m.writeResult dr v) ∧
    RegsKeptBut dr s (m.writeResult dr v) ∧ (m.writeResult dr v).pc = s.pc ∧
    RestKeptAfterRead s m (m.writeResult dr v) := by
  obtain ⟨hflag, hregs, hpc, hcells, hkeyboard, houtput, hrun⟩ := m.writeResult_frame dr v
  exact ⟨hflag, fun q hq => (hregs q hq).trans (h.reg q), hpc.trans h.pc,
    hcells, hkeyboard, houtput.trans h.output, h.runKept.trans hrun⟩

/-! A load. -/

/-- A load anywhere but at the keyboard-status cell: DR is the stored cell, and no poll is made. -/
theorem State.load_plain {s : State} {ea : Word} (hplain : ea ≠ s.params.kbsrAddr) (dr : Reg) :
    (s.load dr ea).reg dr = s.cell ea ∧ CellsKept s (s.load dr ea) ∧ KeyboardKept s (s.load dr ea) := by
  obtain ⟨-, -, -, hcells, hkeyboard, -⟩ := s.writeResult_frame dr (s.cell ea)
  rw [State.load, State.memRead_plain hplain]
  exact ⟨s.writeResult_reg_same dr _, hcells, hkeyboard⟩

theorem State.load_loadEffect (s : State) (dr : Reg) (ea : Word) : LoadEffect s dr ea (s.load dr ea) := by
  have hvalue : (s.load dr ea).reg dr = (s.memRead ea).1 := State.writeResult_reg_same _ dr _
  have hread : BusReads s (s.memRead ea).2 := .read ea .none
  obtain ⟨hflag, hregs, hpc, hrest⟩ := hread.writeResult_frame dr (s.memRead ea).1
  exact ⟨hvalue, hvalue ▸ hflag, hregs, hpc, hrest, fun hplain => State.load_plain hplain dr⟩

/-! A pointer. -/

/-- A pointer anywhere but at the keyboard-status cell is the stored cell, and no poll is made. -/
theorem State.indirect_plain {s : State} {off : Word} (hplain : s.pc + off ≠ s.params.kbsrAddr) :
    s.indirect off = (s.cell (s.pc + off), s) :=
  State.memRead_plain hplain

/-- The register that STI stores is as before the pointer read. -/
theorem exec_sti (sr : Reg) (off : Word) (s : State) :
    exec (.sti sr off) s =
      .next ((s.indirect off).2.memWrite (s.indirect off).1 (s.reg sr)) := by
  rw [exec, execSti, State.indirect, State.memRead_reg]

/-! The seven statements. -/

/-- Settles O21: the load of the PC-relative cell. -/
theorem loadReadsThePcRelativeCell : Obligations.LoadReadsThePcRelativeCell :=
  ⟨fun _ => decode_of_ld_opcode, fun dr off s => ⟨_, rfl, s.load_loadEffect dr (s.pcRel off)⟩⟩

/-- Settles O22: a pointer read, then a load in the state after it. -/
theorem loadIndirectReadsTwice : Obligations.LoadIndirectReadsTwice := by
  refine ⟨fun _ => decode_of_ldi_opcode,
    fun dr off s => ⟨(s.indirect off).2.load dr (s.indirect off).1, rfl, ?value, ?rest⟩⟩
  case value => exact State.writeResult_reg_same _ dr _
  case rest =>
    have hreads : BusReads s ((s.indirect off).2.memRead (s.indirect off).1).2 := .read _ (.read _ .none)
    obtain ⟨hflag, hregs, hpc, hrest⟩ := hreads.writeResult_frame dr _
    refine ⟨hflag, hregs, hpc, hrest, fun hpointer hdata => ?plain⟩
    rw [State.indirect_plain hpointer]
    exact State.load_plain hdata dr

/-- Settles O23: the load of the base-relative cell. -/
theorem loadBaseReadsBasePlusOffset : Obligations.LoadBaseReadsBasePlusOffset :=
  ⟨fun _ => decode_of_ldr_opcode,
    fun dr base off s => ⟨_, rfl, s.load_loadEffect dr (s.baseOff base off)⟩⟩

/-- Settles O24: a flag-setting write of the address. -/
theorem loadAddressReadsNoMemory : Obligations.LoadAddressReadsNoMemory := by
  refine ⟨fun _ => decode_of_lea_opcode,
    fun dr off s => ⟨s.writeResult dr (s.pcRel off), rfl, ?address, s.writeResult_frame dr _⟩⟩
  case address => rw [State.writeResult_reg_same, State.toNat_pcRel]

/-- Settles O25: the store to the PC-relative cell. -/
theorem storeWritesThePcRelativeCell : Obligations.StoreWritesThePcRelativeCell :=
  ⟨fun _ => decode_of_st_opcode,
    fun sr off s => ⟨_, rfl, s.memWrite_storeEffect (s.pcRel off) (s.reg sr)⟩⟩

/-- Settles O26: a pointer read, then a store in the state after it. -/
theorem storeIndirectWritesThroughThePointer : Obligations.StoreIndirectWritesThroughThePointer := by
  refine ⟨fun _ => decode_of_sti_opcode, fun sr off s => ⟨_, exec_sti sr off s, ?effect⟩⟩
  have hread : BusReads s (s.indirect off).2 := .read _ .none
  obtain ⟨hcell, hcells, hregs, hcond, hpc, hkeyboard, houtput, hrun⟩ :=
    (s.indirect off).2.memWrite_storeEffect (s.indirect off).1 (s.reg sr)
  refine ⟨fun hwf => hcell (s.memRead_wf _ hwf), hcells, hkeyboard,
    fun q => (hregs q).trans (hread.reg q), hcond.trans hread.cond, hpc.trans hread.pc,
    houtput.trans hread.output, hread.runKept.trans hrun, fun hpointer => ?plain⟩
  rw [State.indirect_plain hpointer]
  exact s.memWrite_storeEffect _ _

/-- Settles O27: the store to the base-relative cell. -/
theorem storeBaseWritesBasePlusOffset : Obligations.StoreBaseWritesBasePlusOffset :=
  ⟨fun _ => decode_of_str_opcode,
    fun sr base off s => ⟨_, rfl, s.memWrite_storeEffect (s.baseOff base off) (s.reg sr)⟩⟩

end Sys2Proof.Machine
end

section
/-! PROOFS. TRAP's words and dispatch (43_trap.md rules R125 to R128): which routine a word of opcode 1111
selects, and what an instruction that selects one does. -/

namespace Sys2Proof

/-! The words. -/

theorem decode_of_trap_opcode {w : Word} (hop : w.extractLsb' 12 4 = 0xF#4) :
    decode w = decodeTrap (w.extractLsb' 8 4) (w.extractLsb' 0 8) := by
  rw [decode, opcode_of_field (op := .trap) hop]
  rfl

/-- The three fields of a TRAP word make up the word (30_encoding.md rule R63). -/
theorem append_trap_fields (w : Word) :
    w.extractLsb' 12 4 ++ w.extractLsb' 8 4 ++ w.extractLsb' 0 8 = w := by
  rw [BitVec.extractLsb'_append_extractLsb'_eq_extractLsb' (by decide),
    BitVec.extractLsb'_append_extractLsb'_eq_extractLsb' (by decide)]
  exact BitVec.extractLsb'_eq_self

/-- The recognised vectors are an interval (decision D4). -/
theorem isNamedVector_iff {v : BitVec 8} :
    isNamedVector v = true ↔ 0x20 ≤ v.toNat ∧ v.toNat ≤ 0x25 := by
  simp only [isNamedVector, Bool.or_eq_true, beq_iff_eq, ← BitVec.toNat_inj, BitVec.ofNat_eq_ofNat,
    BitVec.toNat_ofNat]
  omega

end Sys2Proof

namespace Sys2Proof.Machine

/-! The routine of a word. -/

/-- The instruction of a routine, with the ignored bits that GETC and IN keep. -/
def Routine.instr (ign : BitVec 4) : Routine → Instr
  | .getc => .getc ign | .out => .out | .puts => .puts
  | .inp => .inp ign | .putsp => .putsp | .halt => .halt

theorem decodeTrap_vector (ign : BitVec 4) (r : Routine) :
    decodeTrap ign r.vector = r.instr ign := by
  cases r <;> rfl

theorem routineOf_instr (ign : BitVec 4) (r : Routine) : routineOf (r.instr ign) = some r := by
  cases r <;> rfl

theorem vectorRoutine_eq_none_iff {v : BitVec 8} :
    vectorRoutine v = none ↔ isNamedVector v = false := by
  unfold vectorRoutine
  split_ifs <;> simp_all [isNamedVector]

theorem routineOf_decodeTrap (ign : BitVec 4) (v : BitVec 8) :
    routineOf (decodeTrap ign v) = vectorRoutine v := by
  cases hv : vectorRoutine v with
  | none => rw [decodeTrap_of_unnamed (vectorRoutine_eq_none_iff.mp hv), routineOf, hv]
  | some r => rw [vectorRoutine_eq_some.mp hv, decodeTrap_vector, routineOf_instr]

theorem opcodeOf_of_routineOf {i : Instr} {r : Routine} (h : routineOf i = some r) :
    Laws.opcodeOf i = .trap := by
  cases i with
  | trap | getc | inp | out | puts | putsp | halt => rfl
  | _ => cases h

/-- A word selects a routine by its opcode and its vector, whatever its bits 11..8 are (R68, R127). -/
theorem routineOf_decode {w : Word} {r : Routine} :
    routineOf (decode w) = some r ↔
      w.extractLsb' 12 4 = 0xF#4 ∧ w.extractLsb' 0 8 = r.vector := by
  have hvector : w.extractLsb' 12 4 = 0xF#4 →
      (routineOf (decode w) = some r ↔ w.extractLsb' 0 8 = r.vector) := fun hop => by
    rw [decode_of_trap_opcode hop, routineOf_decodeTrap, vectorRoutine_eq_some]
  have hopcode : routineOf (decode w) = some r → w.extractLsb' 12 4 = 0xF#4 := fun h => by
    have hop := opcodeOf_of_routineOf h
    rw [opcodeOf_decode, ← Opcode.ofBits_toBits .trap] at hop
    exact Opcode.ofBits_inj.mp hop
  exact ⟨fun h => ⟨hopcode h, (hvector (hopcode h)).mp h⟩, fun ⟨hop, hv⟩ => (hvector hop).mpr hv⟩

/-! What the dispatch does. -/

/-- An instruction that selects a routine links and runs it (rule R125). -/
theorem exec_of_routineOf {i : Instr} {r : Routine} (h : routineOf i = some r) (s : State) :
    ∃ word, exec i s = .next (s.trapEntry.runRoutine word r) := by
  cases i with
  | trap ign v =>
    have hexec : exec (.trap ign v) s = .next (s.trap ign v) := rfl
    exact ⟨trapWord ign v, by rw [hexec, State.trap, show vectorRoutine v = some r from h]⟩
  | getc ign => cases h; exact ⟨_, rfl⟩
  | inp ign => cases h; exact ⟨_, rfl⟩
  | out | puts | putsp | halt => cases h; exact ⟨0, rfl⟩
  | _ => cases h

/-- The TRAP constructor with a recognised vector is the routine's instruction (rule R125). -/
theorem exec_trap_vector (ign : BitVec 4) (r : Routine) (s : State) :
    exec (.trap ign r.vector) s = exec (r.instr ign) s := by
  cases r <;> rfl

/-- TRAP with an unrecognised vector fails before the link (rule R128; decision D11). -/
theorem exec_trap_of_unnamed {v : BitVec 8} (hv : isNamedVector v = false) (ign : BitVec 4)
    (s : State) :
    exec (.trap ign v) s = .next (s.raise .illegalInstruction (trapWord ign v)) := by
  have hexec : exec (.trap ign v) s = .next (s.trap ign v) := rfl
  rw [hexec, State.trap, vectorRoutine_eq_none_iff.mpr hv]

/-! The two statements. -/

/-- Settles O30: outside the interval a vector has no name, so its word keeps all its fields and its
TRAP raises. -/
theorem unrecognisedVectorRaisesIllegal : Obligations.UnrecognisedVectorRaisesIllegal := by
  have hunnamed : ∀ v : BitVec 8, ¬ (0x20 ≤ v.toNat ∧ v.toNat ≤ 0x25) → isNamedVector v = false :=
    fun v hv => Bool.eq_false_iff.mpr (mt isNamedVector_iff.mp hv)
  refine ⟨fun w hop hv => ⟨?decoded, ?fields⟩,
    fun ign v s hv => ⟨_, exec_trap_of_unnamed (hunnamed v hv) ign s, rfl, rfl⟩⟩
  case decoded => rw [decode_of_trap_opcode hop, decodeTrap_of_unnamed (hunnamed _ hv)]
  case fields => exact hop ▸ append_trap_fields w

/-- Settles O31: at each routine's vector the decoder gives the routine's instruction, and TRAP has its
effect. -/
theorem trapVectorsSelectTheRoutines : Obligations.TrapVectorsSelectTheRoutines := by
  refine ⟨fun w hop => ?words, fun ign s => ?effects⟩
  case words =>
    have hword : ∀ r : Routine, w.extractLsb' 0 8 = r.vector →
        decode w = r.instr (w.extractLsb' 8 4) := fun r hv => by
      rw [decode_of_trap_opcode hop, hv, decodeTrap_vector]
    exact ⟨hword .getc, hword .out, hword .puts, hword .inp, hword .putsp, hword .halt⟩
  case effects =>
    have heffect := fun r => exec_trap_vector ign r s
    exact ⟨heffect .getc, heffect .out, heffect .puts, heffect .inp, heffect .putsp, heffect .halt⟩

end Sys2Proof.Machine
end

section
/-! PROOFS. What a TRAP routine does to the run state, the output and the parameters (43_trap.md rules
R129 to R136), and from it that a step halts the run exactly at TRAP x25. -/

namespace Sys2Proof.Machine

/-! The run state. -/

/-- GETC goes on running or fails for want of input (60_exceptions.md rule R162). -/
theorem State.getcRead_run (s : State) (word : Word) :
    (s.getcRead word).run = s.run ∨
      (s.getcRead word).run = .failed .inputUnavailable word (s.pc - 1) := by
  rcases s.getcRead_cases word with ⟨c, rest, -, h⟩ | ⟨-, -, h⟩ | ⟨-, -, h⟩ <;> rw [h]
  case inl => exact .inl (by rw [State.getcFinish_char])
  case inr.inl => exact .inr rfl
  case inr.inr => exact .inl rfl

theorem State.inRead_run (s : State) (word : Word) :
    (s.inRead word).run = s.run ∨
      (s.inRead word).run = .failed .inputUnavailable word (s.pc - 1) := by
  rcases s.inRead_cases word with ⟨c, rest, -, h⟩ | ⟨-, -, h⟩ | ⟨-, -, h⟩ <;> rw [h]
  case inl => exact .inl (by rw [State.inFinish_char])
  case inr.inl => exact .inr rfl
  case inr.inr => exact .inl rfl

section
variable {s : State} (hrun : s.run = .running) (word : Word)
include hrun

theorem State.getcRead_run_ne_halted : (s.getcRead word).run ≠ .halted := by
  rcases s.getcRead_run word with h | h <;> rw [h]
  · rw [hrun]; nofun
  · nofun

theorem State.inRead_run_ne_halted : (s.inRead word).run ≠ .halted := by
  rcases s.inRead_run word with h | h <;> rw [h]
  · rw [hrun]; nofun
  · nofun

theorem State.scan_run_ne_halted (fuel : Nat) (a : Word) :
    (s.putsScan fuel a).run ≠ .halted ∧ (s.putspScan fuel a).run ≠ .halted := by
  rw [State.putsScan_run, State.putspScan_run, hrun]
  exact ⟨nofun, nofun⟩

/-- Of the routines HALT alone ends the run in Halted (43_trap.md rule R135). -/
theorem State.runRoutine_halted_iff (r : Routine) :
    (s.runRoutine word r).run = .halted ↔ r = .halt := by
  cases r with
  | halt => exact iff_of_true rfl rfl
  | getc => exact iff_of_false (State.getcRead_run_ne_halted hrun word) nofun
  | inp =>
    have hprompt : (s.writeBytes s.params.inPrompt).run = .running := hrun
    exact iff_of_false (State.inRead_run_ne_halted hprompt word) nofun
  | puts => exact iff_of_false (State.scan_run_ne_halted hrun _ _).1 nofun
  | putsp => exact iff_of_false (State.scan_run_ne_halted hrun _ _).2 nofun
  | out => exact iff_of_false (hrun.trans_ne nofun) nofun

end

/-- Of the instructions those that select HALT alone end the run in Halted. -/
theorem exec_halted_iff {i : Instr} {s t : State} (hrun : s.run = .running)
    (h : exec i s = .next t) : t.run = .halted ↔ routineOf i = some .halt := by
  have hentry : s.trapEntry.run = .running := s.trapEntry_run.trans hrun
  constructor
  · intro hhalted
    cases exec_effect h with
    | result v _ hreads =>
      rw [State.writeResult_run, hreads.run, hrun] at hhalted
      cases hhalted
    | store v _ _ hreads =>
      rw [State.setCell_run, hreads.run, hrun] at hhalted
      cases hhalted
    | jump | call => exact absurd (hrun.symm.trans hhalted) nofun
    | illegal => cases hhalted
    | routine word hroutine =>
      rw [hroutine, (State.runRoutine_halted_iff hentry word _).mp hhalted]
  · intro hroutine
    obtain ⟨word, hexec⟩ := exec_of_routineOf hroutine s
    cases h.symm.trans hexec
    exact (State.runRoutine_halted_iff hentry word .halt).mpr rfl

/-- A step that goes on with a routine never halts: HALT does not wait. -/
theorem step_resumed_ne_halted {s t : State} (hpending : s.pending ≠ .idle)
    (hstep : step s = .next t) : t.run ≠ .halted := by
  obtain ⟨hrunning, hcases⟩ := step_cases hstep
  rcases hcases with ⟨hidle, -⟩ | ⟨w, -, -, rfl⟩ | ⟨w, -, -, rfl⟩ | ⟨a, -, rfl⟩ | ⟨a, -, rfl⟩
  · exact absurd hidle hpending
  · exact State.getcRead_run_ne_halted hrunning w
  · exact State.inRead_run_ne_halted hrunning w
  · exact (State.scan_run_ne_halted hrunning _ a).1
  · exact (State.scan_run_ne_halted hrunning _ a).2

/-- Settles O50: a step that fetches halts where the word selects HALT, and no other step halts. -/
theorem onlyHaltEntersHalted : Obligations.OnlyHaltEntersHalted := by
  intro s t hstep
  obtain ⟨hrunning, -⟩ := step_cases hstep
  by_cases hidle : s.pending = .idle
  case pos =>
    have hready : ReadyToFetch s := ⟨hrunning, hidle⟩
    rw [step_readyToFetch hready] at hstep
    calc t.run = .halted ↔ routineOf (decode s.fetch.1) = some .halt :=
          exec_halted_iff (State.fetch_readyToFetch hready).1 hstep
      _ ↔ _ := routineOf_decode
      _ ↔ _ := (and_iff_right hready).symm
  case neg =>
    exact iff_of_false (step_resumed_ne_halted hidle hstep) fun ⟨⟨_, h⟩, _⟩ => hidle h

end Sys2Proof.Machine
end

section
/-! PROOFS. OUT, HALT, GETC and IN where they complete (43_trap.md rules R130, R131, R133, R135), and the
frame of all six routines (rule R129). -/

namespace Sys2Proof.Machine

/-! The link. -/

/-- TRAP entry writes R7 and nothing else (rule R126). -/
theorem State.trapEntry_frame (s : State) :
    s.trapEntry.reg .r7 = linkedR7 s ∧ RegsKeptBut .r7 s s.trapEntry ∧ s.trapEntry.cond = s.cond ∧
    s.trapEntry.pc = s.pc ∧ CellsKept s s.trapEntry ∧ KeyboardKept s s.trapEntry := by
  refine ⟨?link, fun q hq => ?otherRegs, s.trapEntry_cond, s.trapEntry_pc, s.trapEntry_cell,
    s.trapEntry_input, s.trapEntry_inputEnded, s.trapEntry_draws, s.trapEntry_polls⟩
  case link => simp [State.trapEntry_reg, linkedR7]
  case otherRegs => rw [State.trapEntry_reg, if_neg fun h => hq h.1]

/-- What a routine that only writes output leaves as it was: all but R7 and the output. -/
theorem State.trapEntry_writeBytes_frame (s : State) {bytes : List Byte} {t : State}
    (ht : (s.trapEntry.writeBytes bytes).trapReturn = t) :
    t.reg .r7 = linkedR7 s ∧ RegsKeptBut .r7 s t ∧ t.cond = s.cond ∧ t.pc = s.pc ∧ CellsKept s t ∧
    KeyboardKept s t ∧ t.run = s.run ∧ t.params = s.params ∧ t.pending = .idle := by
  subst ht
  obtain ⟨hlink, hregs, hcond, hpc, hcells, hkeyboard⟩ := s.trapEntry_frame
  exact ⟨hlink, hregs, hcond, hpc, hcells, hkeyboard, s.trapEntry_run, s.trapEntry_params, rfl⟩

theorem lowByte_eq_ofNat (v : Word) : lowByte v = BitVec.ofNat 8 (v.toNat % 256) := by
  apply BitVec.eq_of_toNat_eq
  simp [lowByte, BitVec.extractLsb'_toNat]

/-- Settles O36: OUT writes one byte after the link, which leaves R0 as it was. -/
theorem outWritesTheLowByteOfR0 : Obligations.OutWritesTheLowByteOfR0 := by
  intro s
  refine ⟨(s.trapEntry.writeBytes [lowByte (s.trapEntry.reg .r0)]).trapReturn, rfl, ?written,
    s.trapEntry_writeBytes_frame rfl⟩
  case written =>
    obtain ⟨-, hregs, -⟩ := s.trapEntry_frame
    rw [State.trapReturn_output, State.writeBytes_output, State.trapEntry_output, hregs .r0 nofun,
      lowByte_eq_ofNat]

/-- Settles O37: HALT ends the run after the link. -/
theorem haltEndsTheRun : Obligations.HaltEndsTheRun := by
  intro s
  obtain ⟨hlink, hregs, hcond, hpc, hcells, hkeyboard⟩ := s.trapEntry_frame
  exact ⟨s.trapEntry.halt.trapReturn, rfl, rfl, hlink, hregs, hcond, hpc, hcells, hkeyboard,
    s.trapEntry_output, s.trapEntry_params, rfl⟩

/-! A character. -/

/-- The state after the character `c` has come into R0 and left `rest` in the stream (rules R130,
R133; decision D9). -/
def State.receiveChar (s : State) (c : Byte) (rest : List Byte) : State :=
  { s with
    input := rest
    regs := regSet s.regs .r0 (zext16 c)
    cond := if s.params.trapInputSetsFlags then condOf (zext16 c) else s.cond
    pending := .idle }

section
variable {s : State} {c : Byte} {rest : List Byte} (hinput : s.input = c :: rest) (word : Word)
include hinput

theorem State.blockRead_of_input : s.blockRead = (.char c, { s with input := rest }) := by
  rw [State.blockRead, hinput]

theorem State.getcRoutine_of_input : s.getcRoutine word = s.receiveChar c rest := by
  rw [State.getcRoutine, State.getcRead, State.blockRead_of_input hinput, State.getcFinish_char]
  rfl

/-- The prompt and the echo are written, and the rest is as in GETC. -/
theorem State.inRoutine_of_input :
    s.inRoutine word = ((s.writeBytes s.params.inPrompt).writeByte c).receiveChar c rest := by
  have hprompted : (s.writeBytes s.params.inPrompt).input = c :: rest := hinput
  rw [State.inRoutine, State.inRead, State.blockRead_of_input hprompted, State.inFinish_char]
  rfl

end

theorem State.receiveChar_reg (s : State) (c : Byte) (rest : List Byte) (q : Reg) :
    (s.receiveChar c rest).reg q = if q = .r0 then zext16 c else s.reg q :=
  regGet_regSet s.regs .r0 q (zext16 c)

theorem State.receiveChar_cond (s : State) (c : Byte) (rest : List Byte) :
    (s.receiveChar c rest).cond =
      if s.params.trapInputSetsFlags then condOf (zext16 c) else s.cond := rfl

/-- What GETC does where it completes, and IN but for the output: the link, R0 and the flag (rules R126,
R130, R133). -/
theorem State.trapEntry_receiveChar_frame (s : State) (c : Byte) (rest : List Byte) {t : State}
    (ht : s.trapEntry.receiveChar c rest = t) :
    (t.reg .r0).toNat = c.toNat ∧ t.reg .r7 = linkedR7 s ∧
    (∀ q, q ≠ .r0 → q ≠ .r7 → t.reg q = s.reg q) ∧
    (s.params.trapInputSetsFlags = true → FlagShows (t.reg .r0) t) ∧
    (s.params.trapInputSetsFlags = false → t.cond = s.cond) ∧
    t.pc = s.pc ∧ CellsKept s t ∧ t.input = rest ∧ t.inputEnded = s.inputEnded ∧
    t.draws = s.draws ∧ t.polls = s.polls ∧ t.run = s.run ∧ t.params = s.params ∧
    t.pending = .idle := by
  subst ht
  obtain ⟨hlink, hregs, hcond, hpc, hcells, -, hended, hdraws, hpolls⟩ := s.trapEntry_frame
  refine ⟨?char, ?link, fun q hq hq7 => ?otherRegs, fun hsets => ?shows, fun hkeeps => ?kept,
    hpc, hcells, rfl, hended, hdraws, hpolls, s.trapEntry_run, s.trapEntry_params, rfl⟩
  case char =>
    rw [State.receiveChar_reg, if_pos rfl]
    exact BitVec.toNat_setWidth_of_le (by decide)
  case link => rw [State.receiveChar_reg, if_neg nofun, hlink]
  case otherRegs => rw [State.receiveChar_reg, if_neg hq, hregs q hq7]
  case shows =>
    refine flagShows_of_cond_eq ?_
    rw [State.receiveChar_cond, State.trapEntry_params, if_pos hsets, State.receiveChar_reg,
      if_pos rfl]
  case kept =>
    rw [State.receiveChar_cond, State.trapEntry_params, hkeeps, if_neg Bool.false_ne_true, hcond]

/-- Settles O32: after the link GETC receives the character and writes no output. -/
theorem getcPutsTheCharacterInR0 : Obligations.GetcPutsTheCharacterInR0 := by
  intro ign s c rest hinput
  have hroutine : s.trapEntry.getcRoutine (trapWord ign 0x20) = s.trapEntry.receiveChar c rest :=
    State.getcRoutine_of_input (s.trapEntry_input.trans hinput) _
  obtain ⟨hr0, hlink, hregs, hshows, hkept, hpc, hcells, hrest, hended, hdraws, hpolls, hrun,
    hparams, hidle⟩ := s.trapEntry_receiveChar_frame c rest rfl
  exact ⟨_, congrArg Host.Outcome.next hroutine, hr0, hlink, hregs, hshows, hkept, hpc, hcells,
    hrest, hended, hdraws, hpolls, s.trapEntry_output, hrun, hparams, hidle⟩

/-- Settles O33: after the link IN writes prompt and echo and receives the character as GETC does. -/
theorem inPromptsEchoesAndPutsInR0 : Obligations.InPromptsEchoesAndPutsInR0 := by
  intro ign s c rest hinput
  have hroutine : s.trapEntry.inRoutine (trapWord ign 0x23) =
      ((s.trapEntry.writeBytes s.trapEntry.params.inPrompt).writeByte c).receiveChar c rest :=
    State.inRoutine_of_input (s.trapEntry_input.trans hinput) _
  have hframe := s.trapEntry_receiveChar_frame c rest rfl
  refine ⟨_, congrArg Host.Outcome.next hroutine, ?written, hframe⟩
  case written =>
    have hwritten : (((s.trapEntry.writeBytes s.trapEntry.params.inPrompt).writeByte c).receiveChar
        c rest).output = s.trapEntry.output ++ s.trapEntry.params.inPrompt ++ [c] := rfl
    rw [hwritten, s.trapEntry_output, s.trapEntry_params]

/-! The frame of all six. -/

theorem State.getcRead_mem (s : State) (word : Word) : (s.getcRead word).mem = s.mem := by
  rcases s.getcRead_cases word with ⟨c, rest, -, h⟩ | ⟨-, -, h⟩ | ⟨-, -, h⟩ <;> rw [h]
  case inl => rw [State.getcFinish_char]
  case inr.inl | inr.inr => rfl

theorem State.inRead_mem (s : State) (word : Word) : (s.inRead word).mem = s.mem := by
  rcases s.inRead_cases word with ⟨c, rest, -, h⟩ | ⟨-, -, h⟩ | ⟨-, -, h⟩ <;> rw [h]
  case inl => rw [State.inFinish_char]
  case inr.inl | inr.inr => rfl

/-- Only the two scans read memory, so no other routine polls (decision D35). -/
theorem State.runRoutine_mem (s : State) (word : Word) {r : Routine} (hputs : r ≠ .puts)
    (hputsp : r ≠ .putsp) : (s.runRoutine word r).mem = s.mem := by
  cases r with
  | getc => exact s.getcRead_mem word
  | inp => exact (s.writeBytes s.params.inPrompt).inRead_mem word
  | puts => exact absurd rfl hputs
  | putsp => exact absurd rfl hputsp
  | out | halt => rfl

theorem State.getcRead_output (s : State) (word : Word) : (s.getcRead word).output = s.output := by
  rcases s.getcRead_cases word with ⟨c, rest, -, h⟩ | ⟨-, -, h⟩ | ⟨-, -, h⟩ <;> rw [h]
  case inl => rw [State.getcFinish_char]
  case inr.inl | inr.inr => rfl

theorem State.inRead_output (s : State) (word : Word) : s.output <+: (s.inRead word).output := by
  rcases s.inRead_cases word with ⟨c, rest, -, h⟩ | ⟨-, -, h⟩ | ⟨-, -, h⟩ <;> rw [h]
  case inl => rw [State.inFinish_char]; exact List.prefix_append _ _
  case inr.inl | inr.inr => exact List.prefix_rfl

theorem State.memRead_output_prefix (s : State) (a : Word) :
    s.output <+: (s.memRead a).2.output := by
  rw [State.memRead_output]

/-- A routine writes at the end of the output only (rule R136). -/
theorem State.runRoutine_output (s : State) (word : Word) (r : Routine) :
    s.output <+: (s.runRoutine word r).output := by
  have hwrite : ∀ (u : State) b, u.output <+: (u.writeByte b).output :=
    fun u b => List.prefix_append u.output [b]
  cases r with
  | getc => exact (s.getcRead_output word).symm ▸ List.prefix_rfl
  | out => exact hwrite s _
  | puts =>
    exact s.putsScan_induct (fun u v => u.output <+: v.output) (fun _ _ _ => List.IsPrefix.trans)
      State.memRead_output_prefix hwrite (fun _ _ => List.prefix_rfl) scanRound _
  | inp =>
    exact (List.prefix_append s.output s.params.inPrompt).trans
      ((s.writeBytes s.params.inPrompt).inRead_output word)
  | putsp =>
    exact s.putspScan_induct (fun u v => u.output <+: v.output) (fun _ _ _ => List.IsPrefix.trans)
      State.memRead_output_prefix hwrite (fun _ _ => List.prefix_rfl) scanRound _
  | halt => exact List.prefix_rfl

/-- Settles O46: the link, then a routine, whose parts are kept as the lemmas of `runRoutine` say. -/
theorem trapRoutinesChangeOnlyWhatTheyName : Obligations.TrapRoutinesChangeOnlyWhatTheyName := by
  intro ign s t i hi h
  obtain ⟨r, rfl⟩ : ∃ r : Routine, i = r.instr ign := by
    simp only [List.mem_cons, List.not_mem_nil, or_false] at hi
    rcases hi with rfl | rfl | rfl | rfl | rfl | rfl
    exacts [⟨.getc, rfl⟩, ⟨.out, rfl⟩, ⟨.puts, rfl⟩, ⟨.inp, rfl⟩, ⟨.putsp, rfl⟩, ⟨.halt, rfl⟩]
  obtain ⟨word, hexec⟩ := exec_of_routineOf (routineOf_instr ign r) s
  cases h.symm.trans hexec
  obtain ⟨hlink, hregs, -, hpc, hcells, -⟩ := s.trapEntry_frame
  have hpolls := s.trapEntry_pollFrame.trans (s.trapEntry.runRoutine_pollFrame word r)
  have hreg : ∀ q, (r.readsInput = true → q ≠ .r0) →
      (s.trapEntry.runRoutine word r).reg q = s.trapEntry.reg q :=
    fun _ hq => State.runRoutine_reg _ word r hq
  refine ⟨?pc, ?link, fun q hq hq7 => ?otherRegs, fun hreads => ?r0, fun hputs hputsp => ?cells,
    hpolls.cells, ?output, hpolls.params⟩
  case pc => rw [State.runRoutine_pc, hpc]
  case link => rw [hreg .r7 fun _ => nofun, hlink]
  case otherRegs => rw [hreg q fun _ => hq, hregs q hq7]
  case r0 =>
    rw [readsCharacter_of_routineOf (routineOf_instr ign r)] at hreads
    rw [hreg .r0 fun hreads' => absurd (hreads.symm.trans hreads') nofun, hregs .r0 nofun]
  case cells =>
    have hmem : (s.trapEntry.runRoutine word r).mem = s.trapEntry.mem :=
      State.runRoutine_mem _ word (mt (congrArg (Routine.instr ign)) hputs)
        (mt (congrArg (Routine.instr ign)) hputsp)
    exact fun a => (State.cell_eq_of_mem hmem a).trans (hcells a)
  case output =>
    obtain ⟨bytes, hbytes⟩ := s.trapEntry.runRoutine_output word r
    exact ⟨bytes, by rw [← hbytes, State.trapEntry_output]⟩

end Sys2Proof.Machine
end

section
/-! PROOFS. The string scans of PUTS and PUTSP (43_trap.md rules R132, R134; log entry 7). Both scans are
one loop: read a cell, write its bytes, stop or go on at the next address. What follows is proved once for
that loop (`State.scan`), and each routine is a value of `ScanKind`. -/

namespace Sys2Proof.Machine

/-! The common loop. -/

/-- The two routines that scan a string. -/
inductive ScanKind where
  | puts | putsp

/-- The scan stops at a cell of this content (decisions D13, D16). -/
def ScanKind.stopsAt : ScanKind → Word → Bool
  | .puts, v => v == 0
  | .putsp, v => lowByte v == 0 || highByte v == 0

theorem ScanKind.stopsAt_puts {v : Word} : ScanKind.puts.stopsAt v = true ↔ v = 0 :=
  beq_iff_eq

theorem ScanKind.stopsAt_putsp {v : Word} :
    ScanKind.putsp.stopsAt v = true ↔ lowByte v = 0 ∨ highByte v = 0 := by
  rw [ScanKind.stopsAt, Bool.or_eq_true, beq_iff_eq, beq_iff_eq]

/-- The bytes that the scan writes for a cell of this content. -/
def ScanKind.bytes : ScanKind → Word → List Byte
  | .puts, v => if v = 0 then [] else [lowByte v]
  | .putsp, v =>
    if lowByte v = 0 then [] else if highByte v = 0 then [lowByte v] else [lowByte v, highByte v]

theorem ScanKind.bytes_puts_zero : ScanKind.puts.bytes 0 = [] := rfl

theorem ScanKind.bytes_puts_of_ne {v : Word} (h : v ≠ 0) : ScanKind.puts.bytes v = [lowByte v] :=
  if_neg h

theorem ScanKind.bytes_putsp_of_low_zero {v : Word} (hlow : lowByte v = 0) :
    ScanKind.putsp.bytes v = [] :=
  if_pos hlow

theorem ScanKind.bytes_putsp_of_high_zero {v : Word} (hlow : lowByte v ≠ 0)
    (hhigh : highByte v = 0) : ScanKind.putsp.bytes v = [lowByte v] := by
  rw [ScanKind.bytes, if_neg hlow, if_pos hhigh]

theorem ScanKind.bytes_putsp_of_ne {v : Word} (hlow : lowByte v ≠ 0) (hhigh : highByte v ≠ 0) :
    ScanKind.putsp.bytes v = [lowByte v, highByte v] := by
  rw [ScanKind.bytes, if_neg hlow, if_neg hhigh]

/-- What a scan that has gone once round all of memory goes on from. -/
def ScanKind.pending : ScanKind → Word → Pending
  | .puts => .scanPuts
  | .putsp => .scanPutsp

/-- The scan of a routine. -/
def State.scan (s : State) (k : ScanKind) (fuel : Nat) (a : Word) : State :=
  match k with
  | .puts => s.putsScan fuel a
  | .putsp => s.putspScan fuel a

/-- The state after the cell at `a` is read and its bytes are written. -/
def State.scanCell (s : State) (k : ScanKind) (a : Word) : State :=
  (s.memRead a).2.writeBytes (k.bytes (s.memRead a).1)

section
variable (s : State)

theorem State.writeBytes_nil : s.writeBytes [] = s := by
  rw [State.writeBytes, List.append_nil]

theorem State.writeBytes_writeBytes (b c : List Byte) :
    (s.writeBytes b).writeBytes c = s.writeBytes (b ++ c) := by
  rw [State.writeBytes, State.writeBytes_output, List.append_assoc]
  rfl

theorem State.writeByte_writeByte (b c : Byte) :
    (s.writeByte b).writeByte c = s.writeBytes [b, c] :=
  s.writeBytes_writeBytes [b] [c]

theorem State.scan_zero (k : ScanKind) (a : Word) : s.scan k 0 a = s.suspend (k.pending a) := by
  cases k <;> rfl

/-- One round of either scan. -/
theorem State.scan_succ (k : ScanKind) (fuel : Nat) (a : Word) :
    s.scan k (fuel + 1) a =
      if k.stopsAt (s.memRead a).1 then (s.scanCell k a).trapReturn
      else (s.scanCell k a).scan k fuel (a + 1) := by
  cases k with
  | puts =>
    rw [State.scan, State.putsScan_succ, State.scanCell]
    by_cases hzero : (s.memRead a).1 = 0
    case pos =>
      rw [if_pos hzero, if_pos (ScanKind.stopsAt_puts.mpr hzero), hzero, ScanKind.bytes_puts_zero,
        State.writeBytes_nil]
    case neg =>
      rw [if_neg hzero, if_neg (mt ScanKind.stopsAt_puts.mp hzero),
        ScanKind.bytes_puts_of_ne hzero]
      rfl
  | putsp =>
    rw [State.scan, State.putspScan_succ, State.scanCell]
    by_cases hlow : lowByte (s.memRead a).1 = 0
    case pos =>
      rw [if_pos hlow, if_pos (ScanKind.stopsAt_putsp.mpr (.inl hlow)),
        ScanKind.bytes_putsp_of_low_zero hlow, State.writeBytes_nil]
    case neg =>
      by_cases hhigh : highByte (s.memRead a).1 = 0
      case pos =>
        rw [if_neg hlow, if_pos hhigh, if_pos (ScanKind.stopsAt_putsp.mpr (.inr hhigh)),
          ScanKind.bytes_putsp_of_high_zero hlow hhigh]
        rfl
      case neg =>
        rw [if_neg hlow, if_neg hhigh,
          if_neg (mt ScanKind.stopsAt_putsp.mp (not_or.mpr ⟨hlow, hhigh⟩)),
          ScanKind.bytes_putsp_of_ne hlow hhigh, State.writeByte_writeByte]
        rfl

theorem State.scan_run (k : ScanKind) (fuel : Nat) (a : Word) : (s.scan k fuel a).run = s.run := by
  cases k with
  | puts => exact s.putsScan_run fuel a
  | putsp => exact s.putspScan_run fuel a

end

theorem step_scan {s : State} {k : ScanKind} {a : Word} (hrun : s.run = .running)
    (hpending : s.pending = k.pending a) : step s = .next (s.scan k scanRound a) := by
  cases k with
  | puts => exact step_scanPuts hrun hpending
  | putsp => exact step_scanPutsp hrun hpending

/-! The loop as a relation, with no bound on its length. -/

/-- The scan from the cell at `a` in state `s` ends in state `t` after `n` reads. -/
inductive ScanRun (k : ScanKind) : Nat → Word → State → State → Prop where
  /-- The scan stops at the cell read. -/
  | stop {a : Word} {s : State} (hstop : k.stopsAt (s.memRead a).1 = true) :
      ScanRun k 1 a s (s.scanCell k a)
  /-- The scan goes on at the next address. -/
  | more {n : Nat} {a : Word} {s t : State} (hmore : ¬ k.stopsAt (s.memRead a).1 = true)
      (rest : ScanRun k n (a + 1) (s.scanCell k a) t) : ScanRun k (n + 1) a s t

/-- The spec's PUTS is the loop of PUTS. -/
theorem PutsRun.scanRun {n : Nat} {a : Word} {s t : State} (h : PutsRun n a s t) :
    ScanRun .puts n a s t := by
  induction h with
  | stop a s hzero =>
    have hcell : s.scanCell .puts a = (s.memRead a).2 := by
      rw [State.scanCell, hzero, ScanKind.bytes_puts_zero, State.writeBytes_nil]
    exact hcell ▸ .stop (ScanKind.stopsAt_puts.mpr hzero)
  | more n a s t hzero _ ih =>
    refine .more (mt ScanKind.stopsAt_puts.mp hzero) ?_
    rw [State.scanCell, ScanKind.bytes_puts_of_ne hzero]
    exact ih

/-- The spec's PUTSP is the loop of PUTSP. -/
theorem PutspRun.scanRun {n : Nat} {a : Word} {s t : State} (h : PutspRun n a s t) :
    ScanRun .putsp n a s t := by
  induction h with
  | stopLow a s hlow =>
    have hcell : s.scanCell .putsp a = (s.memRead a).2 := by
      rw [State.scanCell, ScanKind.bytes_putsp_of_low_zero hlow, State.writeBytes_nil]
    exact hcell ▸ .stop (ScanKind.stopsAt_putsp.mpr (.inl hlow))
  | stopHigh a s hlow hhigh =>
    have hcell : s.scanCell .putsp a = (s.memRead a).2.writeByte (lowByte (s.memRead a).1) := by
      rw [State.scanCell, ScanKind.bytes_putsp_of_high_zero hlow hhigh]
      rfl
    exact hcell ▸ .stop (ScanKind.stopsAt_putsp.mpr (.inr hhigh))
  | more n a s t hlow hhigh _ ih =>
    refine .more (mt ScanKind.stopsAt_putsp.mp (not_or.mpr ⟨hlow, hhigh⟩)) ?_
    rw [State.scanCell, ScanKind.bytes_putsp_of_ne hlow hhigh, ← State.writeByte_writeByte]
    exact ih

/-- A run that ends within the fuel is the whole scan. -/
theorem ScanRun.scan_eq {k : ScanKind} {n : Nat} {a : Word} {s t : State} (h : ScanRun k n a s t)
    {fuel : Nat} (hfuel : n ≤ fuel) : s.scan k fuel a = t.trapReturn := by
  induction h generalizing fuel with
  | stop hstop =>
    obtain ⟨fuel, rfl⟩ := Nat.exists_eq_add_of_le' hfuel
    rw [State.scan_succ, if_pos hstop]
  | more hmore _ ih =>
    obtain ⟨fuel, rfl⟩ := Nat.exists_eq_add_of_le' (Nat.le_of_add_left_le hfuel)
    rw [State.scan_succ, if_neg hmore, ih (Nat.le_of_add_le_add_right hfuel)]

/-! A scan does not depend on the routine in progress, so a suspended one goes on where it stopped. -/

theorem State.keyboardPoll_suspend (s : State) (p : Pending) :
    (s.suspend p).keyboardPoll = s.keyboardPoll.suspend p := by
  rcases s.keyboardPoll_cases with ⟨c, rest, hinput, hdraw, -⟩ | ⟨hnothing, -⟩
  · rw [State.keyboardPoll_of_found (s := s.suspend p) hinput hdraw,
      State.keyboardPoll_of_found hinput hdraw]
    rfl
  · rw [State.keyboardPoll_of_not_found (s := s.suspend p) hnothing,
      State.keyboardPoll_of_not_found hnothing]
    rfl

theorem State.memRead_suspend (s : State) (p : Pending) (a : Word) :
    (s.suspend p).memRead a = ((s.memRead a).1, (s.memRead a).2.suspend p) := by
  unfold State.memRead
  rw [State.suspend_params, State.keyboardPoll_suspend]
  split <;> rfl

theorem State.scanCell_suspend (s : State) (p : Pending) (k : ScanKind) (a : Word) :
    (s.suspend p).scanCell k a = (s.scanCell k a).suspend p := by
  rw [State.scanCell, State.memRead_suspend]
  rfl

theorem ScanRun.suspend {k : ScanKind} {n : Nat} {a : Word} {s t : State} (h : ScanRun k n a s t)
    (p : Pending) : ScanRun k n a (s.suspend p) (t.suspend p) := by
  induction h with
  | @stop a s hstop =>
    rw [← State.scanCell_suspend]
    exact .stop (by rwa [State.memRead_suspend])
  | more hmore _ ih =>
    refine .more (by rwa [State.memRead_suspend]) ?_
    rw [State.scanCell_suspend]
    exact ih

/-- A run longer than the fuel leaves the scan suspended, with the rest of the run before it. -/
theorem ScanRun.scan_suspended {k : ScanKind} {fuel n : Nat} {a : Word} {s t : State}
    (h : ScanRun k n a s t) (hfuel : fuel < n) :
    ∃ b, (s.scan k fuel a).pending = k.pending b ∧
      ScanRun k (n - fuel) b (s.scan k fuel a) (t.suspend (k.pending b)) := by
  induction fuel generalizing n a s with
  | zero =>
    rw [State.scan_zero]
    exact ⟨a, rfl, h.suspend _⟩
  | succ fuel ih =>
    cases h with
    | stop => exact absurd hfuel (by omega)
    | @more m _ _ _ hmore rest =>
      rw [State.scan_succ, if_neg hmore, Nat.add_sub_add_right]
      exact ih rest (Nat.lt_of_add_lt_add_right hfuel)

/-- Each step of a scan makes one round of its run, so the end of the run is reached (R187). -/
theorem ScanRun.reached {k : ScanKind} {n : Nat} {a : Word} {s t : State} (hrun : s.run = .running)
    (h : ScanRun k n a s t) :
    ∃ j, j ≤ n / 65536 ∧ Sys2Proof.core.run j (s.scan k scanRound a) = .next t.trapReturn := by
  induction n using Nat.strong_induction_on generalizing a s t with
  | _ n ih =>
    by_cases hround : n ≤ scanRound
    case pos => exact ⟨0, Nat.zero_le _, congrArg Host.Outcome.next (h.scan_eq hround)⟩
    case neg =>
      have hscanRound : scanRound = 65536 := rfl
      obtain ⟨b, hpending, hrest⟩ := h.scan_suspended (Nat.not_le.mp hround)
      have hrun' : (s.scan k scanRound a).run = .running := (s.scan_run k _ a).trans hrun
      obtain ⟨j, hj, hreached⟩ := ih (n - scanRound) (by omega) hrun' hrest
      exact ⟨j + 1, by omega, (core_run_succ j (step_scan hrun' hpending)).trans hreached⟩

/-! The two statements on scans of any length. -/

theorem exec_puts (s : State) :
    exec .puts s = .next (s.trapEntry.scan .puts scanRound (s.trapEntry.reg .r0)) := rfl

theorem exec_putsp (s : State) :
    exec .putsp s = .next (s.trapEntry.scan .putsp scanRound (s.trapEntry.reg .r0)) := rfl

/-- Settles O40: a scan of one round ends in its own step, and a longer one by `ScanRun.reached`. -/
theorem putsScanCompletes : Obligations.PutsScanCompletes := by
  refine ⟨fun s t n hround hscan => ?oneRound, fun s t n hrun hscan => ?anyLength⟩
  case oneRound => exact congrArg Host.Outcome.next (hscan.scanRun.scan_eq hround)
  case anyLength =>
    obtain ⟨j, hj, hreached⟩ := hscan.scanRun.reached (s.trapEntry_run.trans hrun)
    exact ⟨_, j, exec_puts s, hj, hreached⟩

/-- Settles O41: as O40, for the loop of PUTSP. -/
theorem putspScanCompletes : Obligations.PutspScanCompletes := by
  refine ⟨fun s t n hround hscan => ?oneRound, fun s t n hrun hscan => ?anyLength⟩
  case oneRound => exact congrArg Host.Outcome.next (hscan.scanRun.scan_eq hround)
  case anyLength =>
    obtain ⟨j, hj, hreached⟩ := hscan.scanRun.reached (s.trapEntry_run.trans hrun)
    exact ⟨_, j, exec_putsp s, hj, hreached⟩

/-! Strings: a scan that never polls. -/

theorem State.scanCell_plain {s : State} {a : Word} (h : a ≠ s.params.kbsrAddr) (k : ScanKind) :
    s.scanCell k a = s.writeBytes (k.bytes (s.cell a)) := by
  rw [State.scanCell, State.memRead_plain h]

theorem add_ofNat_succ (a : Word) (i : Nat) :
    a + BitVec.ofNat 16 (i + 1) = a + 1 + BitVec.ofNat 16 i := by
  rw [Nat.add_comm, BitVec.ofNat_add, ← BitVec.add_assoc]
  rfl

/-- The cells from `a` on, `n` at which the scan goes on and one at which it stops, are read and written
in order. -/
theorem scanRun_of_string (k : ScanKind) {n : Nat} {a : Word} {s : State}
    (hplain : ∀ i ≤ n, a + BitVec.ofNat 16 i ≠ s.params.kbsrAddr)
    (hmore : ∀ i < n, ¬ k.stopsAt (s.cell (a + BitVec.ofNat 16 i)) = true)
    (hstop : k.stopsAt (s.cell (a + BitVec.ofNat 16 n)) = true) :
    ScanRun k (n + 1) a s (s.writeBytes
      ((List.range (n + 1)).flatMap fun i => k.bytes (s.cell (a + BitVec.ofNat 16 i)))) := by
  have hzero : a + BitVec.ofNat 16 0 = a := BitVec.add_zero a
  have hfirst : a ≠ s.params.kbsrAddr := hzero ▸ hplain 0 (Nat.zero_le n)
  induction n generalizing a s with
  | zero =>
    rw [hzero] at hstop
    rw [List.range_one, List.flatMap_singleton, hzero, ← State.scanCell_plain hfirst]
    exact .stop (by rwa [State.memRead_plain hfirst])
  | succ n ih =>
    have hgoesOn := hmore 0 (Nat.succ_pos n)
    rw [hzero] at hgoesOn
    refine .more (by rwa [State.memRead_plain hfirst]) ?_
    rw [State.scanCell_plain hfirst, List.range_succ_eq_map, List.flatMap_cons, List.flatMap_map,
      hzero, ← State.writeBytes_writeBytes]
    simp only [Nat.succ_eq_add_one, add_ofNat_succ] at hstop ⊢
    have hplain' : ∀ i ≤ n, a + 1 + BitVec.ofNat 16 i ≠ s.params.kbsrAddr := fun i hi =>
      add_ofNat_succ a i ▸ hplain (i + 1) (Nat.succ_le_succ hi)
    have hmore' : ∀ i < n, ¬ k.stopsAt (s.cell (a + 1 + BitVec.ofNat 16 i)) = true := fun i hi =>
      add_ofNat_succ a i ▸ hmore (i + 1) (Nat.succ_lt_succ hi)
    exact ih (s := s.writeBytes (k.bytes (s.cell a))) hplain' hmore' hstop
      (BitVec.add_zero _) (BitVec.add_zero (a + 1) ▸ hplain' 0 (Nat.zero_le n))

/-- A scan of a string in memory, after the link: its cells and its address are as before it. -/
theorem State.scan_trapEntry_of_string (k : ScanKind) (s : State) {n : Nat} (hn : n < 65535)
    (hplain : ∀ i ≤ n, s.reg .r0 + BitVec.ofNat 16 i ≠ s.params.kbsrAddr)
    (hmore : ∀ i < n, ¬ k.stopsAt (s.cell (s.reg .r0 + BitVec.ofNat 16 i)) = true)
    (hstop : k.stopsAt (s.cell (s.reg .r0 + BitVec.ofNat 16 n)) = true) :
    s.trapEntry.scan k scanRound (s.trapEntry.reg .r0) = (s.trapEntry.writeBytes
      ((List.range n).flatMap (fun i => k.bytes (s.cell (s.reg .r0 + BitVec.ofNat 16 i))) ++
        k.bytes (s.cell (s.reg .r0 + BitVec.ofNat 16 n)))).trapReturn := by
  obtain ⟨-, hregs, -⟩ := s.trapEntry_frame
  have hround : n + 1 ≤ scanRound := Nat.succ_le_succ hn.le
  have hscan : ScanRun k (n + 1) (s.reg .r0) s.trapEntry _ :=
    scanRun_of_string k (s.trapEntry_params ▸ hplain) (by simpa only [State.trapEntry_cell])
      (by rwa [State.trapEntry_cell])
  rw [hregs .r0 nofun, hscan.scan_eq hround, List.range_succ, List.flatMap_append,
    List.flatMap_singleton]
  simp only [State.trapEntry_cell]

/-- Settles O38: each cell before the last gives its low byte, and the last one gives nothing. -/
theorem putsWritesTheString : Obligations.PutsWritesTheString := by
  intro s n hn hplain hnonzero hzero
  have hscan := s.scan_trapEntry_of_string .puts hn hplain
    (fun i hi => mt ScanKind.stopsAt_puts.mp (hnonzero i hi)) (ScanKind.stopsAt_puts.mpr hzero)
  rw [hzero, ScanKind.bytes_puts_zero, List.append_nil, List.flatMap_congr fun i hi =>
    ScanKind.bytes_puts_of_ne (hnonzero i (List.mem_range.mp hi)), ← List.map_eq_flatMap] at hscan
  refine ⟨_, (exec_puts s).trans (congrArg Host.Outcome.next hscan), ?written,
    s.trapEntry_writeBytes_frame rfl⟩
  case written =>
    rw [State.trapReturn_output, State.writeBytes_output, State.trapEntry_output]
    rfl

/-- Settles O39: each cell before the last gives both its bytes, and the last one gives its low byte
where that is not the zero byte. -/
theorem putspWritesThePackedString : Obligations.PutspWritesThePackedString := by
  intro s n hn hplain hnonzero hzero
  have hlast : ScanKind.putsp.bytes (s.cell (s.reg .r0 + BitVec.ofNat 16 n)) =
      if lowByte (s.cell (s.reg .r0 + BitVec.ofNat 16 n)) = 0 then []
      else [lowByte (s.cell (s.reg .r0 + BitVec.ofNat 16 n))] := by
    split
    · next hlow => exact ScanKind.bytes_putsp_of_low_zero hlow
    · next hlow => exact ScanKind.bytes_putsp_of_high_zero hlow (hzero.resolve_left hlow)
  have hfull : ∀ i ∈ List.range n, ScanKind.putsp.bytes (s.cell (s.reg .r0 + BitVec.ofNat 16 i)) =
      [lowByte (s.cell (s.reg .r0 + BitVec.ofNat 16 i)),
        highByte (s.cell (s.reg .r0 + BitVec.ofNat 16 i))] := fun i hi => by
    obtain ⟨hlow, hhigh⟩ := hnonzero i (List.mem_range.mp hi)
    exact ScanKind.bytes_putsp_of_ne hlow hhigh
  have hscan := s.scan_trapEntry_of_string .putsp hn hplain
    (fun i hi => mt ScanKind.stopsAt_putsp.mp (not_or.mpr (hnonzero i hi)))
    (ScanKind.stopsAt_putsp.mpr hzero)
  rw [hlast, List.flatMap_congr hfull] at hscan
  refine ⟨_, (exec_putsp s).trans (congrArg Host.Outcome.next hscan), ?written,
    s.trapEntry_writeBytes_frame rfl⟩
  case written =>
    rw [State.trapReturn_output, State.writeBytes_output, State.trapEntry_output,
      ← List.append_assoc]
    rfl

end Sys2Proof.Machine
end

section
/-! PROOFS. RES and RTI (44_reserved.md rules R150, R151): how the decoder reads their words, and the
failure that each takes, with that word in its report (60_exceptions.md rules R161, R164). -/

namespace Sys2Proof

/-! The words of opcodes 1101 and 1000. -/

theorem decode_of_res_opcode {w : Word} (hop : w.extractLsb' 12 4 = 0xD#4) :
    decode w = .res (w.extractLsb' 0 12) := by
  rw [decode, opcode_of_field (op := .res) hop]

theorem decode_of_rti_opcode {w : Word} (hop : w.extractLsb' 12 4 = 0x8#4) :
    decode w = .rti (w.extractLsb' 0 12) := by
  rw [decode, opcode_of_field (op := .rti) hop]

/-- A word is its opcode and the twelve bits below it, which RES and RTI ignore (rule R68). -/
theorem append_opcode_ignored (w : Word) : w.extractLsb' 12 4 ++ w.extractLsb' 0 12 = w := by
  rw [BitVec.extractLsb'_append_extractLsb'_eq_extractLsb' (by decide)]
  exact BitVec.extractLsb'_eq_self

end Sys2Proof

namespace Sys2Proof.Machine

theorem exec_res (ign : BitVec 12) (s : State) :
    exec (.res ign) s = .next (s.raise .illegalInstruction (0xD#4 ++ ign)) := rfl

theorem exec_rti (ign : BitVec 12) (s : State) :
    exec (.rti ign) s = .next (s.raise .illegalInstruction (0x8#4 ++ ign)) := rfl

/-- A word of opcode 1101 is rebuilt by RES for its report (log entry 23). -/
theorem exec_decode_of_res_opcode {w : Word} (hop : w.extractLsb' 12 4 = 0xD#4) (s : State) :
    exec (decode w) s = .next (s.raise .illegalInstruction w) := by
  rw [decode_of_res_opcode hop, exec_res, ← hop, append_opcode_ignored]

/-- A word of opcode 1000 is rebuilt by RTI for its report (log entry 23). -/
theorem exec_decode_of_rti_opcode {w : Word} (hop : w.extractLsb' 12 4 = 0x8#4) (s : State) :
    exec (decode w) s = .next (s.raise .illegalInstruction w) := by
  rw [decode_of_rti_opcode hop, exec_rti, ← hop, append_opcode_ignored]

/-- `raise` sets RUN to the failure, reported at the instruction's own address, and nothing else. -/
theorem State.raise_effect (s : State) (kind : FailKind) (word : Word) :
    (s.raise kind word).run = .failed kind word (s.pc - 1) ∧
    s.raise kind word = { s with run := (s.raise kind word).run } :=
  ⟨s.raise_run kind word, rfl⟩

/-! The two statements. -/

/-- Settles O28: each such word, and RES with any ignored bits, takes the failure. -/
theorem reservedOpcodeRaisesIllegal : Obligations.ReservedOpcodeRaisesIllegal :=
  ⟨fun _ s hop => ⟨_, exec_decode_of_res_opcode hop s, s.raise_effect ..⟩,
    fun ign s => ⟨_, exec_res ign s, s.raise_effect ..⟩⟩

/-- Settles O29: each such word, and RTI with any ignored bits, takes the failure. -/
theorem rtiRaisesIllegal : Obligations.RtiRaisesIllegal :=
  ⟨fun _ s hop => ⟨_, exec_decode_of_rti_opcode hop s, s.raise_effect ..⟩,
    fun ign s => ⟨_, exec_rti ign s, s.raise_effect ..⟩⟩

end Sys2Proof.Machine
end

section
/-! PROOFS. GETC and IN at end-of-stream (43_trap.md rules R130, R133; 60_exceptions.md rule R162). -/

namespace Sys2Proof.Machine

/-! The blocking read and the routine from it on. -/

section
variable {s : State} (hinput : s.input = []) (hended : s.inputEnded = true) (word : Word)
include hinput hended

theorem State.blockRead_of_endOfStream : s.blockRead = (.endOfStream, s) := by
  simp only [State.blockRead, hinput, hended, if_true]

theorem State.getcRoutine_of_endOfStream :
    s.getcRoutine word = (s.raise .inputUnavailable word).trapReturn := by
  rw [State.getcRoutine, State.getcRead, State.blockRead_of_endOfStream hinput hended,
    State.getcFinish]

theorem State.inRoutine_of_endOfStream :
    s.inRoutine word =
      ((s.writeBytes s.params.inPrompt).raise .inputUnavailable word).trapReturn := by
  have hprompted : (s.writeBytes s.params.inPrompt).blockRead =
      (.endOfStream, s.writeBytes s.params.inPrompt) :=
    State.blockRead_of_endOfStream hinput hended
  rw [State.inRoutine, State.inRead, hprompted, State.inFinish]

end

/-! The state at the failure. -/

/-- What has happened when a routine that has written `bytes` fails for want of input: the link, the
output and the failure (decision D23). -/
theorem State.trapEntry_inputUnavailable_frame (s : State) {bytes : List Byte} {word : Word}
    {t : State} (ht : ((s.trapEntry.writeBytes bytes).raise .inputUnavailable word).trapReturn = t) :
    t.run = .failed .inputUnavailable word (s.pc - 1) ∧ t.output = s.output ++ bytes ∧
    t.reg .r7 = linkedR7 s ∧ RegsKeptBut .r7 s t ∧ t.cond = s.cond ∧ t.pc = s.pc ∧ CellsKept s t ∧
    KeyboardKept s t ∧ t.params = s.params ∧ t.pending = .idle := by
  subst ht
  obtain ⟨hlink, hregs, hcond, hpc, hcells, hkeyboard⟩ := s.trapEntry_frame
  refine ⟨?failed, ?written, hlink, hregs, hcond, hpc, hcells, hkeyboard, s.trapEntry_params, rfl⟩
  case failed => rw [State.trapReturn_run, State.raise_run, State.writeBytes_pc, hpc]
  case written =>
    rw [State.trapReturn_output, State.raise_output, State.writeBytes_output, s.trapEntry_output]

/-- Settles O34: after the link GETC fails with nothing written, and IN with its prompt. -/
theorem endOfStreamFailsTheBlockingRead : Obligations.EndOfStreamFailsTheBlockingRead := by
  intro ign s hinput hended
  have hinput' : s.trapEntry.input = [] := s.trapEntry_input.trans hinput
  have hended' : s.trapEntry.inputEnded = true := s.trapEntry_inputEnded.trans hended
  constructor
  case left =>
    have hroutine : s.trapEntry.getcRoutine (trapWord ign 0x20) =
        ((s.trapEntry.writeBytes []).raise .inputUnavailable (trapWord ign 0x20)).trapReturn := by
      rw [State.getcRoutine_of_endOfStream hinput' hended', State.writeBytes_nil]
    have hframe := s.trapEntry_inputUnavailable_frame hroutine.symm
    rw [List.append_nil] at hframe
    exact ⟨_, rfl, hframe⟩
  case right =>
    have hroutine := State.inRoutine_of_endOfStream hinput' hended' (trapWord ign 0x23)
    rw [s.trapEntry_params] at hroutine
    exact ⟨_, rfl, s.trapEntry_inputUnavailable_frame hroutine.symm⟩

end Sys2Proof.Machine
end

section
/-! PROOFS. The two failures of a step (60_exceptions.md rules R161, R162, R164): which instruction words
take IllegalInstruction, where GETC and IN take InputUnavailable, and that nothing else fails. -/

namespace Sys2Proof.Machine

/-! The failures of the routines. -/

/-- IN ends the run as GETC does: prompt and echo are no part of the run state. -/
theorem State.inRead_run_eq_getcRead_run (s : State) (word : Word) :
    (s.inRead word).run = (s.getcRead word).run := by
  unfold State.inRead State.getcRead
  cases s.blockRead.1 with
  | char c => rw [State.inFinish_char, State.getcFinish_char]
  | endOfStream | wait => rfl

section
variable {s : State} (hrun : s.run = .running) (word : Word) {k : FailKind} {x a : Word}
include hrun

theorem State.running_ne_failed : s.run ≠ .failed k x a := hrun.trans_ne nofun

/-- GETC fails at end-of-stream only, and only for want of input (rule R162). -/
theorem State.getcRead_failed_iff :
    (s.getcRead word).run = .failed k x a ↔
      k = .inputUnavailable ∧ x = word ∧ a = s.pc - 1 ∧ s.input = [] ∧ s.inputEnded = true := by
  rcases s.getcRead_cases word with ⟨c, rest, hi, h⟩ | ⟨hi, he, h⟩ | ⟨hi, he, h⟩ <;> rw [h]
  case inl =>
    rw [State.getcFinish_char]
    exact iff_of_false (State.running_ne_failed hrun) (by simp [hi])
  case inr.inl =>
    rw [State.trapReturn_run, State.raise_run, RunState.failed.injEq]
    simp only [hi, he, and_true, eq_comm]
  case inr.inr => exact iff_of_false (State.running_ne_failed hrun) (by simp [he])

theorem State.inRead_failed_iff :
    (s.inRead word).run = .failed k x a ↔
      k = .inputUnavailable ∧ x = word ∧ a = s.pc - 1 ∧ s.input = [] ∧ s.inputEnded = true := by
  rw [State.inRead_run_eq_getcRead_run, State.getcRead_failed_iff hrun]

/-- Of the routines those that read a character can fail, at end-of-stream. -/
theorem State.runRoutine_failed_iff (r : Routine) :
    (s.runRoutine word r).run = .failed k x a ↔
      r.readsInput = true ∧ k = .inputUnavailable ∧ x = word ∧ a = s.pc - 1 ∧ s.input = [] ∧
        s.inputEnded = true := by
  cases r with
  | getc => exact (State.getcRead_failed_iff hrun word).trans (and_iff_right rfl).symm
  | inp =>
    have hprompt : (s.writeBytes s.params.inPrompt).run = .running := hrun
    exact (State.inRead_failed_iff hprompt word).trans (and_iff_right rfl).symm
  | puts =>
    exact iff_of_false ((s.putsScan_run ..).trans_ne (State.running_ne_failed hrun)) nofun
  | putsp =>
    exact iff_of_false ((s.putspScan_run ..).trans_ne (State.running_ne_failed hrun)) nofun
  | out => exact iff_of_false (State.running_ne_failed hrun) nofun
  | halt => exact iff_of_false nofun nofun

end

/-! The three kinds of instruction words. -/

/-- A word is illegal, or a TRAP with a routine's vector, or of one of the thirteen opcodes that
neither fail nor trap. -/
theorem instruction_word_cases (w : Word) :
    illegalWord w ∨ (∃ r : Routine, w.extractLsb' 12 4 = 0xF#4 ∧ w.extractLsb' 0 8 = r.vector) ∨
      (w.extractLsb' 12 4 ≠ 0x8#4 ∧ w.extractLsb' 12 4 ≠ 0xD#4 ∧ w.extractLsb' 12 4 ≠ 0xF#4) := by
  by_cases htrap : w.extractLsb' 12 4 = 0xF#4
  case neg =>
    rw [illegalWord]
    tauto
  case pos =>
    cases hv : vectorRoutine (w.extractLsb' 0 8) with
    | none =>
      have hunnamed := vectorRoutine_eq_none_iff.mp hv
      exact .inl (.inr (.inr ⟨htrap, mt isNamedVector_iff.mpr (Bool.eq_false_iff.mp hunnamed)⟩))
    | some r => exact .inr (.inl ⟨r, htrap, vectorRoutine_eq_some.mp hv⟩)

/-- A TRAP word is rebuilt from its fields for the report (log entry 23). -/
theorem trapWord_fields {w : Word} (hop : w.extractLsb' 12 4 = 0xF#4) :
    trapWord (w.extractLsb' 8 4) (w.extractLsb' 0 8) = w :=
  calc trapWord (w.extractLsb' 8 4) (w.extractLsb' 0 8)
    _ = w.extractLsb' 12 4 ++ w.extractLsb' 8 4 ++ w.extractLsb' 0 8 := by rw [hop]; rfl
    _ = w := append_trap_fields w

/-- An illegal word takes the failure with itself in the report (rules R161, R164; decision D22). -/
theorem exec_decode_of_illegalWord {w : Word} (h : illegalWord w) (s : State) :
    exec (decode w) s = .next (s.raise .illegalInstruction w) := by
  rcases h with hop | hop | ⟨hop, hv⟩
  · exact exec_decode_of_rti_opcode hop s
  · exact exec_decode_of_res_opcode hop s
  · have hunnamed : isNamedVector (w.extractLsb' 0 8) = false :=
      Bool.eq_false_iff.mpr (mt isNamedVector_iff.mp hv)
    rw [decode_of_trap_opcode hop, decodeTrap_of_unnamed hunnamed, exec_trap_of_unnamed hunnamed,
      trapWord_fields hop]

/-- A TRAP word with a routine's vector links and runs the routine, which has the word for its report
(43_trap.md rule R125). -/
theorem exec_decode_of_vector {w : Word} {r : Routine} (hop : w.extractLsb' 12 4 = 0xF#4)
    (hv : w.extractLsb' 0 8 = r.vector) (s : State) :
    exec (decode w) s = .next (s.trapEntry.runRoutine w r) := by
  have hexec : ∀ ign, exec (r.instr ign) s =
      .next (s.trapEntry.runRoutine (trapWord ign r.vector) r) := fun ign => by cases r <;> rfl
  rw [decode_of_trap_opcode hop, hv, decodeTrap_vector, hexec, ← hv, trapWord_fields hop]

/-- The instructions of the other thirteen opcodes leave the run state as it is. -/
theorem exists_exec_run_kept {i : Instr} (hrti : Laws.opcodeOf i ≠ .rti)
    (hres : Laws.opcodeOf i ≠ .res) (htrap : Laws.opcodeOf i ≠ .trap) (s : State) :
    ∃ t, exec i s = .next t ∧ t.run = s.run := by
  cases i with
  | addReg | addImm | andReg | andImm | not | lea => exact ⟨_, rfl, State.writeResult_run ..⟩
  | ld | ldr | ldi =>
    refine ⟨_, rfl, (State.writeResult_run ..).trans ?_⟩
    simp only [State.memRead_run, State.indirect]
  | st | str => exact ⟨_, rfl, rfl⟩
  | sti => exact ⟨_, rfl, State.memRead_run ..⟩
  | br => exact ⟨_, exec_br .., rfl⟩
  | jmp | ret | jsr | jsrr => exact ⟨_, rfl, rfl⟩
  | rti => exact absurd rfl hrti
  | res => exact absurd rfl hres
  | trap | getc | out | puts | inp | putsp | halt => exact absurd rfl htrap

/-- The opcode of a word's instruction is in its bits 15..12 (30_encoding.md rule R65). -/
theorem opcodeOf_decode_eq_iff {w : Word} {op : Opcode} :
    Laws.opcodeOf (decode w) = op ↔ w.extractLsb' 12 4 = op.toBits := by
  rw [opcodeOf_decode, ← Opcode.ofBits_inj, Opcode.ofBits_toBits]
  rfl

theorem exists_exec_decode_run_kept {w : Word} (hrti : w.extractLsb' 12 4 ≠ 0x8#4)
    (hres : w.extractLsb' 12 4 ≠ 0xD#4) (htrap : w.extractLsb' 12 4 ≠ 0xF#4) (s : State) :
    ∃ t, exec (decode w) s = .next t ∧ t.run = s.run :=
  exists_exec_run_kept (mt opcodeOf_decode_eq_iff.mp hrti) (mt opcodeOf_decode_eq_iff.mp hres)
    (mt opcodeOf_decode_eq_iff.mp htrap) s

/-! The failure of a word. -/

/-- The failure that the spec gives the instruction word `w` in the state `s` after its fetch (rules R161,
R162). -/
def FailsWith (w : Word) (s : State) : FailKind → Prop
  | .illegalInstruction => illegalWord w
  | .inputUnavailable =>
    w.extractLsb' 12 4 = 0xF#4 ∧ (w.extractLsb' 0 8 = 0x20#8 ∨ w.extractLsb' 0 8 = 0x23#8) ∧
      s.input = [] ∧ s.inputEnded = true

/-- Only GETC and IN read a character, at the vectors x20 and x23. -/
theorem readsInput_iff {r : Routine} :
    r.readsInput = true ↔ r.vector = 0x20#8 ∨ r.vector = 0x23#8 := by
  rw [← vector_eq_inputVector, Bool.or_eq_true, beq_iff_eq, beq_iff_eq]
  rfl

theorem not_illegalWord_of_vector {w : Word} {r : Routine} (hop : w.extractLsb' 12 4 = 0xF#4)
    (hv : w.extractLsb' 0 8 = r.vector) : ¬ illegalWord w := by
  rw [illegalWord, hop, hv]
  cases r <;> decide

/-- An illegal word fails with IllegalInstruction whatever the input is. -/
theorem failsWith_of_illegalWord {w : Word} (h : illegalWord w) {s : State} {k : FailKind} :
    FailsWith w s k ↔ k = .illegalInstruction := by
  cases k with
  | illegalInstruction => exact iff_of_true h rfl
  | inputUnavailable =>
    refine iff_of_false ?_ nofun
    rintro ⟨hop, hv | hv, -⟩
    · exact not_illegalWord_of_vector (r := .getc) hop hv h
    · exact not_illegalWord_of_vector (r := .inp) hop hv h

theorem failsWith_of_vector {w : Word} {r : Routine} (hop : w.extractLsb' 12 4 = 0xF#4)
    (hv : w.extractLsb' 0 8 = r.vector) {s : State} {k : FailKind} :
    FailsWith w s k ↔
      r.readsInput = true ∧ k = .inputUnavailable ∧ s.input = [] ∧ s.inputEnded = true := by
  cases k with
  | illegalInstruction => exact iff_of_false (not_illegalWord_of_vector hop hv) nofun
  | inputUnavailable => simp only [FailsWith, hop, hv, readsInput_iff, true_and]

theorem not_failsWith_of_opcode {w : Word} (hrti : w.extractLsb' 12 4 ≠ 0x8#4)
    (hres : w.extractLsb' 12 4 ≠ 0xD#4) (htrap : w.extractLsb' 12 4 ≠ 0xF#4) {s : State} :
    ∀ k, ¬ FailsWith w s k
  | .illegalInstruction, h => by
    rcases h with hop | hop | ⟨hop, -⟩
    exacts [hrti hop, hres hop, htrap hop]
  | .inputUnavailable, ⟨hop, _⟩ => htrap hop

/-- A word fails as the spec says, with itself and its own address in the report (decision D22). -/
theorem exec_decode_failed_iff {w : Word} {s t : State} (hrun : s.run = .running)
    (h : exec (decode w) s = .next t) {k : FailKind} {x a : Word} :
    t.run = .failed k x a ↔ x = w ∧ a = s.pc - 1 ∧ FailsWith w s k := by
  rcases instruction_word_cases w with hillegal | ⟨r, hop, hv⟩ | ⟨hrti, hres, htrap⟩
  · cases h.symm.trans (exec_decode_of_illegalWord hillegal s)
    rw [State.raise_run, RunState.failed.injEq, failsWith_of_illegalWord hillegal]
    tauto
  · cases h.symm.trans (exec_decode_of_vector hop hv s)
    rw [State.runRoutine_failed_iff (s.trapEntry_run.trans hrun), failsWith_of_vector hop hv,
      State.trapEntry_pc, State.trapEntry_input, State.trapEntry_inputEnded]
    tauto
  · obtain ⟨u, hexec, hkept⟩ := exists_exec_decode_run_kept hrti hres htrap s
    cases h.symm.trans hexec
    exact iff_of_false (State.running_ne_failed (hkept.trans hrun))
      fun ⟨_, _, hfails⟩ => not_failsWith_of_opcode hrti hres htrap k hfails

/-! The failure of a step. -/

/-- A step that fetches fails as the fetched word does, and reports the address it was fetched at. -/
theorem step_fetched_failed_iff {s t : State} (hready : ReadyToFetch s) (hstep : step s = .next t)
    {k : FailKind} {x a : Word} :
    t.run = .failed k x a ↔ x = (s.memRead s.pc).1 ∧ a = s.pc ∧ FailsWith x s.fetch.2 k := by
  rw [step_readyToFetch hready] at hstep
  have haddr : s.fetch.2.pc - 1 = s.pc := BitVec.add_sub_cancel s.pc 1
  rw [exec_decode_failed_iff (State.fetch_readyToFetch hready).1 hstep, haddr, State.fetch_word]
  exact and_congr_right fun hx => by rw [hx]

/-- A step that goes on with a routine fails only where GETC or IN had waited and the stream has ended. -/
theorem step_resumed_failed_iff {s t : State} (hpending : s.pending ≠ .idle)
    (hstep : step s = .next t) {k : FailKind} {x a : Word} :
    t.run = .failed k x a ↔
      k = .inputUnavailable ∧ (s.pending = .waitGetc x ∨ s.pending = .waitIn x) ∧ a = s.pc - 1 ∧
        s.input = [] ∧ s.inputEnded = true := by
  obtain ⟨hrun, hcases⟩ := step_cases hstep
  rcases hcases with ⟨hidle, -⟩ | ⟨w, hp, -, rfl⟩ | ⟨w, hp, -, rfl⟩ | ⟨c, hp, rfl⟩ | ⟨c, hp, rfl⟩
  case inl => exact absurd hidle hpending
  case inr.inl =>
    rw [State.getcRead_failed_iff hrun, hp, Pending.waitGetc.injEq, eq_comm (a := w)]
    simp only [reduceCtorEq, or_false]
  case inr.inr.inl =>
    rw [State.inRead_failed_iff hrun, hp, Pending.waitIn.injEq, eq_comm (a := w)]
    simp only [reduceCtorEq, false_or]
  case inr.inr.inr.inl =>
    exact iff_of_false ((s.putsScan_run ..).trans_ne (State.running_ne_failed hrun)) (by simp [hp])
  case inr.inr.inr.inr =>
    exact iff_of_false ((s.putspScan_run ..).trans_ne (State.running_ne_failed hrun)) (by simp [hp])

/-- Settles O51: only a step that fetches fails with IllegalInstruction, and it does at an illegal
word. -/
theorem illegalInstructionExactlyOnIllegalWords :
    Obligations.IllegalInstructionExactlyOnIllegalWords := by
  intro s t hstep w a
  by_cases hidle : s.pending = .idle
  case pos =>
    have hready : ReadyToFetch s := ⟨(step_cases hstep).1, hidle⟩
    exact (step_fetched_failed_iff hready hstep).trans (and_iff_right hready).symm
  case neg =>
    refine iff_of_false (fun hfailed => ?_) fun ⟨⟨_, h⟩, _⟩ => hidle h
    obtain ⟨hkind, -⟩ := (step_resumed_failed_iff hidle hstep).mp hfailed
    cases hkind

/-- Settles O52: a step that fetches fails for want of input at a GETC or IN, and one that goes on with a
routine where GETC or IN had waited. -/
theorem inputUnavailableExactlyAtEndOfStream : Obligations.InputUnavailableExactlyAtEndOfStream := by
  intro s t hstep w a
  by_cases hidle : s.pending = .idle
  case pos =>
    have hready : ReadyToFetch s := ⟨(step_cases hstep).1, hidle⟩
    have hfetched := step_fetched_failed_iff hready hstep (k := .inputUnavailable) (x := w) (a := a)
    have hended : s.fetch.2.inputEnded = s.inputEnded := s.memRead_inputEnded s.pc
    rw [FailsWith, hended] at hfetched
    rw [hidle]
    simp only [reduceCtorEq, or_self, false_and, or_false]
    exact hfetched.trans (and_iff_right hready).symm
  case neg =>
    have hnotReady : ¬ ReadyToFetch s := fun ⟨_, h⟩ => hidle h
    rw [step_resumed_failed_iff hidle hstep]
    simp only [hnotReady, false_and, false_or, true_and]

end Sys2Proof.Machine
end

section
/-! PROOFS. The wait of GETC and IN for input (70_reset_and_hazards.md rules R188, R191; decision D30; log
entry 6), and that it is the only thing that holds a running machine. The two routines end in one blocking
read and differ in what they write around it (43_trap.md rules R130, R133): what follows is proved once for
both, and each is a value of `ReadKind`. -/

namespace Sys2Proof.Machine

/-! The common blocking read. -/

/-- The two routines that read a character. -/
inductive ReadKind where
  | getc | inp

/-- The instruction of a routine, with the ignored bits it keeps. -/
def ReadKind.instr (ign : BitVec 4) : ReadKind → Instr
  | .getc => .getc ign
  | .inp => .inp ign

/-- The TRAP word it is to report. -/
def ReadKind.word (ign : BitVec 4) : ReadKind → Word
  | .getc => trapWord ign 0x20
  | .inp => trapWord ign 0x23

/-- How the wait of a routine is recorded. -/
def ReadKind.pending : ReadKind → Word → Pending
  | .getc => .waitGetc
  | .inp => .waitIn

/-- What a routine writes before it reads. -/
def ReadKind.prompt (p : Config.Params) : ReadKind → List Byte
  | .getc => []
  | .inp => p.inPrompt

/-- What a routine writes for the character it has read. -/
def ReadKind.echo (c : Byte) : ReadKind → List Byte
  | .getc => []
  | .inp => [c]

/-- The link and the prompt: the state at the blocking read. -/
def State.beforeRead (s : State) (k : ReadKind) : State :=
  s.trapEntry.writeBytes (k.prompt s.params)

/-- A routine from its blocking read on. -/
def State.readOn (s : State) (k : ReadKind) (word : Word) : State :=
  match k with
  | .getc => s.getcRead word
  | .inp => s.inRead word

theorem exec_readKind (k : ReadKind) (ign : BitVec 4) (s : State) :
    exec (k.instr ign) s = .next ((s.beforeRead k).readOn k (k.word ign)) := by
  cases k with
  | getc =>
    rw [State.beforeRead, ReadKind.prompt, State.writeBytes_nil]
    rfl
  | inp =>
    rw [State.beforeRead, ReadKind.prompt, ← State.trapEntry_params]
    rfl

section
variable {s : State} (k : ReadKind) (word : Word)

theorem State.readOn_of_input {c : Byte} {rest : List Byte} (hinput : s.input = c :: rest) :
    s.readOn k word = (s.writeBytes (k.echo c)).receiveChar c rest := by
  cases k with
  | getc =>
    rw [ReadKind.echo, State.writeBytes_nil]
    exact State.getcRoutine_of_input hinput word
  | inp =>
    rw [State.readOn, State.inRead, State.blockRead_of_input hinput, State.inFinish_char]
    rfl

theorem State.readOn_of_endOfStream (hinput : s.input = []) (hended : s.inputEnded = true) :
    s.readOn k word = (s.raise .inputUnavailable word).trapReturn := by
  have hread := State.blockRead_of_endOfStream hinput hended
  cases k with
  | getc => rw [State.readOn, State.getcRead, hread, State.getcFinish]
  | inp => rw [State.readOn, State.inRead, hread, State.inFinish]

theorem State.blockRead_of_wait (hinput : s.input = []) (hended : s.inputEnded = false) :
    s.blockRead = (.wait, s) := by
  rw [State.blockRead, hinput, hended]
  rfl

theorem State.readOn_of_wait (hinput : s.input = []) (hended : s.inputEnded = false) :
    s.readOn k word = s.suspend (k.pending word) := by
  have hread := State.blockRead_of_wait hinput hended
  cases k with
  | getc =>
    rw [State.readOn, State.getcRead, hread]
    rfl
  | inp =>
    rw [State.readOn, State.inRead, hread]
    rfl

end

/-- Once the host has supplied something, the routine goes on as if it had not waited. -/
theorem State.readOn_suspend {s : State} (hsupplied : s.input ≠ [] ∨ s.inputEnded = true)
    (k : ReadKind) (word : Word) (p : Pending) : (s.suspend p).readOn k word = s.readOn k word := by
  cases hinput : s.input with
  | cons c rest =>
    rw [State.readOn_of_input k word hinput, State.readOn_of_input (s := s.suspend p) k word hinput]
    rfl
  | nil =>
    have hended : s.inputEnded = true := hsupplied.resolve_left (not_not_intro hinput)
    rw [State.readOn_of_endOfStream k word hinput hended,
      State.readOn_of_endOfStream (s := s.suspend p) k word hinput hended]
    rfl

/-! The step of a waiting machine. -/

theorem State.blockRead_eq_wait_iff {s : State} :
    s.blockRead.1 = .wait ↔ s.input = [] ∧ s.inputEnded = false := by
  rcases s.blockRead_cases with ⟨c, rest, hi, h⟩ | ⟨hi, he, h⟩ | ⟨hi, he, h⟩ <;> simp [*]

section
variable {s : State} {k : ReadKind} {word : Word} (hrun : s.run = .running)
  (hpending : s.pending = k.pending word)
include hrun hpending

theorem step_readKind : step s = unlessWaiting s (s.readOn k word) := by
  unfold step resumeRoutine
  rw [hrun, hpending]
  cases k <;> rfl

/-- The wait is the absence of a step (rule R191; decision D30). -/
theorem step_of_wait (hinput : s.input = []) (hended : s.inputEnded = false) :
    step s = .fault .awaitingInput := by
  rw [step_readKind hrun hpending, unlessWaiting,
    if_pos (State.blockRead_eq_wait_iff.mpr ⟨hinput, hended⟩)]

theorem step_of_supplied (hsupplied : s.input ≠ [] ∨ s.inputEnded = true) :
    step s = .next (s.readOn k word) := by
  have hread : s.blockRead.1 ≠ .wait := by
    rw [Ne, State.blockRead_eq_wait_iff]
    rintro ⟨hinput, hended⟩
    simp [hinput, hended] at hsupplied
  rw [step_readKind hrun hpending, unlessWaiting, if_neg hread]

end

/-- The wait over, the step is the rest of the routine. -/
theorem step_suspend_of_supplied {s : State} (hrun : s.run = .running)
    (hsupplied : s.input ≠ [] ∨ s.inputEnded = true) (k : ReadKind) (word : Word) :
    step (s.suspend (k.pending word)) = .next (s.readOn k word) := by
  rw [step_of_supplied (s := s.suspend (k.pending word)) hrun rfl hsupplied,
    State.readOn_suspend hsupplied]

/-! The host's moves while a routine waits. -/

/-- The state with another stream: what the host's moves make of it. -/
def State.withStream (s : State) (input : List Byte) (ended : Bool) : State :=
  { s with input := input, inputEnded := ended }

theorem State.supplyChar_of_not_ended {s : State} (hended : s.inputEnded = false) (c : Byte) :
    s.supplyChar c = s.withStream (s.input ++ [c]) false := by
  rw [State.supplyChar, hended, if_neg Bool.false_ne_true, State.withStream, ← hended]

theorem State.signalEnd_eq (s : State) : s.signalEnd = s.withStream s.input true := rfl

/-- The link and the prompt do not depend on the stream. -/
theorem State.beforeRead_withStream (s : State) (k : ReadKind) (input : List Byte) (ended : Bool) :
    (s.withStream input ended).beforeRead k = (s.beforeRead k).withStream input ended := by
  have hentry : (s.withStream input ended).trapEntry = s.trapEntry.withStream input ended := by
    rw [State.trapEntry_eq, State.trapEntry_eq, apply_ite fun t : State => t.withStream input ended]
    rfl
  rw [State.beforeRead, hentry]
  rfl

/-- A routine that waits goes on to the same state as one that had the new stream from the start. -/
theorem readKind_resumes {s : State} (hrun : s.run = .running) (k : ReadKind) (ign : BitVec 4)
    {input : List Byte} {ended : Bool} (hsupplied : input ≠ [] ∨ ended = true) :
    ∃ u, step (((s.beforeRead k).suspend (k.pending (k.word ign))).withStream input ended) = .next u ∧
      exec (k.instr ign) (s.withStream input ended) = .next u := by
  have hrun' : ((s.beforeRead k).withStream input ended).run = .running :=
    s.trapEntry_run.trans hrun
  exact ⟨_, step_suspend_of_supplied hrun' hsupplied k _,
    by rw [exec_readKind, State.beforeRead_withStream]⟩

/-- Both routines with no input: the wait, its step and what the host's moves make of it. -/
theorem readKind_waits {s : State} (hrun : s.run = .running) (hinput : s.input = [])
    (hended : s.inputEnded = false) (k : ReadKind) (ign : BitVec 4) :
    ∃ t, exec (k.instr ign) s = .next t ∧ t.run = .running ∧ step t = .fault .awaitingInput ∧
      (∀ c, ∃ u, step (t.supplyChar c) = .next u ∧ exec (k.instr ign) (s.supplyChar c) = .next u) ∧
      (∃ u, step t.signalEnd = .next u ∧ exec (k.instr ign) s.signalEnd = .next u) := by
  have hrun' : (s.beforeRead k).run = .running := s.trapEntry_run.trans hrun
  have hinput' : (s.beforeRead k).input = [] := s.trapEntry_input.trans hinput
  have hended' : (s.beforeRead k).inputEnded = false := s.trapEntry_inputEnded.trans hended
  have hwaiting : ((s.beforeRead k).suspend (k.pending (k.word ign))).inputEnded = false := hended'
  refine ⟨(s.beforeRead k).suspend (k.pending (k.word ign)), ?waits, hrun',
    step_of_wait hrun' rfl hinput' hended', fun c => ?char, ?ends⟩
  case waits => rw [exec_readKind, State.readOn_of_wait k _ hinput' hended']
  case char =>
    rw [State.supplyChar_of_not_ended hended, State.supplyChar_of_not_ended hwaiting,
      State.suspend_input, hinput, hinput']
    exact readKind_resumes hrun k ign (.inl nofun)
  case ends =>
    rw [State.signalEnd_eq, State.signalEnd_eq, State.suspend_input, hinput, hinput']
    exact readKind_resumes hrun k ign (.inr rfl)

/-! The two statements. -/

/-- Settles O35: GETC and IN are the two routines of `readKind_waits`. -/
theorem blockedReadWaitsForTheHost : Obligations.BlockedReadWaitsForTheHost := by
  intro ign s hrun hinput hended i hi
  obtain ⟨k, rfl⟩ : ∃ k : ReadKind, i = k.instr ign := by
    simp only [List.mem_cons, List.not_mem_nil, or_false] at hi
    rcases hi with rfl | rfl
    exacts [⟨.getc, rfl⟩, ⟨.inp, rfl⟩]
  exact readKind_waits hrun hinput hended k ign

/-- A machine that is to go on with GETC or IN has a next state, but where there is no input. -/
theorem step_readKind_cases {s : State} {k : ReadKind} {word : Word} (hrun : s.run = .running)
    (hpending : s.pending = k.pending word) :
    (∃ t, step s = .next t) ∨
      (step s = .fault .awaitingInput ∧ s.input = [] ∧ s.inputEnded = false) := by
  by_cases hwait : s.input = [] ∧ s.inputEnded = false
  case pos =>
    obtain ⟨hinput, hended⟩ := hwait
    exact .inr ⟨step_of_wait hrun hpending hinput hended, hinput, hended⟩
  case neg =>
    rw [not_and_or, Bool.not_eq_false] at hwait
    exact .inl ⟨_, step_of_supplied hrun hpending hwait⟩

/-- Settles O49: a fetched instruction and a scan always have a next state; GETC and IN where there is
input. -/
theorem onlyBlockedReadsHoldARunningMachine : Obligations.OnlyBlockedReadsHoldARunningMachine := by
  intro s hrun
  cases hpending : s.pending with
  | idle =>
    obtain ⟨t, hexec, -⟩ := exists_exec_effect s.fetch.2 (decode s.fetch.1)
    exact .inl ⟨t, (step_readyToFetch ⟨hrun, hpending⟩).trans hexec⟩
  | waitGetc w =>
    exact (step_readKind_cases (k := .getc) hrun hpending).imp_right fun ⟨hstep, hstream⟩ =>
      ⟨hstep, ⟨w, .inl rfl⟩, hstream⟩
  | waitIn w =>
    exact (step_readKind_cases (k := .inp) hrun hpending).imp_right fun ⟨hstep, hstream⟩ =>
      ⟨hstep, ⟨w, .inr rfl⟩, hstream⟩
  | scanPuts a => exact .inl ⟨_, step_scanPuts hrun hpending⟩
  | scanPutsp a => exact .inl ⟨_, step_scanPutsp hrun hpending⟩

end Sys2Proof.Machine
end

section
/-! PROOFS. The order of the host's streams (70_reset_and_hazards.md rule R193, decision D33; 43_trap.md rule
R136): output only grows, input is only consumed, in every part of a step. -/

namespace Sys2Proof.Machine

/-- From `s` to `t` output was only added at the end and input only taken from the front; end-of-stream and
the parameters are the host's own. -/
structure StreamsOrdered (s t : State) : Prop where
  output : s.output <+: t.output
  input : t.input <:+ s.input
  inputEnded : t.inputEnded = s.inputEnded
  polls : s.polls ≤ t.polls
  params : t.params = s.params

theorem StreamsOrdered.trans {s t u : State} (hst : StreamsOrdered s t) (htu : StreamsOrdered t u) :
    StreamsOrdered s u where
  output := hst.output.trans htu.output
  input := htu.input.trans hst.input
  inputEnded := htu.inputEnded.trans hst.inputEnded
  polls := hst.polls.trans htu.polls
  params := htu.params.trans hst.params

/-- What touches neither stream nor the parameters keeps their order. -/
theorem StreamsOrdered.of_kept {s t : State} (houtput : t.output = s.output)
    (hkeyboard : KeyboardKept s t) (hparams : t.params = s.params) : StreamsOrdered s t := by
  obtain ⟨hinput, hended, -, hpolls⟩ := hkeyboard
  exact ⟨houtput ▸ List.prefix_rfl, hinput ▸ List.suffix_rfl, hended, hpolls.ge, hparams⟩

/-! The operations. -/

section
variable (s : State)

theorem State.writeBytes_streamsOrdered (bytes : List Byte) :
    StreamsOrdered s (s.writeBytes bytes) :=
  ⟨List.prefix_append s.output bytes, List.suffix_rfl, rfl, Nat.le_refl _, rfl⟩

theorem State.suspend_streamsOrdered (p : Pending) : StreamsOrdered s (s.suspend p) :=
  .of_kept rfl ⟨rfl, rfl, rfl, rfl⟩ rfl

theorem State.trapEntry_streamsOrdered : StreamsOrdered s s.trapEntry :=
  .of_kept s.trapEntry_output
    ⟨s.trapEntry_input, s.trapEntry_inputEnded, s.trapEntry_draws, s.trapEntry_polls⟩
    s.trapEntry_params

theorem State.writeResult_streamsOrdered (dr : Reg) (v : Word) :
    StreamsOrdered s (s.writeResult dr v) :=
  .of_kept (s.writeResult_output dr v)
    ⟨s.writeResult_input dr v, s.writeResult_inputEnded dr v, s.writeResult_draws dr v,
      s.writeResult_polls dr v⟩
    (s.writeResult_params dr v)

theorem State.receiveChar_streamsOrdered {c : Byte} {rest : List Byte}
    (hinput : s.input = c :: rest) : StreamsOrdered s (s.receiveChar c rest) :=
  ⟨List.prefix_rfl, hinput ▸ List.suffix_cons c rest, rfl, Nat.le_refl _, rfl⟩

/-- A poll consumes at most the next character (rule R190). -/
theorem State.keyboardPoll_streamsOrdered : StreamsOrdered s s.keyboardPoll where
  output := s.keyboardPoll_output ▸ List.prefix_rfl
  input :=
    have ⟨used, hused⟩ := s.keyboardPoll_input
    ⟨used, hused.symm⟩
  inputEnded := s.keyboardPoll_inputEnded
  polls := s.keyboardPoll_polls ▸ Nat.le_succ s.polls
  params := s.keyboardPoll_params

theorem State.memRead_streamsOrdered (a : Word) : StreamsOrdered s (s.memRead a).2 := by
  rcases s.memRead_state a with h | h <;> rw [h]
  · exact .of_kept rfl ⟨rfl, rfl, rfl, rfl⟩ rfl
  · exact s.keyboardPoll_streamsOrdered

theorem State.fetch_streamsOrdered : StreamsOrdered s s.fetch.2 :=
  (s.memRead_streamsOrdered s.pc).trans (.of_kept rfl ⟨rfl, rfl, rfl, rfl⟩ rfl)

end

theorem BusReads.streamsOrdered {s m : State} (h : BusReads s m) : StreamsOrdered s m := by
  induction h with
  | none => exact .of_kept rfl ⟨rfl, rfl, rfl, rfl⟩ rfl
  | @read m a _ ih => exact ih.trans (m.memRead_streamsOrdered a)

/-! The routines. -/

/-- A blocking read consumes the next character or nothing (rule R191). -/
theorem State.readOn_streamsOrdered (s : State) (k : ReadKind) (word : Word) :
    StreamsOrdered s (s.readOn k word) := by
  cases hinput : s.input with
  | cons c rest =>
    rw [State.readOn_of_input k word hinput]
    exact (s.writeBytes_streamsOrdered (k.echo c)).trans
      (State.receiveChar_streamsOrdered _ hinput)
  | nil =>
    cases hended : s.inputEnded with
    | true =>
      rw [State.readOn_of_endOfStream k word hinput hended]
      exact .of_kept rfl ⟨rfl, rfl, rfl, rfl⟩ rfl
    | false =>
      rw [State.readOn_of_wait k word hinput hended]
      exact s.suspend_streamsOrdered _

theorem State.scan_streamsOrdered (s : State) (k : ScanKind) (fuel : Nat) (a : Word) :
    StreamsOrdered s (s.scan k fuel a) := by
  induction fuel generalizing s a with
  | zero =>
    rw [State.scan_zero]
    exact s.suspend_streamsOrdered _
  | succ fuel ih =>
    have hcell : StreamsOrdered s (s.scanCell k a) :=
      (s.memRead_streamsOrdered a).trans (State.writeBytes_streamsOrdered _ _)
    rw [State.scan_succ]
    split
    · exact hcell.trans (State.suspend_streamsOrdered _ .idle)
    · exact hcell.trans (ih _ _)

theorem State.runRoutine_streamsOrdered (s : State) (word : Word) (r : Routine) :
    StreamsOrdered s (s.runRoutine word r) := by
  cases r with
  | getc => exact s.readOn_streamsOrdered .getc word
  | out =>
    exact (s.writeBytes_streamsOrdered [lowByte (s.reg .r0)]).trans
      (State.suspend_streamsOrdered _ .idle)
  | puts => exact s.scan_streamsOrdered .puts scanRound (s.reg .r0)
  | inp =>
    exact (s.writeBytes_streamsOrdered s.params.inPrompt).trans
      (State.readOn_streamsOrdered _ .inp word)
  | putsp => exact s.scan_streamsOrdered .putsp scanRound (s.reg .r0)
  | halt => exact .of_kept rfl ⟨rfl, rfl, rfl, rfl⟩ rfl

/-! The instructions and the step. -/

theorem Effect.streamsOrdered {s t : State} {i : Instr} (h : Effect s i t) : StreamsOrdered s t := by
  cases h with
  | @result m dr v _ hreads => exact hreads.streamsOrdered.trans (m.writeResult_streamsOrdered dr v)
  | store v _ _ hreads => exact hreads.streamsOrdered.trans (.of_kept rfl ⟨rfl, rfl, rfl, rfl⟩ rfl)
  | jump | call | illegal => exact .of_kept rfl ⟨rfl, rfl, rfl, rfl⟩ rfl
  | @routine r word _ =>
    exact s.trapEntry_streamsOrdered.trans (s.trapEntry.runRoutine_streamsOrdered word r)

/-- A step fetches and executes, or goes on with one of the four routines that can stop inside. -/
theorem step_streamsOrdered {s t : State} (hstep : step s = .next t) : StreamsOrdered s t := by
  obtain ⟨-, hcases⟩ := step_cases hstep
  rcases hcases with ⟨-, h⟩ | ⟨w, -, -, rfl⟩ | ⟨w, -, -, rfl⟩ | ⟨a, -, rfl⟩ | ⟨a, -, rfl⟩
  · exact s.fetch_streamsOrdered.trans (exec_effect h).streamsOrdered
  · exact s.readOn_streamsOrdered .getc w
  · exact s.readOn_streamsOrdered .inp w
  · exact s.scan_streamsOrdered .puts scanRound a
  · exact s.scan_streamsOrdered .putsp scanRound a

/-- Settles O56: the bytes added and the characters consumed are the two witnesses of the order. -/
theorem stepOrdersTheHostStreams : Obligations.StepOrdersTheHostStreams := by
  intro s t hstep
  obtain ⟨⟨bytes, hbytes⟩, ⟨used, hused⟩, hended, hpolls, hparams⟩ := step_streamsOrdered hstep
  exact ⟨⟨bytes, hbytes.symm⟩, ⟨used, hused.symm⟩, hended, hpolls, hparams⟩

end Sys2Proof.Machine
end

section
/-! PROOFS. The image loader (70_reset_and_hazards.md rule R181; decision D27): which byte strings are
images, and where the words of one stand. -/

namespace Sys2Proof

/-- A word is its two bytes, the high one first (rule R181). -/
theorem append_bytes (w : Word) : w.extractLsb' 8 8 ++ w.extractLsb' 0 8 = w := by
  rw [BitVec.extractLsb'_append_extractLsb'_eq_extractLsb' (by decide)]
  exact BitVec.extractLsb'_eq_self

end Sys2Proof

namespace Sys2Proof.Machine

/-! The words of a byte string. -/

theorem imageWords_eq_none_iff : ∀ {bytes : List Byte},
    imageWords bytes = none ↔ bytes.length % 2 = 1
  | [] => iff_of_false nofun nofun
  | [_] => iff_of_true rfl rfl
  | hi :: lo :: rest => by
    rw [imageWords, Option.map_eq_none_iff, imageWords_eq_none_iff, List.length_cons,
      List.length_cons, Nat.add_assoc, Nat.add_mod_right]

theorem imageWords_eq_nil_iff : ∀ {bytes : List Byte}, imageWords bytes = some [] ↔ bytes = []
  | [] => iff_of_true rfl rfl
  | [_] => iff_of_false nofun nofun
  | hi :: lo :: rest => by
    refine iff_of_false ?_ nofun
    rw [imageWords, Option.map_eq_some_iff]
    rintro ⟨ws, -, h⟩
    cases h

/-- The words written as big-endian bytes are read back. -/
theorem imageWords_flatMap_bytes (ws : List Word) :
    imageWords (ws.flatMap fun w => [w.extractLsb' 8 8, w.extractLsb' 0 8]) = some ws := by
  induction ws with
  | nil => rfl
  | cons w rest ih =>
    rw [List.flatMap_cons, List.cons_append, List.cons_append, List.nil_append, imageWords, ih,
      Option.map_some, append_bytes]

/-! The load of an image. -/

theorem loadImage_of_words {bytes : List Byte} {origin : Word} {ws : List Word}
    (h : imageWords bytes = some (origin :: ws)) (m : Memory) :
    loadImage bytes m = some (storeWords origin ws m) := by
  rw [loadImage, h]

/-- A load fails where there are no words to read, or no origin among them. -/
theorem loadImage_eq_none_iff {bytes : List Byte} {m : Memory} :
    loadImage bytes m = none ↔ imageWords bytes = none ∨ imageWords bytes = some [] := by
  cases hwords : imageWords bytes with
  | none => exact iff_of_true (by rw [loadImage, hwords]) (.inl rfl)
  | some ws =>
    cases ws with
    | nil => exact iff_of_true (by rw [loadImage, hwords]) (.inr rfl)
    | cons origin ws =>
      rw [loadImage_of_words hwords]
      exact iff_of_false nofun (by simp)

/-- Settles O59: no words at an odd length, and no origin at length 0. -/
theorem imageLoadFailsExactlyWhenTruncated : Obligations.ImageLoadFailsExactlyWhenTruncated := by
  intro bytes m
  rw [loadImage_eq_none_iff, imageWords_eq_none_iff, imageWords_eq_nil_iff, ← List.length_eq_zero_iff]
  omega

/-! The stores of a load. -/

/-- A cell that no word goes to is as before. -/
theorem read_storeWords_other {b : Word} (ws : List Word) : ∀ {a : Word} {m : Memory},
    (∀ k < ws.length, b ≠ a + BitVec.ofNat 16 k) →
      Memory.read (storeWords a ws m) b.toNat = Memory.read m b.toNat := by
  induction ws with
  | nil => exact fun _ => rfl
  | cons w rest ih =>
    intro a m hother
    have hne : b ≠ a := by simpa using hother 0 (Nat.zero_lt_succ _)
    have hrest : ∀ k < rest.length, b ≠ a + 1 + BitVec.ofNat 16 k := fun k hk => by
      rw [← add_ofNat_succ]
      exact hother (k + 1) (Nat.succ_lt_succ hk)
    rw [storeWords, ih hrest, Memory.read_write_other m w (mt BitVec.eq_of_toNat_eq hne)]

/-- The addresses within one round of memory are distinct: none after the first comes back to it. -/
theorem ne_add_one_add_ofNat (a : Word) {k : Nat} (hk : k + 1 < 65536) :
    a ≠ a + 1 + BitVec.ofNat 16 k := by
  rw [← add_ofNat_succ]
  intro h
  have hzero : (BitVec.ofNat 16 (k + 1)).toNat = 0 := congrArg BitVec.toNat (left_eq_add.mp h)
  rw [BitVec.toNat_ofNat, Nat.mod_eq_of_lt hk] at hzero
  exact Nat.succ_ne_zero k hzero

/-- At most one round of memory: word `k` stands at its own address, as no later one is stored there. -/
theorem read_storeWords (ws : List Word) : ∀ {a : Word} {m : Memory}, ws.length ≤ 65536 →
    Memory.wf m = true → ∀ k (hk : k < ws.length),
      Memory.read (storeWords a ws m) (a + BitVec.ofNat 16 k).toNat = ws[k] := by
  induction ws with
  | nil => exact fun _ _ _ hk => absurd hk (Nat.not_lt_zero _)
  | cons w rest ih =>
    intro a m hlength hwf k hk
    rw [List.length_cons] at hlength hk
    cases k with
    | zero =>
      have hlater : ∀ j < rest.length, a ≠ a + 1 + BitVec.ofNat 16 j := fun j hj =>
        ne_add_one_add_ofNat a (by omega)
      rw [BitVec.add_zero, storeWords, read_storeWords_other rest hlater,
        Memory.read_write_same w hwf]
      rfl
    | succ k =>
      rw [add_ofNat_succ, storeWords]
      exact ih (by omega) (Memory.wf_write a w hwf) k (by omega)

/-- Settles O58: the bytes are the words, and the stores are those of `read_storeWords`. -/
theorem loadedImageStandsInMemory : Obligations.LoadedImageStandsInMemory := by
  intro origin ws m hlength hwf
  exact ⟨storeWords origin ws m, loadImage_of_words (imageWords_flatMap_bytes (origin :: ws)) m,
    read_storeWords ws hlength hwf, fun _ => read_storeWords_other ws,
    Memory.wf_storeWords ws origin hwf⟩

end Sys2Proof.Machine
end
